-- ==== Sys2Proof/Word.lean ====
section
/-! DEFINITION. The word types of the engine: bytes, host addresses, the eight-word registers of one width class
and the physical block buffer. Spec: 00_scope.md R10, R13, R15; 10_state.md R32, R38. -/

namespace Sys2Proof

/-- One byte: 8 bits, bit 7 the most significant (R16). -/
abbrev Byte := BitVec 8

/-- A host byte address: 64 bits, unsigned (R13, R71). -/
abbrev Addr := BitVec 64

/-- Eight words of `w` bits: the shape of the chaining value, of an IV and of the round register (R10, R43). -/
abbrev Words (w : Nat) := Vector (BitVec w) 8

/-- The physical block buffer: 128 bytes, of which a context uses bytes [0..B) (R38). -/
abbrev Buf := Vector Byte 128

end Sys2Proof
end

