-- ==== Sys2Proof/Syntax.lean ====
section
/-! DEFINITION. The engine's instruction set: the four commands of spec/opcode_table.json (30_encoding.md R101). -/

namespace Sys2Proof

/-- A command. Its other operands are not in the command word: they are the values of the operand registers at the
moment of the CMD write (30_encoding.md R104). `hbl` is the HBL field, an unsigned number of bits (R103). -/
inductive Instr where
  /-- INIT, OP 0x1 (44_engine_commands.md R261). -/
  | init (hbl : Nat)
  /-- UPDATE, OP 0x2 (R264). -/
  | update
  /-- FINAL, OP 0x3 (R269). -/
  | final
  /-- HASH, OP 0x4 (R280). -/
  | hash (hbl : Nat)
  deriving DecidableEq, Repr

end Sys2Proof
end

