-- ==== Sys2Proof/WellFormed.lean ====
section
/-! DEFINITION. Which instruction terms a command word can encode (30_encoding.md R103, 92_eei_decisions.md D44). -/

namespace Sys2Proof

/-- A hashBitLen fits the 16-bit HBL field: "every value 0 to 65535 can be encoded"; wider values "cannot be
encoded" (30_encoding.md R103). -/
def Instr.hblFits (h : Nat) : Bool := h < 2 ^ 16

/-- A well-formed instruction is one that a command word encodes: the only check is the width of HBL. -/
def Instr.wf : Instr → Bool
  | .init h => Instr.hblFits h
  | .update => true
  | .final => true
  | .hash h => Instr.hblFits h

end Sys2Proof
end

