-- ==== Sys2Proof/Decode.lean ====
section
/-! DEFINITION. The decoder of the 32-bit command word, total, rejecting by name, and the encoder
(30_encoding.md R100 to R108, R110). -/

namespace Sys2Proof

/-- Why a command word is Illegal: the three clauses of 30_encoding.md R105. -/
inductive Illegal where
  /-- (a) OP is 0x0 or one of 0x5 to 0xF. -/
  | reservedOp
  /-- (b) a bit of RSVD is set. -/
  | rsvdSet
  /-- (c) HBL is not 0 on UPDATE or FINAL. -/
  | hblSet
  deriving DecidableEq, Repr

/-- OP, bits [3:0] of the command word (R100). -/
def cmdOp (cmd : BitVec 32) : BitVec 4 := cmd.extractLsb' 0 4

/-- RSVD, bits [15:4] (R100). -/
def cmdRsvd (cmd : BitVec 32) : BitVec 12 := cmd.extractLsb' 4 12

/-- HBL, bits [31:16] (R100). -/
def cmdHbl (cmd : BitVec 32) : BitVec 16 := cmd.extractLsb' 16 16

/-- `decode(cmd)` of 30_encoding.md R108, total on every 32-bit word. RSVD is looked at first, whatever OP (R102). -/
def decode (cmd : BitVec 32) : Except Illegal Instr :=
  if cmdRsvd cmd ≠ 0 then .error .rsvdSet
  else if cmdOp cmd = 0x1 then .ok (.init (cmdHbl cmd).toNat)
  else if cmdOp cmd = 0x2 then (if cmdHbl cmd = 0 then .ok .update else .error .hblSet)
  else if cmdOp cmd = 0x3 then (if cmdHbl cmd = 0 then .ok .final else .error .hblSet)
  else if cmdOp cmd = 0x4 then .ok (.hash (cmdHbl cmd).toNat)
  else .error .reservedOp

/-- The OP value of a command (30_encoding.md R101). -/
def Instr.op : Instr → BitVec 4
  | .init _ => 0x1
  | .update => 0x2
  | .final => 0x3
  | .hash _ => 0x4

/-- The HBL value a command's word carries (R103): hashBitLen for INIT and HASH, 0 for UPDATE and FINAL. -/
def Instr.hbl : Instr → Nat
  | .init h => h
  | .update => 0
  | .final => 0
  | .hash h => h

/-- The command word of a well-formed command: `(hbl << 16) | op` (30_encoding.md R110). -/
def encode (i : Instr) : BitVec 32 :=
  (BitVec.ofNat 32 i.hbl <<< 16) ||| i.op.setWidth 32

/-- The instruction this decoder reads from a command whose bits are `w`, numbered as spec/opcode_table.json numbers
them (one 32-bit word, bit 0 its least significant bit); bits above `nbits` are 0. A command is exactly 32 bits (R107),
so a number that does not fit a command word is no instruction. -/
def decodeTableWord (nbits w : Nat) : Option Instr :=
  let v := w % 2 ^ nbits
  if v < 2 ^ 32 then
    match decode (BitVec.ofNat 32 v) with
    | .ok i => some i
    | .error _ => none
  else none

end Sys2Proof
end

