-- ==== Sys2Proof/Config.lean ====
section
/-! DEFINITION. What is fixed for one engine and one platform before the first command: the configuration records
CORECFG[32] and CORECFG[64] (00_scope.md R12), the platform parameters P_REG_BASE and P_MEM_ADMITS (R13), and the free
values: opaque constants with no body, about which nothing can be proved but what holds of every value. -/

namespace Sys2Proof

/-- `FF2_BASE`: which value the second feed-forward XORs into (00_scope.md R12, 42_compression_core.md R205). -/
inductive FF2Base where
  | mutated
  | original
  deriving DecidableEq, Repr, Inhabited

/-- One row of `SCHED_SRC`: the four message words XOR-combined for W[16+j]; "each in 0..15" is the type (R12). -/
structure SchedSrc where
  a : Fin 16
  b : Fin 16
  c : Fin 16
  d : Fin 16
  deriving DecidableEq, Repr, Inhabited

/-- One (slot, rot) pair of `INJ1` or `INJ2`: a target word and a left-rotation; "slots in 0..7" is the type (R12). -/
structure Inj where
  slot : Fin 8
  rot : Nat
  deriving DecidableEq, Repr, Inhabited

/-- The configuration record `CORECFG[w]` (00_scope.md R12), field by field. Every value is OPEN (R7). The bounds of
the table that are a plain fact about one index are types here; the others are `CoreCfg.wf` (Machine/CfgCheck.lean). -/
structure CoreCfg (w : Nat) where
  /-- `IV[224]` in class W32, `IV[384]` in class W64: the shorter digest length of the class. -/
  ivShort : Words w
  /-- `IV[256]` in class W32, `IV[512]` in class W64: the longer digest length of the class. -/
  ivLong : Words w
  /-- `K`: the schedule round constants. -/
  k : Vector (BitVec w) 16
  /-- `SCHED_SRC`. -/
  schedSrc : Vector SchedSrc 16
  /-- `SCHED_ROT`: left-rotation for W[16+j], legal in 0..w-1. -/
  schedRot : Vector Nat 16
  /-- `SIGMA`: the schedule word used at use u = 2t (slot SA) and u = 2t+1 (slot SE) of step t. -/
  sigma : Vector (Fin 32) 80
  /-- `SA`, legal in 0..3. -/
  sa : Fin 8
  /-- `SE`, legal in 4..7. -/
  se : Fin 8
  /-- `INJ1`: where the three rotated copies of T1 go. -/
  inj1 : Vector Inj 3
  /-- `INJ2`: where the three rotated copies of T2 go. -/
  inj2 : Vector Inj 3
  /-- `REGROT`: cyclic rotation of the round register after each step, legal in 1..7. -/
  regRot : Fin 8
  /-- `CTR_SLOT[0]`: where counter word 0 is XORed. -/
  ctrSlot0 : Fin 8
  /-- `CTR_SLOT[1]`: where counter word 1 is XORed. -/
  ctrSlot1 : Fin 8
  /-- `FIN_CTR[0]`. -/
  finCtr0 : BitVec w
  /-- `FIN_CTR[1]`. -/
  finCtr1 : BitVec w
  /-- `MDS`: the k × k matrix over GF(2^8), k = w/8, row j holding M[j][0..k). -/
  mds : Vector (Vector Byte (w / 8)) (w / 8)
  /-- `FF2_BASE`. -/
  ff2Base : FF2Base
  deriving DecidableEq, Repr, Inhabited

/-- One rule of the platform's admission predicate (20_memory.md R72 leaves the predicate OPEN). Lists of these express
every predicate on 64-bit addresses and lengths (`exact` names one pair), as plain data. DESIGN CHOICE (log 4), safe. -/
inductive AdmitRule where
  /-- Every range that lies inside [base, base + size). -/
  | region (base size : Nat)
  /-- The one range [addr, addr + len). -/
  | exact (addr len : Nat)
  deriving DecidableEq, Repr, Inhabited

/-- What is fixed at launch (70_reset_and_hazards.md R373: "launch parameters, not engine state") and by the hardware's
ROM (10_state.md R56). No command, register access or reset writes any of it. -/
structure Launch where
  /-- `CORECFG[32]`. -/
  cfg32 : CoreCfg 32
  /-- `CORECFG[64]`. -/
  cfg64 : CoreCfg 64
  /-- `P_REG_BASE`: the base of the register window. -/
  regBase : Addr
  /-- `P_MEM_ADMITS`, as the list of the platform's rules. -/
  admits : List AdmitRule
  deriving DecidableEq, Repr, Inhabited

/-- FREE VALUE: bits the spec leaves unspecified, one unknown for each draw and each slot of it. -/
opaque Config.freeBits (draw slot w : Nat) : BitVec w

/-- FREE VALUE: a number the spec leaves unspecified. -/
opaque Config.freeNat (draw slot : Nat) : Nat

end Sys2Proof
end

