-- ==== Sys2Proof/Machine/Codec.lean ====
section
/-! DEFINITION. Widths, word rotation, the WordCodec in both byte orders (41_word_codec.md R170 to R177) and the
message-length arithmetic that rests on it (43_length_counter.md R240 to R245). -/

namespace Sys2Proof.Machine

/-- wb = w/8, the word width in bytes (00_scope.md R10). -/
def wordBytes (w : Nat) : Nat := w / 8

/-- B, the block size in bytes: N = B/wb = 16 message words in both classes (R10), so 64 for w = 32, 128 for w = 64. -/
def blockBytes (w : Nat) : Nat := 16 * wordBytes w

/-- `rotl_w(x, s)`: left rotation, for 0 ≤ s < w (00_scope.md R17). -/
def rotl {w : Nat} (x : BitVec w) (s : Nat) : BitVec w := (x <<< s) ||| (x >>> (w - s))

/-- `BE_w(bs)`: bs[0] is the most significant byte (41_word_codec.md R170). The shifted bytes do not overlap, so their
sum is their bitwise or. -/
def BE (w : Nat) (bs : List Byte) : BitVec w :=
  (List.range (wordBytes w)).foldl
    (fun acc i => acc ||| ((bs.getD i 0).setWidth w <<< (8 * (wordBytes w - 1 - i)))) 0

/-- `LE_w(bs)`: bs[0] is the least significant byte (R171). -/
def LE (w : Nat) (bs : List Byte) : BitVec w :=
  (List.range (wordBytes w)).foldl (fun acc i => acc ||| ((bs.getD i 0).setWidth w <<< (8 * i))) 0

/-- Byte position i of a word, counted from the most significant: `v[w-1-8i : w-8-8i]`
(41_word_codec.md R172, 40_constant_tables.md R148). -/
def byteAt {w : Nat} (v : BitVec w) (i : Nat) : Byte := v.extractLsb' (w - 8 - 8 * i) 8

/-- `toBE_w(v)`: the wb bytes of v, most significant first (R172). -/
def toBE {w : Nat} (v : BitVec w) : List Byte := (List.range (wordBytes w)).map (byteAt v)

/-- `toLE_w(v)`: the wb bytes of v, least significant first; byte i is `v[8i+7 : 8i]` (R173). -/
def toLE {w : Nat} (v : BitVec w) : List Byte :=
  (List.range (wordBytes w)).map fun i => v.extractLsb' (8 * i) 8

/-- `BEseq_w(bs)`: word i is `BE_w(bs[i*wb .. (i+1)*wb))` (R176). -/
def BEseq (w : Nat) (bs : List Byte) : List (BitVec w) :=
  (List.range (bs.length / wordBytes w)).map fun i =>
    BE w ((bs.drop (i * wordBytes w)).take (wordBytes w))

/-- `toBEseq_w(vs)`: the concatenation of the words' bytes (R176). -/
def toBEseq {w : Nat} (vs : List (BitVec w)) : List Byte := vs.flatMap toBE

/-- `trunc(bs, m)`: the first m bytes (R177). -/
def trunc (bs : List Byte) (m : Nat) : List Byte := bs.take m

/-- ceil(a/8), the bytes that hold a bits (00_scope.md R15). -/
def bytesForBits (a : Nat) : Nat := (a + 7) / 8

/-- `lenAdd(T, L)`: `(T + L) mod 2^128` (43_length_counter.md R240). It wraps silently (R243). -/
def lenAdd (T : BitVec 128) (L : BitVec 64) : BitVec 128 := T + L.setWidth 128

/-- `lenField(T)`: the 16 bytes `toBE_128(T)` (R245). -/
def lenField (T : BitVec 128) : List Byte := toBE T

/-- The words of T, word 0 the least significant: 4 words in W32, 2 words in W64 (R241). -/
def lenWords (w : Nat) (T : BitVec 128) : List Nat :=
  (List.range (128 / w)).map fun k => (T.toNat >>> (w * k)) % 2 ^ w

/-- The carry chain of R242 from word k on: each word gets its part of L and the carry of the word below; the carry out
of the last word is dropped. -/
def lenCarryFrom (w L : Nat) : Nat → Nat → List Nat → List Nat
  | _, _, [] => []
  | k, carry, t :: ts =>
    let s := t + (L >>> (w * k)) % 2 ^ w + carry
    (s % 2 ^ w) :: lenCarryFrom w L (k + 1) (s >>> w) ts

/-- `lenAdd_words(Tw, L)` (R242): the word-by-word implementation the spec allows for `lenAdd`. -/
def lenAddWords (w : Nat) (Tw : List Nat) (L : BitVec 64) : List Nat := lenCarryFrom w L.toNat 0 0 Tw

end Sys2Proof.Machine
end

