-- ==== Sys2Proof/Machine/Galois.lean ====
section
/-! DEFINITION. ConstantTables: GF(2^8), the S-box, the MDS lookup tables and the function G
(40_constant_tables.md R140 to R152). All are pure functions of no state: the ROM of 10_state.md R56. -/

namespace Sys2Proof.Machine

/-- One doubling of the loop of R141: `a << 1`, then `^ 0x11B` if bit 8 is set. In 8 bits, bit 7 of `a` is the bit
that would reach bit 8, and 0x11B without bit 8 is 0x1B. -/
def xtime (a : Byte) : Byte := if a.msb then (a <<< 1) ^^^ 0x1B else a <<< 1

/-- The loop of R141, `n` rounds still to go. -/
def gmulLoop : Nat → Byte → Byte → Byte → Byte
  | 0, _, _, r => r
  | n + 1, a, b, r => gmulLoop n (xtime a) (b >>> 1) (if b.getLsbD 0 then r ^^^ a else r)

/-- `gmul(a, b)`: multiplication in GF(2^8) modulo 0x11B (R141). -/
def gmul (a b : Byte) : Byte := gmulLoop 8 a b 0

/-- `ginv(a)`: 0 for 0, else the unique byte whose product with `a` is 1 (R142), found by looking through all bytes. -/
def ginv (a : Byte) : Byte :=
  if a = 0 then 0
  else (((List.range 256).map (BitVec.ofNat 8)).find? fun b => gmul a b = 1).getD 0

/-- `EXP[i] = g^i` with the generator g = 0x03 (R142). -/
def gexp : Nat → Byte
  | 0 => 1
  | n + 1 => gmul 0x03 (gexp n)

/-- `LOG[a]`: the i < 255 with EXP[i] = a (R142). -/
def glog (a : Byte) : Nat := ((List.range 255).find? fun i => gexp i = a).getD 0

/-- The source's "log/antilog tables" form of the inverse: `EXP[(255 - LOG[a]) mod 255]`, and 0 for 0 (R142). -/
def ginvTables (a : Byte) : Byte := if a = 0 then 0 else gexp ((255 - glog a) % 255)

/-- The affine step of R143 on s = ginv(b). -/
def affine (s : Byte) : Byte := s ^^^ rotl s 1 ^^^ rotl s 2 ^^^ rotl s 3 ^^^ rotl s 4 ^^^ 0x63

/-- `SBOX(b)` as R143 computes it. -/
def sboxFormula (b : Byte) : Byte := affine (ginv b)

/-- The S-box ROM, row by row (R144): the row is the high nibble of b, the column its low nibble. -/
def sboxRom : List (List Byte) :=
  [[0x63, 0x7c, 0x77, 0x7b, 0xf2, 0x6b, 0x6f, 0xc5, 0x30, 0x01, 0x67, 0x2b, 0xfe, 0xd7, 0xab, 0x76],
   [0xca, 0x82, 0xc9, 0x7d, 0xfa, 0x59, 0x47, 0xf0, 0xad, 0xd4, 0xa2, 0xaf, 0x9c, 0xa4, 0x72, 0xc0],
   [0xb7, 0xfd, 0x93, 0x26, 0x36, 0x3f, 0xf7, 0xcc, 0x34, 0xa5, 0xe5, 0xf1, 0x71, 0xd8, 0x31, 0x15],
   [0x04, 0xc7, 0x23, 0xc3, 0x18, 0x96, 0x05, 0x9a, 0x07, 0x12, 0x80, 0xe2, 0xeb, 0x27, 0xb2, 0x75]] ++
  [[0x09, 0x83, 0x2c, 0x1a, 0x1b, 0x6e, 0x5a, 0xa0, 0x52, 0x3b, 0xd6, 0xb3, 0x29, 0xe3, 0x2f, 0x84],
   [0x53, 0xd1, 0x00, 0xed, 0x20, 0xfc, 0xb1, 0x5b, 0x6a, 0xcb, 0xbe, 0x39, 0x4a, 0x4c, 0x58, 0xcf],
   [0xd0, 0xef, 0xaa, 0xfb, 0x43, 0x4d, 0x33, 0x85, 0x45, 0xf9, 0x02, 0x7f, 0x50, 0x3c, 0x9f, 0xa8],
   [0x51, 0xa3, 0x40, 0x8f, 0x92, 0x9d, 0x38, 0xf5, 0xbc, 0xb6, 0xda, 0x21, 0x10, 0xff, 0xf3, 0xd2]] ++
  [[0xcd, 0x0c, 0x13, 0xec, 0x5f, 0x97, 0x44, 0x17, 0xc4, 0xa7, 0x7e, 0x3d, 0x64, 0x5d, 0x19, 0x73],
   [0x60, 0x81, 0x4f, 0xdc, 0x22, 0x2a, 0x90, 0x88, 0x46, 0xee, 0xb8, 0x14, 0xde, 0x5e, 0x0b, 0xdb],
   [0xe0, 0x32, 0x3a, 0x0a, 0x49, 0x06, 0x24, 0x5c, 0xc2, 0xd3, 0xac, 0x62, 0x91, 0x95, 0xe4, 0x79],
   [0xe7, 0xc8, 0x37, 0x6d, 0x8d, 0xd5, 0x4e, 0xa9, 0x6c, 0x56, 0xf4, 0xea, 0x65, 0x7a, 0xae, 0x08]] ++
  [[0xba, 0x78, 0x25, 0x2e, 0x1c, 0xa6, 0xb4, 0xc6, 0xe8, 0xdd, 0x74, 0x1f, 0x4b, 0xbd, 0x8b, 0x8a],
   [0x70, 0x3e, 0xb5, 0x66, 0x48, 0x03, 0xf6, 0x0e, 0x61, 0x35, 0x57, 0xb9, 0x86, 0xc1, 0x1d, 0x9e],
   [0xe1, 0xf8, 0x98, 0x11, 0x69, 0xd9, 0x8e, 0x94, 0x9b, 0x1e, 0x87, 0xe9, 0xce, 0x55, 0x28, 0xdf],
   [0x8c, 0xa1, 0x89, 0x0d, 0xbf, 0xe6, 0x42, 0x68, 0x41, 0x99, 0x2d, 0x0f, 0xb0, 0x54, 0xbb, 0x16]]

/-- `SBOX(b)`: the ROM entry (R140, R144). -/
def SBOX (b : Byte) : Byte := (sboxRom.getD (b.toNat / 16) []).getD (b.toNat % 16) 0

/-- `M[j][i]`: the entry for output byte j and input byte i (R146). -/
def mdsEntry {w : Nat} (cfg : CoreCfg w) (j i : Nat) : Byte :=
  ((cfg.mds.toList.map Vector.toList).getD j []).getD i 0

/-- `mdsk[i][b]` (mds4 for w = 32, mds8 for w = 64): byte j, counted from the most significant, is M[j][i]·SBOX(b)
(R147). -/
def mdsTable {w : Nat} (cfg : CoreCfg w) (i : Nat) (b : Byte) : BitVec w :=
  BE w ((List.range (wordBytes w)).map fun j => gmul (mdsEntry cfg j i) (SBOX b))

/-- `G_w(x)`: the XOR of the k table lookups of x's bytes (R150). -/
def G {w : Nat} (cfg : CoreCfg w) (x : BitVec w) : BitVec w :=
  (List.range (wordBytes w)).foldl (fun acc i => acc ^^^ mdsTable cfg i (byteAt x i)) 0

/-- The diffusion of R149 on bytes: y = M·s over GF(2^8), packed big-endian. -/
def diffuse {w : Nat} (cfg : CoreCfg w) (s : List Byte) : BitVec w :=
  BE w ((List.range (wordBytes w)).map fun j =>
    (List.range (wordBytes w)).foldl (fun acc i => acc ^^^ gmul (mdsEntry cfg j i) (s.getD i 0)) 0)

/-- The matrix form of G (R151): the diffusion of SBOX applied to each byte. -/
def GMatrix {w : Nat} (cfg : CoreCfg w) (x : BitVec w) : BitVec w :=
  diffuse cfg ((toBE x).map SBOX)

end Sys2Proof.Machine
end

