-- ==== Sys2Proof/Machine/CfgCheck.lean ====
section
/-! DEFINITION. When a configuration record is well-formed: the legal-values column of 00_scope.md R12
(42_compression_core.md R210), with the MDS property of 40_constant_tables.md R146. -/

namespace Sys2Proof.Machine

/-- The determinant over GF(2^8) of the submatrix of M with the given rows and columns, by expansion along the first
row; in characteristic 2 all signs are +. -/
def minor {w : Nat} (cfg : CoreCfg w) : List Nat → List Nat → Byte
  | [], _ => 1
  | r :: rows, cols =>
    cols.foldl (fun acc c => acc ^^^ gmul (minor cfg rows (cols.erase c)) (mdsEntry cfg r c)) 0

/-- All sublists of a list, in order. -/
def sublistsOf : List Nat → List (List Nat)
  | [] => [[]]
  | x :: xs => sublistsOf xs ++ (sublistsOf xs).map (x :: ·)

/-- The MDS property: every square submatrix of M is nonsingular over GF(2^8) (R146), modulus 0x11B. DEDUCED
(log 6), safe. -/
def CoreCfg.mdsOk {w : Nat} (cfg : CoreCfg w) : Bool :=
  let idx := sublistsOf (List.range (wordBytes w))
  idx.all fun rows => idx.all fun cols => rows.length != cols.length || minor cfg rows cols != 0

/-- The slots of one injection list are pairwise distinct and avoid the slot that was diffused; its rotations are
below w (R12). -/
def injOk (w : Nat) (avoid : Fin 8) (inj : Vector Inj 3) : Bool :=
  inj[0].slot != inj[1].slot && inj[0].slot != inj[2].slot && inj[1].slot != inj[2].slot &&
  inj.toList.all fun p => p.slot != avoid && p.rot < w

/-- Every row of R12's table but MDS. -/
def CoreCfg.fieldsOk {w : Nat} (cfg : CoreCfg w) : Bool :=
  cfg.schedRot.toList.all (· < w) && cfg.sa.val < 4 && 4 ≤ cfg.se.val &&
  injOk w cfg.sa cfg.inj1 && injOk w cfg.se cfg.inj2 && cfg.regRot != 0 && cfg.ctrSlot0 != cfg.ctrSlot1

/-- A configuration is well-formed when every field satisfies the legal-values column of R12 (R210). -/
def CoreCfg.wf {w : Nat} (cfg : CoreCfg w) : Bool := CoreCfg.fieldsOk cfg && CoreCfg.mdsOk cfg

/-- Both configuration records are well-formed (70_reset_and_hazards.md R382 (c)). -/
def Launch.wf (l : Launch) : Bool := CoreCfg.wf l.cfg32 && CoreCfg.wf l.cfg64

end Sys2Proof.Machine
end

