-- ==== Sys2Proof/Machine/Compression.lean ====
section
/-! DEFINITION. CompressionCore: message schedule, counter injection, the 40-step round network and the two
feed-forwards (42_compression_core.md R190 to R212). Pure functions of the configuration record, the chaining value, the
block and the counter. -/

namespace Sys2Proof.Machine

/-- Eight words from a function of the word's index. -/
def Words.tabulate {w : Nat} (f : Fin 8 → BitVec w) : Words w :=
  #v[f 0, f 1, f 2, f 3, f 4, f 5, f 6, f 7]

/-- XOR of two 8-word registers, word by word. -/
def Words.xor {w : Nat} (a b : Words w) : Words w := Words.tabulate fun i => a[i] ^^^ b[i]

/-- `R[i] <- R[i] ^ v`. -/
def Words.xorAt {w : Nat} (a : Words w) (i : Fin 8) (v : BitVec w) : Words w := a.set i (a[i] ^^^ v)

/-- `rot8(R, m)`: word i moves to position i + m modulo 8 (R203). -/
def rot8 {w : Nat} (a : Words w) (m : Fin 8) : Words w := Words.tabulate fun i => a[i - m]

/-- `W[16+j]` from the 16 message words `m` (R193). -/
def expandWord {w : Nat} (cfg : CoreCfg w) (m : List (BitVec w)) (j : Fin 16) : BitVec w :=
  let s := cfg.schedSrc[j]
  rotl (m.getD s.a 0 ^^^ m.getD s.b 0 ^^^ m.getD s.c 0 ^^^ m.getD s.d 0 ^^^ cfg.k[j]) cfg.schedRot[j]

/-- The 32 schedule words: the 16 message words of the block (R192), then the 16 expanded words (R193). -/
def schedule {w : Nat} (cfg : CoreCfg w) (block : List Byte) : List (BitVec w) :=
  let m := BEseq w block
  m ++ (List.range 16).map fun j => expandWord cfg m (Fin.ofNat 16 j)

/-- Counter word 0, `c mod 2^w` (R195). -/
def ctrWord0 {w : Nat} (c : BitVec (2 * w)) : BitVec w := c.setWidth w

/-- Counter word 1, `(c >> w) mod 2^w` (R195). -/
def ctrWord1 {w : Nat} (c : BitVec (2 * w)) : BitVec w := (c >>> w).setWidth w

/-- The counter-mutated state S0 (R196). -/
def injectCtr {w : Nat} (cfg : CoreCfg w) (cv : Words w) (c : BitVec (2 * w)) : Words w :=
  Words.xorAt (Words.xorAt cv cfg.ctrSlot0 (ctrWord0 c)) cfg.ctrSlot1 (ctrWord1 c)

/-- Step, part 1: the two schedule words of step t go into slots SA and SE (R198, R199). -/
def stepXor {w : Nat} (cfg : CoreCfg w) (W : List (BitVec w)) (t : Fin 40) (R : Words w) : Words w :=
  Words.xorAt (Words.xorAt R cfg.sa (W.getD (cfg.sigma[2 * t.val]) 0)) cfg.se
    (W.getD (cfg.sigma[2 * t.val + 1]) 0)

/-- Step, part 3, for one k: the rotated copies of T1 and T2 go into their slots (R201). -/
def injectPair {w : Nat} (T1 T2 : BitVec w) (R : Words w) (p : Inj × Inj) : Words w :=
  Words.xorAt (Words.xorAt R p.1.slot (rotl T1 p.1.rot)) p.2.slot (rotl T2 p.2.rot)

/-- Step, parts 2 and 3: T1 and T2 are computed from the register before any injection (R200), then injected for
k = 0, 1, 2 (R201). -/
def stepInject {w : Nat} (cfg : CoreCfg w) (R : Words w) : Words w :=
  (cfg.inj1.toList.zip cfg.inj2.toList).foldl (injectPair (G cfg R[cfg.sa]) (G cfg R[cfg.se])) R

/-- `step(R, t)`: parts 1 to 4 (R202). -/
def roundStep {w : Nat} (cfg : CoreCfg w) (W : List (BitVec w)) (t : Fin 40) (R : Words w) : Words w :=
  rot8 (stepInject cfg (stepXor cfg W t R)) cfg.regRot

/-- Step t with the first feed-forward before it when t = 20 (R204, R206). -/
def networkStep {w : Nat} (cfg : CoreCfg w) (W : List (BitVec w)) (S0 R : Words w) (t : Nat) : Words w :=
  roundStep cfg W (Fin.ofNat 40 t) (if t = 20 then Words.xor R S0 else R)

/-- The round network: 40 steps from R = S0 (R197, R202, R206). -/
def network {w : Nat} (cfg : CoreCfg w) (W : List (BitVec w)) (S0 : Words w) : Words w :=
  (List.range 40).foldl (networkStep cfg W S0) S0

/-- BASE of the second feed-forward (R205). -/
def ff2 {w : Nat} (cfg : CoreCfg w) (S0 cv : Words w) : Words w :=
  match cfg.ff2Base with
  | .mutated => S0
  | .original => cv

/-- `CF(cv, block, c)`: one compression (R206). -/
def CF {w : Nat} (cfg : CoreCfg w) (cv : Words w) (block : List Byte) (c : BitVec (2 * w)) : Words w :=
  let S0 := injectCtr cfg cv c
  Words.xor (ff2 cfg S0 cv) (network cfg (schedule cfg block) S0)

/-- The counter's increment word by word, with the carry from word 0 into word 1 (R208), as the pair of words. -/
def ctrIncWords {w : Nat} (c0 c1 : BitVec w) : BitVec w × BitVec w :=
  (c0 + 1, if c0 + 1 = 0 then c1 + 1 else c1)

end Sys2Proof.Machine
end

