-- ==== Sys2Proof/Laws/Mds.lean ====
section
/-! SUPPORT. A check of the MDS property of an 8 x 8 matrix that the kernel can evaluate, and its soundness: all minors of
a list of rows stand in one number of 256 byte lanes, one lane for each set of columns, and a row is added to all of them
at once. -/

namespace Sys2Proof.Machine.Mds

/-- Byte `m` of a packed number. -/
def lane (m v : Nat) : Byte := BitVec.ofNat 8 (v >>> (8 * m))

/-- 0x01 and 0x7F in each of 256 lanes. -/
def ones : Nat := (2 ^ 2048 - 1) / 255

def lows : Nat := ones * 0x7F

/-- 0xFF in the lanes whose number has bit `c` clear. -/
def clearLanes (c : Nat) : Nat := (2 ^ (8 * 2 ^ c) - 1) * ((2 ^ 2048 - 1) / (2 ^ (16 * 2 ^ c) - 1))

/-- The lanes of the three constants. -/
theorem lane_ones : ∀ m : Fin 256, lane m ones = 1 := by decide +kernel

theorem lane_lows : ∀ m : Fin 256, lane m lows = 0x7F := by decide +kernel

theorem lane_clear : ∀ c : Fin 8, ∀ m : Fin 256, lane m (clearLanes c) = if m.val.testBit c then 0 else 0xFF := by decide +kernel

theorem lane_xor (m x y : Nat) : lane m (x ^^^ y) = lane m x ^^^ lane m y := by
  simp [lane, Nat.shiftRight_xor_distrib, BitVec.ofNat_xor]

theorem lane_and (m x y : Nat) : lane m (x &&& y) = lane m x &&& lane m y := by
  simp [lane, Nat.shiftRight_and_distrib, BitVec.ofNat_and]

/-- Bit j of lane m is bit 8m + j of the packed number. -/
theorem lane_bit (m v j : Nat) (hj : j < 8) : (lane m v).getLsbD j = v.testBit (8 * m + j) := by
  rw [lane, BitVec.getLsbD_ofNat, Nat.testBit_shiftRight]; simp [hj]

/-- `xtime` in every lane. -/
def xtimes (v : Nat) : Nat :=
  let t := (v >>> 7) &&& ones
  ((v &&& lows) <<< 1) ^^^ t ^^^ (t <<< 1) ^^^ (t <<< 3) ^^^ (t <<< 4)

theorem ones_bit (m j : Nat) (hm : m < 256) (hj : j < 8) : ones.testBit (8 * m + j) = decide (j = 0) := by
  rw [← lane_bit m _ j hj, lane_ones ⟨m, hm⟩]
  revert j; decide

theorem lows_bit (m j : Nat) (hm : m < 256) (hj : j < 8) : lows.testBit (8 * m + j) = decide (j ≠ 7) := by
  rw [← lane_bit m _ j hj, lane_lows ⟨m, hm⟩]
  revert j; decide

/-- A shifted number's bit inside a lane. -/
theorem top_bit (m v k j : Nat) (hm : m < 256) (hj : j < 8) (hk : k < 8) :
    (((v >>> 7) &&& ones) <<< k).testBit (8 * m + j) = (decide (j = k) && v.testBit (8 * m + 7)) := by
  rw [Nat.testBit_shiftLeft]
  by_cases h : k ≤ j
  · have e : 8 * m + j - k = 8 * m + (j - k) := by omega
    rw [e, Nat.testBit_and, ones_bit m _ hm (by omega), Nat.testBit_shiftRight]
    by_cases h2 : j = k
    · subst h2; simp [Nat.add_comm]
    · have : j - k ≠ 0 := by omega
      simp [h2, this]
  · by_cases h0 : m = 0
    · have : j ≠ k := by omega
      subst h0; simp [*]
    · have e : 8 * m + j - k = 8 * (m - 1) + (8 + j - k) := by omega
      rw [e, Nat.testBit_and, ones_bit (m - 1) _ (by omega) (by omega)]
      have : 8 + j - k ≠ 0 := by omega
      have : j ≠ k := by omega
      simp [*]

/-- The low seven bits of each lane, shifted up, inside a lane. -/
theorem low_bit (m v j : Nat) (hm : m < 256) (hj : j < 8) :
    ((v &&& lows) <<< 1).testBit (8 * m + j) = (decide (1 ≤ j) && v.testBit (8 * m + j - 1)) := by
  rw [Nat.testBit_shiftLeft]
  by_cases h : 1 ≤ j
  · have e : 8 * m + j - 1 = 8 * m + (j - 1) := by omega
    rw [e, Nat.testBit_and, lows_bit m _ hm (by omega)]
    have : j - 1 ≠ 7 := by omega
    have : 1 ≤ 8 * m + j := by omega
    simp [*]
  · by_cases h0 : m = 0
    · subst h0; simp [h]; 
    · have e : 8 * m + j - 1 = 8 * (m - 1) + 7 := by omega
      rw [e, Nat.testBit_and, lows_bit (m - 1) _ (by omega) (by omega)]
      simp [h]

/-- `xtimes` is `xtime` in every lane. -/
theorem lane_xtimes (m v : Nat) (hm : m < 256) : lane m (xtimes v) = xtime (lane m v) := by
  apply BitVec.eq_of_getLsbD_eq
  intro j hj
  have h7 : (lane m v).msb = v.testBit (8 * m + 7) := by
    rw [BitVec.msb_eq_getLsbD_last]; exact lane_bit m v 7 (by omega)
  have t0 := top_bit m v 0 j hm hj (by omega)
  rw [Nat.shiftLeft_zero] at t0
  rw [lane_bit m _ j hj]
  simp only [xtimes, Nat.testBit_xor, low_bit m v j hm hj, top_bit m v _ j hm hj (show 1 < 8 by omega),
    top_bit m v _ j hm hj (show 3 < 8 by omega), top_bit m v _ j hm hj (show 4 < 8 by omega), t0, xtime, h7]
  have e : 1 ≤ j → (lane m v).getLsbD (j - 1) = v.testBit (8 * m + j - 1) := fun h => by
    rw [lane_bit m v (j - 1) (by omega)]; congr 1; omega
  have sh : (lane m v <<< 1).getLsbD j = (decide (1 ≤ j) && v.testBit (8 * m + j - 1)) := by
    rw [BitVec.getLsbD_shiftLeft]
    by_cases h : 1 ≤ j
    · simp [h, e h, hj]; omega
    · simp [h]; omega
  have k : (0x1B : Byte).getLsbD j = (decide (j = 0) ^^ decide (j = 1) ^^ decide (j = 3) ^^ decide (j = 4)) := by
    clear t0 e sh; revert j; decide
  by_cases h : v.testBit (8 * m + 7) = true
  · simp only [h, Bool.and_true, if_true, BitVec.getLsbD_xor, sh, k]
    simp only [Bool.xor_assoc]
  · rw [Bool.not_eq_true] at h
    simp only [h, Bool.and_false, Bool.false_eq_true, if_false, sh, Bool.xor_false]

/-! ## Scaling every lane -/
/-- `gmulLoop` in every lane, the multiplier given as a number; it stops when no bit of the multiplier is left. -/
def scaleLoop : Nat → Nat → Nat → Nat → Nat
  | 0, _, _, r => r
  | n + 1, v, b, r => if b = 0 then r else scaleLoop n (xtimes v) (b / 2) (if b % 2 = 1 then r ^^^ v else r)

theorem gmulLoop_zero (n : Nat) (a r : Byte) : gmulLoop n a 0 r = r := by
  induction n generalizing a r with
  | zero => rfl
  | succ n ih => exact ih _ _

/-- `scaleLoop` is `gmulLoop` in every lane. -/
theorem lane_scaleLoop (m : Nat) (hm : m < 256) (n v b r : Nat) (hb : b < 256) :
    lane m (scaleLoop n v b r) = gmulLoop n (lane m v) (BitVec.ofNat 8 b) (lane m r) := by
  induction n generalizing v b r with
  | zero => rfl
  | succ n ih =>
    by_cases h0 : b = 0
    · subst h0; rw [scaleLoop, if_pos rfl]; exact (gmulLoop_zero _ _ _).symm
    · have e : BitVec.ofNat 8 b >>> 1 = BitVec.ofNat 8 (b / 2) := by
        apply BitVec.eq_of_toNat_eq
        simp [Nat.shiftRight_eq_div_pow, Nat.mod_eq_of_lt hb, Nat.mod_eq_of_lt (show b / 2 < 256 by omega)]
      have e0 : (BitVec.ofNat 8 b).getLsbD 0 = decide (b % 2 = 1) := by
        rw [BitVec.getLsbD_ofNat, Nat.testBit_zero]; rfl
      rw [scaleLoop, if_neg h0, ih _ _ _ (by omega), gmulLoop, lane_xtimes m v hm, e, e0]
      by_cases h1 : b % 2 = 1 <;> simp [h1, lane_xor]

/-- One more row: the minor on a column set is the sum, over its columns, of the row's entry times the minor on the
set without that column. -/
def wedge (row : List Nat) (t : Nat) : Nat :=
  (List.range 8).foldl (fun acc c => acc ^^^ ((scaleLoop 8 t (row.getD c 0) 0 &&& clearLanes c) <<< (8 * 2 ^ c))) 0

/-- The minors of a list of rows, lane m holding the one on the columns whose bits m has. -/
def packed (tbl : List (List Nat)) : List Nat → Nat
  | [] => 1
  | r :: rows => wedge (tbl.getD r []) (packed tbl rows)

/-- The columns whose bits `m` has. -/
def colsOf (m : Nat) : List Nat := (List.range 8).filter (m.testBit ·)

/-- Taking a column out of a set is taking its bit out of the number. -/
theorem colsOf_facts : ∀ m : Fin 256, ∀ c : Fin 8, if m.val.testBit c then
    2 ^ c.val ≤ m.val ∧ (m.val - 2 ^ c.val).testBit c = false ∧ (colsOf m).erase c = colsOf (m.val - 2 ^ c.val)
    else 2 ^ c.val ≤ m.val → (m.val - 2 ^ c.val).testBit c = true := by decide +kernel

/-- 0x01 in the lanes of the sets of k of the first n columns. -/
def sizeLanes : Nat → Nat → Nat
  | 0, 0 => 1
  | 0, _ + 1 => 0
  | n + 1, 0 => sizeLanes n 0
  | n + 1, k + 1 => sizeLanes n (k + 1) ||| (sizeLanes n k <<< (8 * 2 ^ n))

theorem lane_sizeLanes : ∀ m : Fin 256, lane m (sizeLanes 8 (colsOf m).length) = 1 := by decide +kernel

/-- The number whose bits are the given columns. -/
def maskOf (l : List Nat) : Nat := l.foldl (fun m c => m + 2 ^ c) 0

/-- Every list of columns is `colsOf` of its number. -/
theorem sublists_are_masks : (sublistsOf (List.range 8)).all
    (fun l => decide (maskOf l < 256) && colsOf (maskOf l) == l) = true := by decide +kernel

/-- Bit 0 of each lane is set when the lane is not 0. -/
def nonzeroLanes (t : Nat) : Nat :=
  (List.range 8).foldl (fun acc i => acc ||| ((t >>> i) &&& ones)) 0

/-- Every minor of the table is nonzero. -/
def allNonzero (tbl : List (List Nat)) : Bool :=
  (sublistsOf (List.range 8)).all fun rows =>
    (nonzeroLanes (packed tbl rows) &&& sizeLanes 8 rows.length) == sizeLanes 8 rows.length

/-- A shift by whole lanes. -/
theorem lane_shift (m s v : Nat) : lane m (v <<< (8 * s)) = if s ≤ m then lane (m - s) v else 0 := by
  apply BitVec.eq_of_getLsbD_eq
  intro j hj
  rw [lane_bit _ _ j hj, Nat.testBit_shiftLeft]
  by_cases h : s ≤ m
  · rw [if_pos h, lane_bit _ _ j hj, show 8 * m + j - 8 * s = 8 * (m - s) + j by omega]
    simp only [Bool.and_eq_right_iff_imp, decide_eq_true_eq]; omega
  · rw [if_neg h, decide_eq_false (by omega)]; simp

theorem lane_foldl_xor (m : Nat) (f : Nat → Nat) (l : List Nat) (x : Nat) :
    lane m (l.foldl (fun acc c => acc ^^^ f c) x) = l.foldl (fun acc c => acc ^^^ lane m (f c)) (lane m x) := by
  induction l generalizing x with
  | nil => rfl
  | cons c l ih => rw [List.foldl_cons, ih, lane_xor, List.foldl_cons]

theorem foldl_same {f g : Byte → Nat → Byte} {l : List Nat} (h : ∀ c ∈ l, ∀ a, f a c = g a c) (x : Byte) :
    l.foldl f x = l.foldl g x := by
  induction l generalizing x with
  | nil => rfl
  | cons c l ih =>
    rw [List.foldl_cons, List.foldl_cons, h c (List.mem_cons_self ..)]
    exact ih (fun d hd => h d (List.mem_cons_of_mem _ hd)) _

/-- The lanes of the packed number are the minors. -/
theorem minor_eq_lane {w : Nat} (cfg : CoreCfg w) (tbl : List (List Nat))
    (ht : ∀ r < 8, ∀ c < 8, (tbl.getD r []).getD c 0 < 256 ∧
      mdsEntry cfg r c = BitVec.ofNat 8 ((tbl.getD r []).getD c 0)) :
    ∀ (rows : List Nat) (m : Nat), (∀ r ∈ rows, r < 8) → m < 256 → (colsOf m).length = rows.length →
      minor cfg rows (colsOf m) = lane m (packed tbl rows) := by
  intro rows
  induction rows with
  | nil =>
    intro m _ hm hl
    have : ∀ m : Fin 256, (colsOf m).length = 0 → lane m 1 = 1 := by decide +kernel
    exact (this ⟨m, hm⟩ hl).symm
  | cons r rows ih =>
    intro m hr hm hl
    have hr8 : r < 8 := hr r (List.mem_cons_self ..)
    rw [packed, wedge, lane_foldl_xor, minor, show lane m 0 = 0 by simp [lane]]
    conv => lhs; arg 3; rw [colsOf]
    rw [List.foldl_filter]
    refine foldl_same (fun c hc a => ?_) _
    have hc8 : c < 8 := by simpa using hc
    obtain ⟨hb, he⟩ := ht r hr8 c hc8
    have hf := colsOf_facts ⟨m, hm⟩ ⟨c, hc8⟩
    dsimp only at hf
    rw [lane_shift, lane_and]
    have hm' : m - 2 ^ c < 256 := Nat.lt_of_le_of_lt (Nat.sub_le _ _) hm
    by_cases hbit : m.testBit c = true
    · rw [if_pos hbit] at hf
      obtain ⟨hle, hclear, herase⟩ := hf
      have hlen : (colsOf (m - 2 ^ c)).length = rows.length := by
        have hmem : c ∈ colsOf m := by simp [colsOf, hc8, hbit]
        rw [← herase, List.length_erase_of_mem hmem, hl]; rfl
      have hk := lane_clear ⟨c, hc8⟩ ⟨m - 2 ^ c, hm'⟩
      dsimp only at hk
      rw [if_pos hbit, if_pos hle, hk, hclear, lane_scaleLoop _ hm' _ _ _ _ hb, herase,
        ih _ (fun x hx => hr x (List.mem_cons_of_mem _ hx)) hm' hlen, he]
      have : ∀ b : Byte, b &&& 0xFF = b := fun b => BitVec.and_allOnes (x := b)
      simp only [Bool.false_eq_true, if_false, this, show lane (m - 2 ^ c) 0 = 0 by simp [lane]]
      rfl
    · rw [if_neg hbit] at hf ⊢
      by_cases hle : 2 ^ c ≤ m
      · have hk := lane_clear ⟨c, hc8⟩ ⟨m - 2 ^ c, hm'⟩
        dsimp only at hk
        rw [if_pos hle, hk, hf hle]; simp
      · rw [if_neg hle]; simp

theorem lane_nonzeroLanes (m t : Nat) (hm : m < 256) (h : lane m t = 0) : lane m (nonzeroLanes t) = 0 := by
  have hz : ∀ i < 8, lane m ((t >>> i) &&& ones) = 0 := by
    intro i hi
    apply BitVec.eq_of_getLsbD_eq
    intro j hj
    rw [lane_bit _ _ j hj, Nat.testBit_and, ones_bit m j hm hj, Nat.testBit_shiftRight]
    by_cases h0 : j = 0
    · subst h0
      have := lane_bit m t i hi
      rw [h] at this
      simp [Nat.add_comm i, ← this]
    · simp [h0]
  have hor : ∀ x y, lane m (x ||| y) = lane m x ||| lane m y := fun x y => by
    simp [lane, Nat.shiftRight_or_distrib, BitVec.ofNat_or]
  have hz0 : lane m (t &&& ones) = 0 := hz 0 (by omega)
  simp [nonzeroLanes, List.range_succ, hor, hz, hz0]

/-- A matrix whose packed minors are all nonzero is MDS. -/
theorem mdsOk_of_allNonzero (cfg : CoreCfg 64) (tbl : List (List Nat))
    (ht : ∀ r < 8, ∀ c < 8, (tbl.getD r []).getD c 0 < 256 ∧
      mdsEntry cfg r c = BitVec.ofNat 8 ((tbl.getD r []).getD c 0))
    (h : allNonzero tbl = true) : CoreCfg.mdsOk cfg = true := by
  simp only [CoreCfg.mdsOk, List.all_eq_true, Bool.or_eq_true, bne_iff_ne, ne_eq]
  intro rows hrows cols hcols
  by_cases hlen : rows.length = cols.length
  · right
    have hsub : ∀ l ∈ sublistsOf (List.range 8), maskOf l < 256 ∧ colsOf (maskOf l) = l := by
      simpa using sublists_are_masks
    obtain ⟨hm, hcm⟩ := hsub cols hcols
    obtain ⟨_, hrm⟩ := hsub rows hrows
    have hr8 : ∀ r ∈ rows, r < 8 := by
      intro r hr; rw [← hrm] at hr; simp [colsOf] at hr; exact hr.1
    rw [← hcm, minor_eq_lane cfg tbl ht rows _ hr8 hm (by rw [hcm, hlen])]
    intro h0
    have hz := lane_nonzeroLanes _ _ hm h0
    have hall := (List.all_eq_true.1 h) rows hrows
    rw [beq_iff_eq] at hall
    have hs := lane_sizeLanes ⟨_, hm⟩
    dsimp only at hs
    rw [hcm, ← hlen, ← hall, lane_and, hz] at hs
    simp at hs
  · left; exact hlen

end Sys2Proof.Machine.Mds
end

