-- ==== Sys2Proof/Machine/Platform.lean ====
section
/-! DEFINITION. The launch of the machine that State.reset describes: an unknown well-formed one (00_scope.md R7, R13;
42_compression_core.md R210; 70_reset_and_hazards.md R373, R382 (c)), with the proof that there is one. -/

namespace Sys2Proof.Machine

/-- The k × k matrix whose row j is the given row shifted right by j places. -/
def circulant (k : Nat) (row : List Byte) : Vector (Vector Byte k) k :=
  Vector.ofFn fun j => Vector.ofFn fun i => row.getD ((i.val + k - j.val) % k) 0

/-- A configuration record with the given matrix, every other field as small as R12's table lets it be. -/
def plainCfg (w : Nat) (mds : Vector (Vector Byte (w / 8)) (w / 8)) : CoreCfg w where
  ivShort := Vector.replicate 8 0
  ivLong := Vector.replicate 8 0
  k := Vector.replicate 16 0
  schedSrc := Vector.replicate 16 ⟨0, 0, 0, 0⟩
  schedRot := Vector.replicate 16 0
  sigma := Vector.replicate 80 0
  sa := 0
  se := 4
  inj1 := #v[⟨1, 0⟩, ⟨2, 0⟩, ⟨3, 0⟩]
  inj2 := #v[⟨5, 0⟩, ⟨6, 0⟩, ⟨7, 0⟩]
  regRot := 1
  ctrSlot0 := 0
  ctrSlot1 := 1
  finCtr0 := 0
  finCtr1 := 0
  mds := mds
  ff2Base := .mutated

/-- The first row of a circulant 8 × 8 matrix that is MDS over GF(2^8) with modulus 0x11B. -/
def plainRow : List Nat := [1, 10, 6, 1, 3, 4, 3, 9]

/-- A well-formed launch, with no admitted range. It only shows that there is one: no state of the machine holds it. -/
def plainLaunch : Launch where
  cfg32 := plainCfg 32 (circulant 4 [2, 3, 1, 1])
  cfg64 := plainCfg 64 (circulant 8 (plainRow.map (BitVec.ofNat 8)))
  regBase := 0
  admits := []

theorem plainLaunch_wf : Launch.wf plainLaunch = true := by
  have h32 : CoreCfg.wf plainLaunch.cfg32 = true := by decide +kernel
  have hf : CoreCfg.fieldsOk plainLaunch.cfg64 = true := by decide +kernel
  have hm : CoreCfg.mdsOk plainLaunch.cfg64 = true :=
    Mds.mdsOk_of_allNonzero _
      ((List.range 8).map fun j => (List.range 8).map fun i => plainRow.getD ((i + 8 - j) % 8) 0)
      (by decide +kernel) (by decide +kernel)
  have h64 : CoreCfg.wf plainLaunch.cfg64 = true := by rw [CoreCfg.wf, hf, hm]; rfl
  rw [Launch.wf, h32, h64]; rfl

/-- A launch that R210 lets run. -/
structure WfLaunch where
  params : Launch := plainLaunch
  ok : Launch.wf params = true := by exact plainLaunch_wf
  deriving Inhabited

end Sys2Proof.Machine

namespace Sys2Proof

/-- The launch of the machine that `State.reset` describes: OPEN (R7, R13), so a constant with no body; all that is known
of it is that it is well-formed (R210). DESIGN CHOICE (log 3), safe. -/
opaque Config.launch : Machine.WfLaunch

end Sys2Proof
end

