-- ==== Sys2Proof/Machine/State.lean ====
section
/-! DEFINITION. The state of the machine: everything 10_state.md gives the engine, the host memory it acts on, the
host moves still to come and what the host has read. Plain data. -/

namespace Sys2Proof.Machine

/-! ## Digest lengths and width classes (00_scope.md R3, R10) -/

/-- The digest lengths of class W32. -/
inductive Len32 where
  | d224
  | d256
  deriving DecidableEq, Repr

/-- The digest lengths of class W64. -/
inductive Len64 where
  | d384
  | d512
  deriving DecidableEq, Repr

/-- The supported digest lengths, by width class (R3). -/
inductive DigestLen where
  | w32 (n : Len32)
  | w64 (n : Len64)
  deriving DecidableEq, Repr

/-! ## The digest context (10_state.md section 1) -/

/-- The data fields of a context of word width `w` (R32), under their spec names. -/
structure HashState (w : Nat) where
  /-- `workingVars`: the chaining value (R35). -/
  cv : Words w
  /-- `counter`: the block counter, 2 words of w bits as one number (R36). -/
  ctr : BitVec (2 * w)
  /-- `totalBitCount`: the 128-bit message length in bits (R37). -/
  T : BitVec 128
  /-- `blockBuffer`: 128 physical bytes, [0..B) in use (R38). -/
  buf : Buf
  /-- `bufferedByteCount`: whole message bytes held in buf[0..p) (R39). -/
  p : Nat
  /-- `remainderBitCount`: valid bits of a partial byte at buf[p] (R40). -/
  r : Nat
  deriving DecidableEq, Repr

/-- The written fields of a context: `n` is the constructor and its argument, `w` and `B` are functions of it
(R10, R34), the rest is the `HashState` of that width. -/
inductive Session where
  | w32 (n : Len32) (x : HashState 32)
  | w64 (n : Len64) (x : HashState 64)
  deriving DecidableEq, Repr

/-- A context: its status (R33) and, where INIT has written them, its other fields. R41: "A context field nothing has
written holds no value", and "a model should represent these fields as absent until INIT writes them". An ACCEPTING,
FINALIZED or UNSPECIFIED context has had an INIT; an INVALID one keeps "whatever they held" (R262). DEDUCED (log 7), safe. -/
inductive Context where
  | uninit
  | accepting (x : Session)
  | finalized (x : Session)
  | invalid (x : Option Session)
  | unspecified (x : Session)
  deriving DecidableEq, Repr

/-- `ctx.status`, and the values of STATUS.CTX (R33, R51). -/
inductive CtxStatus where
  | UNINIT
  | ACCEPTING
  | FINALIZED
  | INVALID
  | UNSPECIFIED
  deriving DecidableEq, Repr

/-! ## Host-visible registers (10_state.md section 3) -/

/-- `RESULT.CODE` (R50). -/
inductive ResultCode where
  | SUCCESS
  | FAIL
  | BAD_HASHBITLEN
  | NONE
  deriving DecidableEq, Repr

/-- `STATUS.CAUSE` (R51, 60_exceptions.md R334). Codes 5 to 7 never occur. -/
inductive Cause where
  | NONE
  | MEM_BOUNDS
  | ILLEGAL_CMD
  | USE_AFTER_FAIL
  | BAD_REG_ACCESS
  deriving DecidableEq, Repr

/-- The seven interface registers (R45). -/
inductive Reg where
  | CMD
  | SRC_ADDR
  | BIT_LEN
  | DST_ADDR
  | RESULT
  | STATUS
  | FAULT_INFO
  deriving DecidableEq, Repr

/-- How many bytes a host access to the register window moves. DESIGN CHOICE (log 13). -/
inductive AccessWidth where
  | b8
  | b16
  | b32
  | b64
  deriving DecidableEq, Repr

/-! ## The host's side -/

/-- One move of the host (70_reset_and_hazards.md R380; 30_encoding.md R109, R112). -/
inductive HostMove where
  /-- `WR off, v`: a write of the given width at an offset of the register window. -/
  | wr (off : Addr) (width : AccessWidth) (v : Nat)
  /-- `RD off`: a read of the given width at an offset of the register window. -/
  | rd (off : Addr) (width : AccessWidth)
  /-- The host stores one byte into its own memory between commands (20_memory.md R83 (a)). DEDUCED (log 11), safe. -/
  | store (addr : Addr) (b : Byte)
  /-- `reset()`, the platform's reset input (R370). -/
  | reset
  deriving DecidableEq, Repr

/-- What an `RD` returned: the offset read and the value, zero-extended to 64 bits; `none` where the read yields no
value (R54, R55). -/
structure ReadEntry where
  off : Addr
  value : Option (BitVec 64)
  deriving DecidableEq, Repr

/-- Host memory: (address, byte) pairs, addresses strictly rising, no entry equal to what an unlisted address reads as
(Machine/Ops.lean, `Memory.wf`). -/
abbrev Memory := List Host.Cell

/-- The machine's state. -/
structure State where
  /-- Launch parameters and ROM (R56, R373). -/
  launch : Launch
  /-- The persistent context `ctx` (R32). -/
  ctx : Context
  /-- The scratch context `hctx` (R42), absent until a HASH has created one. -/
  hctx : Option Context
  /-- `SRC_ADDR` (R47). -/
  srcAddr : BitVec 64
  /-- `BIT_LEN` (R48). -/
  bitLen : BitVec 64
  /-- `DST_ADDR` (R49). -/
  dstAddr : BitVec 64
  /-- `RESULT.CODE` (R50). -/
  result : ResultCode
  /-- `STATUS.FAULT` (R51). -/
  fault : Bool
  /-- `STATUS.CAUSE` (R51). -/
  cause : Cause
  /-- `STATUS.FAULT_OP` (R51). -/
  faultOp : BitVec 4
  /-- `FAULT_INFO` (R52). -/
  faultInfo : BitVec 64
  /-- Host memory (20_memory.md R70, R71). -/
  mem : Memory
  /-- The host moves still to come, the next one first (R379). The model's own field. -/
  pending : List HostMove
  /-- The values returned by every RD so far, the oldest first (R379). The model's own field. -/
  readLog : List ReadEntry
  /-- How many times a free value has been drawn. The model's own field. -/
  draws : Nat
  deriving DecidableEq, Repr

/-- Why the machine stops with a fault: nothing does. Every fault the spec names is a sticky record in STATUS that the
host reads (60_exceptions.md R334 to R340), so raising one is a next state. DEDUCED (log 14), safe. -/
inductive Fault where
  deriving DecidableEq, Repr

/-- Why a step has no meaning. -/
inductive Refusal where
  /-- Raised by an arm of `exec` for an instruction without a meaning; no arm does. Safe. -/
  | notModelled (mnemonic : String)
  /-- Raised by a register write whose value does not fit the register: "refused by the model, not truncated"
  (10_state.md R53). Safe. -/
  | valueTooWide
  /-- Raised by an access at an address inside a register that is not the register's offset (R55, 20_memory.md R78).
  Safe. -/
  | misalignedAccess
  /-- Raised by an access to a register at another width than the register's, a byte store of the host into a register
  among them: "not defined by the spec and is refused by the model" (R55, R78; 93_implementation_defined.md U17). Safe. -/
  | partialWidthAccess
  /-- Raised by `State.boot` for a configuration that is not well-formed (42_compression_core.md R210). Safe. -/
  | illFormedConfig
  deriving DecidableEq, Repr

/-- The machine right after reset (10_state.md R58): the context unwritten, the operand registers 0, RESULT NONE, STATUS
0, FAULT_INFO 0; host memory lists nothing; the launch parameters are the OPEN ones of the platform, of
which only their well-formedness is known (log 3, log 5). -/
def State.reset : State where
  launch := Config.launch.params
  ctx := .uninit
  hctx := none
  srcAddr := 0
  bitLen := 0
  dstAddr := 0
  result := .NONE
  fault := false
  cause := .NONE
  faultOp := 0
  faultInfo := 0
  mem := []
  pending := []
  readLog := []
  draws := 0

end Sys2Proof.Machine
end

