-- ==== Sys2Proof/Machine/Operands.lean ====
section
/-! DEFINITION. Operand assembly: the hashBitLen field and what depends on it alone (00_scope.md R3, R10;
30_encoding.md R103, R104; 44_engine_commands.md R262, R275), and the views of a session's fields (10_state.md R32). -/

namespace Sys2Proof.Machine

/-- The supported set is exactly 224, 256, 384 and 512 (R262). -/
def DigestLen.ofBits (h : Nat) : Option DigestLen :=
  if h = 224 then some (.w32 .d224)
  else if h = 256 then some (.w32 .d256)
  else if h = 384 then some (.w64 .d384)
  else if h = 512 then some (.w64 .d512)
  else none

/-- `ctx.n` as a number of bits (R32). -/
def DigestLen.bits : DigestLen → Nat
  | .w32 .d224 => 224
  | .w32 .d256 => 256
  | .w64 .d384 => 384
  | .w64 .d512 => 512

/-- `ctx.w` (R10). -/
def DigestLen.w : DigestLen → Nat
  | .w32 _ => 32
  | .w64 _ => 64

/-- `ctx.B` (R10). -/
def DigestLen.B (n : DigestLen) : Nat := blockBytes (DigestLen.w n)

/-- m = ceil(n/8), the digest's length in bytes (R275). -/
def DigestLen.bytes (n : DigestLen) : Nat := bytesForBits (DigestLen.bits n)

/-- `CORECFG[w].IV[n]` for n of class W32 (R12). -/
def iv32 (cfg : CoreCfg 32) : Len32 → Words 32
  | .d224 => cfg.ivShort
  | .d256 => cfg.ivLong

/-- `CORECFG[w].IV[n]` for n of class W64 (R12). -/
def iv64 (cfg : CoreCfg 64) : Len64 → Words 64
  | .d384 => cfg.ivShort
  | .d512 => cfg.ivLong

/-- nb = ceil(L/8), the bytes UPDATE and HASH read (20_memory.md R73). -/
def messageBytes (L : BitVec 64) : Nat := bytesForBits L.toNat

/-- `ctx.n`. -/
def Session.n : Session → DigestLen
  | .w32 n _ => .w32 n
  | .w64 n _ => .w64 n

/-- `ctx.T`. -/
def Session.T : Session → BitVec 128
  | .w32 _ x => x.T
  | .w64 _ x => x.T

/-- `ctx.buf`. -/
def Session.buf : Session → Buf
  | .w32 _ x => x.buf
  | .w64 _ x => x.buf

/-- `ctx.p`. -/
def Session.p : Session → Nat
  | .w32 _ x => x.p
  | .w64 _ x => x.p

/-- `ctx.r`. -/
def Session.r : Session → Nat
  | .w32 _ x => x.r
  | .w64 _ x => x.r

/-- `ctx.ctr` as a number. -/
def Session.ctr : Session → Nat
  | .w32 _ x => x.ctr.toNat
  | .w64 _ x => x.ctr.toNat

/-- `ctx.status` (R33). -/
def Context.status : Context → CtxStatus
  | .uninit => .UNINIT
  | .accepting _ => .ACCEPTING
  | .finalized _ => .FINALIZED
  | .invalid _ => .INVALID
  | .unspecified _ => .UNSPECIFIED

/-- The context's written fields, where it has any (R41). -/
def Context.session : Context → Option Session
  | .uninit => none
  | .accepting x => some x
  | .finalized x => some x
  | .invalid x => x
  | .unspecified x => some x

end Sys2Proof.Machine
end

