-- ==== Sys2Proof/Machine/Buffer.lean ====
section
/-! DEFINITION. The BlockBuffer and the digest of one context: absorbing message bytes, padding, the length field, the
finalization constants and the digest bytes (44_engine_commands.md R265 to R275), for a context of any word width and
for a session of either class. -/

namespace Sys2Proof.Machine

/-! ## The buffer -/

/-- `buf[at .. at+len(bs)) <- bs`. -/
def putBytes : Buf → Nat → List Byte → Buf
  | buf, _, [] => buf
  | buf, at_, b :: bs => putBytes (buf.setIfInBounds at_ b) (at_ + 1) bs

/-- `buf[from .. to) <- 0x00` (R271). -/
def zeroFill (buf : Buf) (start stop : Nat) : Buf := putBytes buf start (List.replicate (stop - start) 0)

/-- `x.buf[0 .. x.B)`: the block handed to the compression core. -/
def block {w : Nat} (x : HashState w) : List Byte := x.buf.toList.take (blockBytes w)

/-! ## INIT's values (R261) -/

/-- The context INIT leaves: the IV, counter, length and buffer zeroed, p = r = 0. Bytes [B..128) of the buffer are
unspecified (10_state.md R38): free values (log 2). -/
def initHash {w : Nat} (iv : Words w) (draw : Nat) : HashState w where
  cv := iv
  ctr := 0
  T := 0
  buf := zeroFill (Vector.ofFn fun i => Config.freeBits draw (12 + i) 8) 0 (blockBytes w)
  p := 0
  r := 0

/-! ## Compression and absorption -/

/-- `compress(x, block, c)`: the new chaining value, then the counter's increment modulo 2^(2w)
(42_compression_core.md R207). -/
def compress {w : Nat} (cfg : CoreCfg w) (x : HashState w) (blk : List Byte) (c : BitVec (2 * w)) : HashState w :=
  { x with cv := CF cfg x.cv blk c, ctr := x.ctr + 1 }

/-- The body of `absorb`'s loop: one byte goes into the buffer, which is compressed as soon as it is full (R265). -/
def absorbByte {w : Nat} (cfg : CoreCfg w) (x : HashState w) (b : Byte) : HashState w :=
  let y := { x with buf := x.buf.setIfInBounds x.p b, p := x.p + 1 }
  if y.p = blockBytes w then { compress cfg y (block y) y.ctr with p := 0 } else y

/-- `absorb(x, bytes)` (R265). -/
def absorb {w : Nat} (cfg : CoreCfg w) (x : HashState w) (bytes : List Byte) : HashState w :=
  bytes.foldl (absorbByte cfg) x

/-- The rest of the source's UPDATE procedure (R268): `k` full blocks compressed "directly from the input (without
copying)", then what is left is buffered. -/
def absorbBlocks {w : Nat} (cfg : CoreCfg w) : Nat → HashState w → List Byte → HashState w
  | 0, x, rest => { x with buf := putBytes x.buf 0 rest, p := rest.length }
  | k + 1, x, rest =>
    absorbBlocks cfg k (compress cfg x (rest.take (blockBytes w)) x.ctr) (rest.drop (blockBytes w))

/-- The source's UPDATE procedure on whole bytes, which an implementation may use in place of `absorb` (R268). -/
def absorbBySource {w : Nat} (cfg : CoreCfg w) (x : HashState w) (bytes : List Byte) : HashState w :=
  let need := blockBytes w - x.p
  if bytes.length < need then { x with buf := putBytes x.buf x.p bytes, p := x.p + bytes.length }
  else
    let y := { x with buf := putBytes x.buf x.p (bytes.take need) }
    absorbBlocks cfg ((bytes.length - need) / blockBytes w) { compress cfg y (block y) y.ctr with p := 0 }
      (bytes.drop need)

/-- What UPDATE does to a context with L bits of message in `data` (R264): the whole bytes are absorbed, a partial byte
is stored whole at buf[p] with its bit count in r (R266), and T grows by L. -/
def feed {w : Nat} (cfg : CoreCfg w) (x : HashState w) (data : List Byte) (L : BitVec 64) : HashState w :=
  let y := absorb cfg x (data.take (L.toNat / 8))
  let z := if L.toNat % 8 ≠ 0 then
      { y with buf := y.buf.setIfInBounds y.p (data.getD (L.toNat / 8) 0), r := L.toNat % 8 }
    else y
  { z with T := lenAdd z.T L }

/-! ## FINAL's padding (R269 to R274) -/

/-- The byte that holds the padding bit, with r valid message bits above it (R270). -/
def padByte (b : Byte) (r : Nat) : Byte :=
  if r > 0 then (b &&& ((0xFF : Byte) <<< (8 - r))) ||| ((0x80 : Byte) >>> r) else 0x80

/-- The padding bit in byte p, then zeros to the end of the block (R270, R271). -/
def padBuf {w : Nat} (x : HashState w) : Buf :=
  zeroFill (x.buf.setIfInBounds x.p (padByte (x.buf.toList.getD x.p 0) x.r)) (x.p + 1) (blockBytes w)

/-- The padded block has no room for the 16-byte length field (R272). -/
def needsExtraBlock {w : Nat} (x : HashState w) : Bool := x.p + 1 > blockBytes w - 16

/-- `fin`: FIN_CTR[0] + FIN_CTR[1]·2^w (R274). -/
def finConst {w : Nat} (cfg : CoreCfg w) : BitVec (2 * w) :=
  cfg.finCtr0.setWidth (2 * w) + (cfg.finCtr1.setWidth (2 * w) <<< w)

/-- Padding, and the extra block with the plain counter when it is needed, which leaves a zeroed block (R270 to
R272). -/
def finishPad {w : Nat} (cfg : CoreCfg w) (x : HashState w) : HashState w :=
  let y := { x with buf := padBuf x }
  if needsExtraBlock x then
    let z := compress cfg y (block y) y.ctr
    { z with buf := zeroFill z.buf 0 (blockBytes w) }
  else y

/-- The length field goes into the last 16 bytes of the block (R273). -/
def putLength {w : Nat} (x : HashState w) : HashState w :=
  { x with buf := putBytes x.buf (blockBytes w - 16) (lenField x.T) }

/-- `finish(x)` (R269): the length-bearing block is compressed with the counter value ctr ⊕ fin (R274). -/
def finish {w : Nat} (cfg : CoreCfg w) (x : HashState w) : HashState w :=
  let y := putLength (finishPad cfg x)
  compress cfg y (block y) (y.ctr ^^^ finConst cfg)

/-! ## Work counts (70_reset_and_hazards.md R378) -/

/-- CF evaluations of an UPDATE of L bits on a context with p buffered bytes and block size B. -/
def updateCFCount (B p L : Nat) : Nat := (p + L / 8) / B

/-- CF evaluations of a FINAL with p buffered bytes. -/
def finalCFCount (B p : Nat) : Nat := if p < B - 16 then 1 else 2

/-! ## Sessions of either class -/

/-- The session a successful INIT n starts (R261). -/
def Session.start (l : Launch) (draw : Nat) : DigestLen → Session
  | .w32 n => .w32 n (initHash (iv32 l.cfg32 n) draw)
  | .w64 n => .w64 n (initHash (iv64 l.cfg64 n) draw)

/-- UPDATE's effect on the session (R264). -/
def Session.feed (l : Launch) (data : List Byte) (L : BitVec 64) : Session → Session
  | .w32 n x => .w32 n (Machine.feed l.cfg32 x data L)
  | .w64 n x => .w64 n (Machine.feed l.cfg64 x data L)

/-- The digest FINAL writes: `trunc(toBEseq_w(cv), ceil(n/8))` after `finish` (R275). -/
def Session.digest (l : Launch) : Session → List Byte
  | .w32 n x => trunc (toBEseq (finish l.cfg32 x).cv.toList) (DigestLen.bytes (.w32 n))
  | .w64 n x => trunc (toBEseq (finish l.cfg64 x).cv.toList) (DigestLen.bytes (.w64 n))

end Sys2Proof.Machine
end

