-- ==== Sys2Proof/Machine/Flags.lean ====
section
/-! DEFINITION. The flag-like state (10_state.md R57): RESULT.CODE and the fields of STATUS, their numeric codes and the
register words the host reads (R50, R51, R52; 30_encoding.md R111; 60_exceptions.md R334). -/

namespace Sys2Proof.Machine

/-- The value of a result code (R111). -/
def ResultCode.code : ResultCode → Nat
  | .SUCCESS => 0
  | .FAIL => 1
  | .BAD_HASHBITLEN => 2
  | .NONE => 3

/-- The value of STATUS.CTX (R51). -/
def CtxStatus.code : CtxStatus → Nat
  | .UNINIT => 0
  | .ACCEPTING => 1
  | .FINALIZED => 2
  | .INVALID => 3
  | .UNSPECIFIED => 4

/-- The value of STATUS.CAUSE (R334). -/
def Cause.code : Cause → Nat
  | .NONE => 0
  | .MEM_BOUNDS => 1
  | .ILLEGAL_CMD => 2
  | .USE_AFTER_FAIL => 3
  | .BAD_REG_ACCESS => 4

/-- `reg[RESULT].CODE <- c`: every command that does not fault ends with this (R330). -/
def setResult (c : ResultCode) (s : State) : State := { s with result := c }

/-- The RESULT register: CODE in bits [1:0], bits [31:2] read as 0 (R50). -/
def resultWord (s : State) : BitVec 32 := BitVec.ofNat 32 (ResultCode.code s.result)

/-- The STATUS register: CTX [2:0], FAULT [3], CAUSE [6:4], FAULT_OP [11:8], the other bits 0 (R51). -/
def statusWord (s : State) : BitVec 32 :=
  BitVec.ofNat 32 (CtxStatus.code (Context.status s.ctx)) |||
  ((BitVec.ofBool s.fault).setWidth 32 <<< 3) |||
  (BitVec.ofNat 32 (Cause.code s.cause) <<< 4) |||
  (s.faultOp.setWidth 32 <<< 8)

end Sys2Proof.Machine
end

