-- ==== Sys2Proof/Machine/Ops.lean ====
section
/-! DEFINITION. The shared operations: host memory (20_memory.md), admission (R72), the register window's place (R45),
entering a fault (60_exceptions.md R335), issuing a command to an engine that may be faulted (R339), and reset (R370). -/

namespace Sys2Proof.Machine

/-! ## Host memory, byte by byte -/

/-- What a byte of host memory that nothing has listed reads as. DESIGN CHOICE (log 1), unsafe: the spec gives host
memory no contents. -/
def Memory.unlisted : Byte := 0

/-- The canonical form: addresses strictly rising and inside the 64-bit space (R71), no entry that reads as an unlisted
byte would. -/
abbrev Memory.wf (m : Memory) : Prop :=
  m.Pairwise (fun a b => a.1 < b.1) ∧ ∀ c ∈ m, c.1 < 2 ^ 64 ∧ c.2 ≠ Memory.unlisted

/-- The byte at address `a`. -/
def Memory.read : Memory → Nat → Byte
  | [], _ => Memory.unlisted
  | (k, v) :: m, a => if k = a then v else Memory.read m a

/-- Puts a byte at an address, keeping the canonical form. -/
def Memory.write : Memory → Nat → Byte → Memory
  | [], a, b => if b = Memory.unlisted then [] else [(a, b)]
  | (k, v) :: m, a, b =>
    if a < k then (if b = Memory.unlisted then (k, v) :: m else (a, b) :: (k, v) :: m)
    else if a = k then (if b = Memory.unlisted then m else (a, b) :: m)
    else (k, v) :: Memory.write m a b

/-- `MemRead(addr, n)`: the n bytes at addr, addr+1, ... in that order (00_scope.md R19). -/
def memRead (m : Memory) (addr n : Nat) : List Byte := (List.range n).map fun i => Memory.read m (addr + i)

/-- `MemWrite(addr, n, bs)` with n = len(bs): byte bs[i] goes to addr+i, in increasing address order (R19). -/
def memWrite : Memory → Nat → List Byte → Memory
  | m, _, [] => m
  | m, addr, b :: bs => memWrite (Memory.write m addr b) (addr + 1) bs

/-! ## The register window and the admitted ranges -/

/-- The length of the register window (R45). -/
def windowBytes : Nat := 0x38

/-- Address `a` lies in the register window [P_REG_BASE, P_REG_BASE + 0x38), which is not wrapped at 2^64: DESIGN CHOICE
(log 16), unsafe for a window in the last 0x38 bytes of the space. -/
def inWindow (l : Launch) (a : Nat) : Bool := l.regBase.toNat ≤ a && a < l.regBase.toNat + windowBytes

/-- The nonempty range [a, a + len) overlaps the register window. -/
def overlapsWindow (l : Launch) (a len : Nat) : Bool :=
  a < l.regBase.toNat + windowBytes && l.regBase.toNat < a + len

/-- One platform rule admits the range. -/
def AdmitRule.admits (a len : Nat) : AdmitRule → Bool
  | .region base size => base ≤ a && a + len ≤ base + size
  | .exact addr n => addr = a && n = len

/-- `P_MEM_ADMITS(addr, len)` with its three fixed values (20_memory.md R72): (a) an empty range is admitted, (b) a range
that wraps is not, (c) one that overlaps the register window is not; for the rest the platform's rules decide. -/
def memAdmits (l : Launch) (addr : Addr) (len : Nat) : Bool :=
  len == 0 ||
    (addr.toNat + len ≤ 2 ^ 64 && !overlapsWindow l addr.toNat len &&
      l.admits.any (AdmitRule.admits addr.toNat len))

/-! ## Faults -/

/-- `raise Fault(cause, info)` (60_exceptions.md R335): the first fault is recorded in the four fault fields, a later one
changes nothing (R340), and nothing else changes at all. `op` is cmd[3:0] if a CMD write raised it, else 0. There is no
return from a fault but reset (R339). -/
def raiseFault (cause : Cause) (op : BitVec 4) (info : BitVec 64) (s : State) : State :=
  if s.fault then s else { s with fault := true, cause := cause, faultOp := op, faultInfo := info }

/-- A command issued by a CMD write: while STATUS.FAULT = 1 it "is ignored: nothing is decoded or performed"
(R260, R339); otherwise `body` is its effect. A command always completes or faults inside its step (R342). -/
def performCmd (body : State → State) (s : State) : Host.Outcome State Fault Refusal :=
  .next (if s.fault then s else body s)

/-! ## Unspecified context contents -/

/-- A context's data fields where the spec leaves every one of them unspecified: free values (log 2). -/
def freeHash (draw w : Nat) : HashState w where
  cv := #v[Config.freeBits draw 0 w, Config.freeBits draw 1 w, Config.freeBits draw 2 w, Config.freeBits draw 3 w,
    Config.freeBits draw 4 w, Config.freeBits draw 5 w, Config.freeBits draw 6 w, Config.freeBits draw 7 w]
  ctr := Config.freeBits draw 8 (2 * w)
  T := Config.freeBits draw 9 128
  buf := Vector.ofFn fun i => Config.freeBits draw (12 + i) 8
  p := Config.freeNat draw 0
  r := Config.freeNat draw 1

/-- The session of a finalized context: `n` (with `w` and `B`) holds until the next INIT (R34); the other fields are
unspecified (44_engine_commands.md R278). -/
def Session.afterFinal (draw : Nat) : Session → Session
  | .w32 n _ => .w32 n (freeHash draw 32)
  | .w64 n _ => .w64 n (freeHash draw 64)

/-- A session whose every field, digest length included, is unspecified. -/
def freeSession (draw : Nat) : Session :=
  match Config.freeNat draw 2 with
  | 0 => .w32 .d224 (freeHash draw 32)
  | 1 => .w32 .d256 (freeHash draw 32)
  | 2 => .w64 .d384 (freeHash draw 64)
  | _ => .w64 .d512 (freeHash draw 64)

/-- A context with every field unspecified: `hctx` after a HASH (R42, R283). -/
def freeContext (draw : Nat) : Context :=
  match Config.freeNat draw 3 with
  | 0 => .uninit
  | 1 => .accepting (freeSession draw)
  | 2 => .finalized (freeSession draw)
  | 3 => .invalid none
  | 4 => .invalid (some (freeSession draw))
  | _ => .unspecified (freeSession draw)

/-! ## Reset -/

/-- `reset()` (70_reset_and_hazards.md R370): every piece of engine state to its value of 10_state.md R58; host memory,
ROM and CORECFG are not changed, and neither are the host's moves and what it has read. -/
def resetEngine (s : State) : State :=
  { State.reset with
    launch := s.launch, mem := s.mem, pending := s.pending, readLog := s.readLog, draws := s.draws }

end Sys2Proof.Machine
end

