-- ==== Sys2Proof/Machine/Commands.lean ====
section
/-! DEFINITION. The meanings of the four commands (44_engine_commands.md R261, R264, R269, R280). Each makes its checks in
the order of 60_exceptions.md R338, before any change of state (R337). -/

namespace Sys2Proof.Machine

/-- INIT (R261): an unsupported length makes the context INVALID and keeps its other fields (R262). -/
def execInit (h : Nat) (s : State) : Host.Outcome State Fault Refusal :=
  performCmd (fun s =>
    match DigestLen.ofBits h with
    | none => setResult .BAD_HASHBITLEN { s with ctx := .invalid (Context.session s.ctx) }
    | some n =>
      setResult .SUCCESS { s with ctx := .accepting (Session.start s.launch s.draws n), draws := s.draws + 1 }) s

/-- UPDATE (R264). -/
def execUpdate (s : State) : Host.Outcome State Fault Refusal :=
  performCmd (fun s =>
    match s.ctx with
    | .unspecified _ => raiseFault .USE_AFTER_FAIL 0x2 0x00000002 s
    | .uninit => setResult .FAIL s
    | .finalized _ => setResult .FAIL s
    | .invalid _ => setResult .FAIL s
    | .accepting x =>
      if Session.r x ≠ 0 then setResult .FAIL { s with ctx := .unspecified x }
      else if memAdmits s.launch s.srcAddr (messageBytes s.bitLen) then
        setResult .SUCCESS { s with
          ctx := .accepting
            (Session.feed s.launch (memRead s.mem s.srcAddr.toNat (messageBytes s.bitLen)) s.bitLen x) }
      else raiseFault .MEM_BOUNDS 0x2 s.srcAddr s) s

/-- FINAL (R269, R276). The context's fields other than its status and `n` are unspecified afterwards (R278). -/
def execFinal (s : State) : Host.Outcome State Fault Refusal :=
  performCmd (fun s =>
    match s.ctx with
    | .unspecified _ => raiseFault .USE_AFTER_FAIL 0x3 0x00000003 s
    | .uninit => setResult .FAIL s
    | .finalized _ => setResult .FAIL s
    | .invalid _ => setResult .FAIL s
    | .accepting x =>
      if memAdmits s.launch s.dstAddr (DigestLen.bytes (Session.n x)) then
        setResult .SUCCESS { s with
          mem := memWrite s.mem s.dstAddr.toNat (Session.digest s.launch x)
          ctx := .finalized (Session.afterFinal s.draws x)
          draws := s.draws + 1 }
      else raiseFault .MEM_BOUNDS 0x3 s.dstAddr s) s

/-- The digest HASH writes: INIT n, UPDATE of the message and FINAL on a fresh scratch context (R280, R283). -/
def hashDigest (s : State) (n : DigestLen) : List Byte :=
  Session.digest s.launch
    (Session.feed s.launch (memRead s.mem s.srcAddr.toNat (messageBytes s.bitLen)) s.bitLen
      (Session.start s.launch s.draws n))

/-- HASH (R280): `ctx` is neither read nor written; the source range is checked before the destination range; every read
comes before the first write. `hctx` is unspecified afterwards (R283). -/
def execHash (h : Nat) (s : State) : Host.Outcome State Fault Refusal :=
  performCmd (fun s =>
    match DigestLen.ofBits h with
    | none => setResult .BAD_HASHBITLEN s
    | some n =>
      if memAdmits s.launch s.srcAddr (messageBytes s.bitLen) then
        if memAdmits s.launch s.dstAddr (DigestLen.bytes n) then
          setResult .SUCCESS { s with
            mem := memWrite s.mem s.dstAddr.toNat (hashDigest s n)
            hctx := some (freeContext s.draws)
            draws := s.draws + 1 }
        else raiseFault .MEM_BOUNDS 0x4 s.dstAddr s
      else raiseFault .MEM_BOUNDS 0x4 s.srcAddr s) s

end Sys2Proof.Machine
end

