-- ==== Sys2Proof/Machine/Dispatch.lean ====
section
/-! DEFINITION. One arm per command (44_engine_commands.md R260: `case c of ...`). -/

namespace Sys2Proof.Machine

def exec (i : Instr) (s : State) : Host.Outcome State Fault Refusal :=
  match i with
  | .init h => Sys2Proof.Machine.execInit h s
  | .update => Sys2Proof.Machine.execUpdate s
  | .final => Sys2Proof.Machine.execFinal s
  | .hash h => Sys2Proof.Machine.execHash h s

end Sys2Proof.Machine
end

