-- ==== Sys2Proof/Machine/HostPort.lean ====
section
/-! DEFINITION. The host's port: the register map, register writes and reads, issuing a command, the host's stores to its
own memory, the launch of an engine, and the assembly forms of 30_encoding.md (10_state.md R45 to R55;
44_engine_commands.md R260; 70_reset_and_hazards.md R370, R373, R380). -/

namespace Sys2Proof.Machine

/-! ## The register map (R45) -/

/-- Bytes of an access. -/
def AccessWidth.bytes : AccessWidth → Nat
  | .b8 => 1
  | .b16 => 2
  | .b32 => 4
  | .b64 => 8

/-- A register's offset in the window (R45). -/
def Reg.offset : Reg → Nat
  | .CMD => 0x00
  | .SRC_ADDR => 0x08
  | .BIT_LEN => 0x10
  | .DST_ADDR => 0x18
  | .RESULT => 0x20
  | .STATUS => 0x28
  | .FAULT_INFO => 0x30

/-- A register's width (R45). -/
def Reg.width : Reg → AccessWidth
  | .CMD => .b32
  | .SRC_ADDR => .b64
  | .BIT_LEN => .b64
  | .DST_ADDR => .b64
  | .RESULT => .b32
  | .STATUS => .b32
  | .FAULT_INFO => .b64

/-- The registers of the window, in offset order. -/
def Reg.all : List Reg := [.CMD, .SRC_ADDR, .BIT_LEN, .DST_ADDR, .RESULT, .STATUS, .FAULT_INFO]

/-- The register at an offset, if one is assigned there. -/
def Reg.at (off : Addr) : Option Reg := Reg.all.find? fun r => Reg.offset r == off.toNat

/-- The offset points inside a register without being its offset (R55). DEDUCED (log 12). -/
def insideReg (off : Addr) : Bool :=
  Reg.all.any fun r => Reg.offset r < off.toNat && off.toNat < Reg.offset r + AccessWidth.bytes (Reg.width r)

/-- The value a register reads as (R54); CMD reads as 0 (R46). -/
def readValue (s : State) : Reg → BitVec 64
  | .CMD => 0
  | .SRC_ADDR => s.srcAddr
  | .BIT_LEN => s.bitLen
  | .DST_ADDR => s.dstAddr
  | .RESULT => (resultWord s).setWidth 64
  | .STATUS => (statusWord s).setWidth 64
  | .FAULT_INFO => s.faultInfo

/-! ## Register accesses -/

/-- A write of `v` to CMD (R260): ignored while STATUS.FAULT = 1; an Illegal word faults; else the command is
performed at once and completely (R46). -/
def issueCmd (v : BitVec 32) (s : State) : Host.Outcome State Fault Refusal :=
  if s.fault then .next s
  else
    match decode v with
    | .ok i => exec i s
    | .error _ => .next (raiseFault .ILLEGAL_CMD (cmdOp v) (v.setWidth 64) s)

/-- A write to register `r` of a value that fits it (R53). The operand registers are written whatever STATUS.FAULT is. -/
def writeTo (r : Reg) (v : Nat) (s : State) : Host.Outcome State Fault Refusal :=
  match r with
  | .CMD => issueCmd (BitVec.ofNat 32 v) s
  | .SRC_ADDR => .next { s with srcAddr := BitVec.ofNat 64 v }
  | .BIT_LEN => .next { s with bitLen := BitVec.ofNat 64 v }
  | .DST_ADDR => .next { s with dstAddr := BitVec.ofNat 64 v }
  | .RESULT => .next (raiseFault .BAD_REG_ACCESS 0 (BitVec.ofNat 64 (Reg.offset r)) s)
  | .STATUS => .next (raiseFault .BAD_REG_ACCESS 0 (BitVec.ofNat 64 (Reg.offset r)) s)
  | .FAULT_INFO => .next (raiseFault .BAD_REG_ACCESS 0 (BitVec.ofNat 64 (Reg.offset r)) s)

/-- `WR off, v` (R53): a value wider than the register is refused, not truncated; an access that is not at a register's
offset and full width is refused (R55, R78); an unassigned offset faults. -/
def hostWrite (off : Addr) (width : AccessWidth) (v : Nat) (s : State) : Host.Outcome State Fault Refusal :=
  match Reg.at off with
  | some r =>
    if width ≠ Reg.width r then .refused .partialWidthAccess
    else if 2 ^ (8 * AccessWidth.bytes (Reg.width r)) ≤ v then .refused .valueTooWide
    else writeTo r v s
  | none =>
    if insideReg off then .refused .misalignedAccess
    else .next (raiseFault .BAD_REG_ACCESS 0 off s)

/-- The host notes what a read returned. -/
def logRead (off : Addr) (value : Option (BitVec 64)) (s : State) : State :=
  { s with readLog := s.readLog ++ [{ off := off, value := value }] }

/-- `RD off` (R54, R55): a read has no side effect and is served whatever STATUS.FAULT is; a read of an unassigned
offset yields no value and faults. -/
def hostRead (off : Addr) (width : AccessWidth) (s : State) : Host.Outcome State Fault Refusal :=
  match Reg.at off with
  | some r =>
    if width ≠ Reg.width r then .refused .partialWidthAccess
    else .next (logRead off (some (readValue s r)) s)
  | none =>
    if insideReg off then .refused .misalignedAccess
    else .next (raiseFault .BAD_REG_ACCESS 0 off (logRead off none s))

/-- The host stores a byte to its own memory (20_memory.md R83). An address in the register window is no memory: there the
store is a byte-wide write at the offset, which faults where the offset is unassigned (10_state.md R53) and is refused
inside a register (R55, R78). DEDUCED (log 11), safe. -/
def hostStore (addr : Addr) (b : Byte) (s : State) : Host.Outcome State Fault Refusal :=
  if inWindow s.launch addr.toNat then hostWrite (addr - s.launch.regBase) .b8 b.toNat s
  else .next { s with mem := Memory.write s.mem addr.toNat b }

/-- One host move, performed completely (R8, R380). -/
def hostMove (m : HostMove) (s : State) : Host.Outcome State Fault Refusal :=
  match m with
  | .wr off width v => hostWrite off width v s
  | .rd off width => hostRead off width s
  | .store addr b => hostStore addr b s
  | .reset => .next (resetEngine s)

/-! ## Launch -/

/-- The launch of an engine (R373): the platform fixes the configuration, the window's base and the admitted ranges; a
configuration that is not well-formed is refused before any command runs (42_compression_core.md R210). -/
def State.boot (l : Launch) (mem : Memory) (moves : List HostMove) : Host.Outcome State Fault Refusal :=
  if Launch.wf l then .next { State.reset with launch := l, mem := mem, pending := moves }
  else .refused .illFormedConfig

/-! ## The host assembly (30_encoding.md R109, R110, R112) -/

/-- A host program's assembly forms. -/
inductive Asm where
  /-- `WR <reg>, <value>`. -/
  | wr (r : Reg) (v : Nat)
  /-- `RD <reg>`. -/
  | rd (r : Reg)
  /-- `WR <offset>, <value>`: a numeric offset in place of a register's name. -/
  | wrAt (off : Addr) (v : Nat)
  /-- `RD <offset>`. -/
  | rdAt (off : Addr)
  /-- A command proper: one CMD write. -/
  | cmd (i : Instr)
  /-- `UPDATE <src>, <bitlen>`. -/
  | updateOf (src bitLen : Nat)
  /-- `FINAL <dst>`. -/
  | finalTo (dst : Nat)
  /-- `HASH <hbl>, <src>, <bitlen>, <dst>`. -/
  | hashOf (hbl src bitLen dst : Nat)
  deriving DecidableEq, Repr

/-- A full-width write of a register. -/
def wrReg (r : Reg) (v : Nat) : HostMove := .wr (BitVec.ofNat 64 (Reg.offset r)) (Reg.width r) v

/-- A full-width read of a register. -/
def rdReg (r : Reg) : HostMove := .rd (BitVec.ofNat 64 (Reg.offset r)) (Reg.width r)

/-- The width of an access at a numeric offset: the register's own; at an unassigned offset no width matters. -/
def widthAt (off : Addr) : AccessWidth := ((Reg.at off).map Reg.width).getD .b32

/-- The value a command's form writes to CMD, `(hbl << 16) | op` (R110), a number without a bound (00_scope.md R15): with an
HBL that does not fit its field it does not fit CMD either, and the write is refused (10_state.md R53). -/
def cmdValue (i : Instr) : Nat := (i.hbl <<< 16) ||| i.op.toNat

/-- The CMD write of a command. -/
def wrCmd (i : Instr) : HostMove := wrReg .CMD (cmdValue i)

/-- The expansions of R110. -/
def Asm.expand : Asm → List HostMove
  | .wr r v => [wrReg r v]
  | .rd r => [rdReg r]
  | .wrAt off v => [.wr off (widthAt off) v]
  | .rdAt off => [.rd off (widthAt off)]
  | .cmd i => [wrCmd i]
  | .updateOf src bitLen => [wrReg .SRC_ADDR src, wrReg .BIT_LEN bitLen, wrCmd .update]
  | .finalTo dst => [wrReg .DST_ADDR dst, wrCmd .final]
  | .hashOf hbl src bitLen dst =>
    [wrReg .SRC_ADDR src, wrReg .BIT_LEN bitLen, wrReg .DST_ADDR dst, wrCmd (.hash hbl)]

/-- A program is the sequence of its forms' moves (R112). -/
def assemble (p : List Asm) : List HostMove := p.flatMap Asm.expand

end Sys2Proof.Machine
end

