-- ==== Sys2Proof/Machine/Step.lean ====
section
/-! DEFINITION. One step of the machine: the host's next move, performed atomically (00_scope.md R8). -/

namespace Sys2Proof.Machine

/-- The host's next move leaves the queue and is performed. With no move left the engine does nothing
(60_exceptions.md R346, 70_reset_and_hazards.md R371, R379): the state stays as it is. DEDUCED (log 10), safe. -/
def step (s : State) : Host.Outcome State Fault Refusal :=
  match s.pending with
  | [] => .next s
  | m :: rest => hostMove m { s with pending := rest }

/-- The state whose next host move is the CMD write of the word `w` (bits above `nbits` zero): the engine fetches no
instructions (10_state.md R31), so this is where a command comes from. DESIGN CHOICE (log 9), safe. -/
def State.withFetchWord (s : State) (nbits w : Nat) : State :=
  { s with pending := wrReg .CMD (w % 2 ^ nbits) :: s.pending }

end Sys2Proof.Machine
end

