-- ==== Sys2Proof/Safety.lean ====
section
/-! DEFINITION. What counts as a safe run, in the terms the statements use: launch premises, the invariant of every
state a run reaches, and sequences of commands. -/

namespace Sys2Proof.Machine

/-- `STATUS.FAULT` = 0: the engine performs commands (70_reset_and_hazards.md R382 (b)). -/
abbrev FaultFree (s : State) : Prop := s.fault = false

/-- UPDATE's and HASH's source range is admitted (20_memory.md R72, R73). -/
abbrev SrcAdmitted (s : State) : Prop := memAdmits s.launch s.srcAddr (messageBytes s.bitLen) = true

/-- The destination range of a digest of length `n` is admitted (R72, R73). -/
abbrev DstAdmitted (s : State) (n : DigestLen) : Prop := memAdmits s.launch s.dstAddr (DigestLen.bytes n) = true

/-- The buffer and remainder bounds between commands: 0 ≤ p < B and 0 ≤ r < 8 (10_state.md R32, R39, R40). -/
abbrev hashOk {w : Nat} (x : HashState w) : Prop := x.p < blockBytes w ∧ x.r < 8

/-- The modulus below which the length counter and the block counter can be compared: both wrap, at 2^128 bits and at
2^(2w) blocks of 8B bits. -/
def lenModulus (w : Nat) : Nat := Nat.gcd (2 ^ 128) (8 * blockBytes w * 2 ^ (2 * w))

/-- The length counter counts what the block counter, the buffer and the remainder hold: T = 8·(B·ctr + p) + r, up to
the counters' wrapping (44_engine_commands.md R264, R265, R266; R279). -/
abbrev lenOk {w : Nat} (x : HashState w) : Prop :=
  x.T.toNat % lenModulus w = (8 * (blockBytes w * x.ctr.toNat + x.p) + x.r) % lenModulus w

/-- The bounds of a session of either class. -/
abbrev sessionOk : Session → Prop
  | .w32 _ x => hashOk x
  | .w64 _ x => hashOk x

/-- The length relation of a session of either class. -/
abbrev sessionLenOk : Session → Prop
  | .w32 _ x => lenOk x
  | .w64 _ x => lenOk x

/-- A context whose fields a later command could read holds legal values. -/
abbrev ctxOk : Context → Prop
  | .accepting x => sessionOk x
  | .unspecified x => sessionOk x
  | _ => True

/-- An accepting context's length counter agrees with its block counter and buffer. -/
abbrev ctxLenOk : Context → Prop
  | .accepting x => sessionLenOk x
  | _ => True

/-- The four fault fields agree: none is set before the first fault, and a fault has a cause (10_state.md R51, R52;
60_exceptions.md R334, R335). -/
abbrev faultFieldsOk (s : State) : Prop :=
  (s.fault = false → s.cause = .NONE ∧ s.faultOp = 0 ∧ s.faultInfo = 0) ∧ (s.fault = true → s.cause ≠ .NONE)

/-- RESULT is NONE only until a command has completed (R50): a context an INIT has touched has a result. -/
abbrev resultOk (s : State) : Prop := s.result = .NONE → Context.status s.ctx = .UNINIT

/-- The invariant every step keeps. -/
structure Inv (s : State) : Prop where
  config : Launch.wf s.launch = true
  mem : Memory.wf s.mem
  ctx : ctxOk s.ctx
  len : ctxLenOk s.ctx
  faults : faultFieldsOk s
  result : resultOk s

/-- Commands performed one after another. -/
def execAll : List Instr → State → Host.Outcome State Fault Refusal
  | [], s => .next s
  | i :: is, s =>
    match exec i s with
    | .next t => execAll is t
    | .fault r => .fault r
    | .refused r => .refused r

/-- UPDATEs over consecutive chunks of a message that starts at host address `src`, each chunk `L` bits long; a chunk
that is not the last is a whole number of bytes (44_engine_commands.md R285). -/
def chunkUpdates : Nat → List Nat → List Asm
  | _, [] => []
  | src, L :: Ls => .updateOf src L :: chunkUpdates (src + L / 8) Ls

/-- Every chunk's source range is admitted and every chunk but the last is a multiple of 8 bits. -/
def chunksOk (l : Launch) : Nat → List Nat → Prop
  | _, [] => True
  | src, L :: Ls =>
    src < 2 ^ 64 ∧ memAdmits l (BitVec.ofNat 64 src) (bytesForBits L) = true ∧ (Ls ≠ [] → L % 8 = 0) ∧
      chunksOk l (src + L / 8) Ls

/-- A whole digest session as a host program: INIT, the updates, FINAL. -/
def sessionProgram (n : DigestLen) (updates : List Asm) (dst : Nat) : List HostMove :=
  assemble (.cmd (.init (DigestLen.bits n)) :: updates ++ [.finalTo dst])

end Sys2Proof.Machine
end

