-- ==== Sys2Proof/Certificates/Slice0/Obligations.lean ====
section
/-! DEFINITION. The statements about the machine, for the provers. Each docstring names the rules it formalises. -/

open Sys2Proof Sys2Proof.Machine

/-! ## Encoding (30_encoding.md) -/

/-- Decode and encode agree: the word of every well-formed command decodes to that command, at every HBL the field
holds (R100, R101, R103, R108, R110). -/
def Obligations.DecodeOfEncodeIsTheCommand : Prop :=
  ∀ i : Instr, i.wf = true → decode (encode i) = .ok i

/-- The other direction: every word that decodes is the word of the one well-formed command it decodes to, so no bit of
a legal word is dropped and no two words mean one command (R100, R106, R107, R108). -/
def Obligations.EncodeOfDecodeIsTheWord : Prop :=
  ∀ (v : BitVec 32) (i : Instr), decode v = .ok i → i.wf = true ∧ encode i = v

/-- R105: a word is Illegal exactly when OP is reserved, RSVD is not 0, or HBL is not 0 on UPDATE or FINAL; writing one
to CMD records ILLEGAL_CMD with the word as info and changes nothing else. -/
def Obligations.IllegalWordsAreExactlyTheseAndFault : Prop :=
  (∀ v : BitVec 32, (∃ e, decode v = .error e) ↔
    ((cmdOp v = 0 ∨ 5 ≤ (cmdOp v).toNat) ∨ cmdRsvd v ≠ 0 ∨ ((cmdOp v = 2 ∨ cmdOp v = 3) ∧ cmdHbl v ≠ 0))) ∧
  ∀ (v : BitVec 32) (e : Illegal) (s : State), s.fault = false → decode v = .error e →
    hostMove (wrReg .CMD v.toNat) s = .next { s with
      fault := true, cause := .ILLEGAL_CMD, faultOp := cmdOp v, faultInfo := v.setWidth 64 }

/-- Command words written out from the tables of R110 and 95_test_vectors.md V-DEC decode to what they stand for. -/
def Obligations.SpecWordsDecodeAsWritten : Prop :=
  decode 0x00E00001 = .ok (.init 224) ∧ decode 0x01000001 = .ok (.init 256) ∧
  decode 0x01800001 = .ok (.init 384) ∧ decode 0x02000001 = .ok (.init 512) ∧
  decode 0x012C0001 = .ok (.init 300) ∧ decode 0x00000002 = .ok .update ∧ decode 0x00000003 = .ok .final ∧
  decode 0x00E00004 = .ok (.hash 224) ∧ decode 0x02000004 = .ok (.hash 512)

/-! ## Stepping, launch and reset -/

/-- A step whose next host move is a CMD write of a legal word runs exactly that command on the state with the move taken
off the queue (R46, R260); `withFetchWord` puts such a move first. A faulted engine ignores the write (R339). -/
def Obligations.StepRunsTheDecodedCommand : Prop :=
  (∀ (s : State) (v : BitVec 32) (i : Instr) (rest : List HostMove), s.fault = false →
    s.pending = wrReg .CMD v.toNat :: rest → decode v = .ok i → step s = exec i { s with pending := rest }) ∧
  (∀ (s : State) (v : BitVec 32) (i : Instr), s.fault = false → decode v = .ok i →
    step (s.withFetchWord 32 v.toNat) = exec i s) ∧
  ∀ (s : State) (v : BitVec 32), s.fault = true → step (s.withFetchWord 32 v.toNat) = .next s

/-- The engine does nothing between commands: with no host move left a step changes nothing (R346, R371, R379). -/
def Obligations.EngineIdlesWithoutAHostMove : Prop :=
  ∀ s : State, s.pending = [] → step s = .next s

/-- The reset state of R58: ctx UNINIT and unwritten, hctx unwritten, operand registers 0, RESULT NONE, STATUS 0,
FAULT_INFO 0. (That host memory lists nothing is the model's choice, log 1.) -/
def Obligations.ResetStateIsTheSpecs : Prop :=
  Context.status State.reset.ctx = .UNINIT ∧ Context.session State.reset.ctx = none ∧ State.reset.hctx = none ∧
  State.reset.srcAddr = 0 ∧ State.reset.bitLen = 0 ∧ State.reset.dstAddr = 0 ∧
  resultWord State.reset = 3 ∧ statusWord State.reset = 0 ∧ State.reset.faultInfo = 0 ∧
  readValue State.reset .CMD = 0

/-- R370: `reset()` puts every piece of engine state at its value of R58 from every state, faulted or not, and changes
neither host memory nor ROM, CORECFG and the platform's parameters. -/
def Obligations.ResetEventClearsTheEngineOnly : Prop :=
  ∀ s : State, ∃ t, hostMove .reset s = .next t ∧
    Context.status t.ctx = .UNINIT ∧ Context.session t.ctx = none ∧ t.hctx = none ∧
    t.srcAddr = 0 ∧ t.bitLen = 0 ∧ t.dstAddr = 0 ∧ t.result = .NONE ∧
    t.fault = false ∧ t.cause = .NONE ∧ t.faultOp = 0 ∧ t.faultInfo = 0 ∧ statusWord t = 0 ∧
    t.mem = s.mem ∧ t.launch = s.launch

/-- R210, R12: a configuration is well-formed exactly when every field satisfies the legal-values column of R12 (the bounds
of the index fields are their types), the MDS property included; a launch that is not well-formed in both records is
refused by name before any command runs, any other starts from the reset state with the platform's parameters in place.
The model's own reading: the field of the MDS property is the one of 0x11B, against a sentence of 95_test_vectors.md (log
6, DEDUCED); the check stands in State.boot (log 5), which also places memory and the host's moves (log 9, DESIGN
CHOICE). -/
def Obligations.BootRefusesIllFormedConfigurations : Prop :=
  (∀ (w : Nat) (cfg : CoreCfg w), CoreCfg.wf cfg = true ↔
    (∀ j : Fin 16, cfg.schedRot[j] < w) ∧ cfg.sa.val ≤ 3 ∧ 4 ≤ cfg.se.val ∧
    (∀ k : Fin 3, cfg.inj1[k].slot ≠ cfg.sa ∧ cfg.inj1[k].rot < w ∧
      cfg.inj2[k].slot ≠ cfg.se ∧ cfg.inj2[k].rot < w) ∧
    (∀ k l : Fin 3, k ≠ l → cfg.inj1[k].slot ≠ cfg.inj1[l].slot ∧ cfg.inj2[k].slot ≠ cfg.inj2[l].slot) ∧
    1 ≤ cfg.regRot.val ∧ cfg.ctrSlot0 ≠ cfg.ctrSlot1 ∧
    (∀ rows cols : List Nat, rows.Sublist (List.range (w / 8)) → cols.Sublist (List.range (w / 8)) →
      rows.length = cols.length → minor cfg rows cols ≠ 0)) ∧
  ∀ (l : Launch) (mem : Memory) (moves : List HostMove),
    State.boot l mem moves =
      if CoreCfg.wf l.cfg32 = true ∧ CoreCfg.wf l.cfg64 = true then
        .next { State.reset with launch := l, mem := mem, pending := moves }
      else .refused .illFormedConfig

/-- R56, R13: no step of any kind writes the ROM, CORECFG or the platform's parameters, so a run that starts under a
well-formed configuration stays under it. -/
def Obligations.NoStepWritesTheLaunchParameters : Prop :=
  ∀ s t : State, step s = .next t → t.launch = s.launch

/-! ## The invariant -/

/-- Every step keeps the invariant: a well-formed configuration (R210), host memory in canonical form, p < B and r < 8, the
fault fields consistent, RESULT NONE only before the first INIT, and the length counter congruent to what the block
counter, buffer and remainder hold, modulo lenModulus (2^73 in W32, 2^128 in W64), below which both counters can be
compared since both wrap (R209, R243; log 20, DEDUCED). -/
def Obligations.EveryStepKeepsTheInvariant : Prop :=
  ∀ s t : State, Inv s → step s = .next t → Inv t

/-- The reset state meets the invariant. That its unknown configuration is well-formed is log 3 and log 5. -/
def Obligations.ResetStateMeetsTheInvariant : Prop := Inv State.reset

/-! ## The four commands (44_engine_commands.md) -/

/-- R342: no command ever waits, hangs or stops the machine: each answers a next state from every state. -/
def Obligations.EveryCommandCompletes : Prop :=
  ∀ (i : Instr) (s : State), ∃ t, exec i s = .next t

/-- R261: INIT of a supported length writes n, cv = IV[n], ctr, T, buf[0..B), p and r, makes the context ACCEPTING and
returns SUCCESS; of any other length it makes the context INVALID, keeps its fields and returns BAD_HASHBITLEN. Nothing
else changes (`draws` is the model's own counter of free values, log 2). -/
def Obligations.InitFollowsItsPseudocode : Prop :=
  ∀ (s : State) (h : Nat), s.fault = false →
    ((h = 224 ∨ h = 256) → ∃ x : HashState 32,
      exec (.init h) s = .next { s with
        ctx := .accepting (.w32 (if h = 224 then .d224 else .d256) x), result := .SUCCESS, draws := s.draws + 1 } ∧
      x.cv = (if h = 224 then s.launch.cfg32.ivShort else s.launch.cfg32.ivLong) ∧ x.ctr = 0 ∧ x.T = 0 ∧
      block x = List.replicate 64 0 ∧ x.p = 0 ∧ x.r = 0) ∧
    ((h = 384 ∨ h = 512) → ∃ x : HashState 64,
      exec (.init h) s = .next { s with
        ctx := .accepting (.w64 (if h = 384 then .d384 else .d512) x), result := .SUCCESS, draws := s.draws + 1 } ∧
      x.cv = (if h = 384 then s.launch.cfg64.ivShort else s.launch.cfg64.ivLong) ∧ x.ctr = 0 ∧ x.T = 0 ∧
      block x = List.replicate 128 0 ∧ x.p = 0 ∧ x.r = 0) ∧
    (h ≠ 224 → h ≠ 256 → h ≠ 384 → h ≠ 512 →
      exec (.init h) s = .next { s with ctx := .invalid (Context.session s.ctx), result := .BAD_HASHBITLEN })

/-- R264: every branch of UPDATE, in the order of its checks. -/
def Obligations.UpdateFollowsItsPseudocode : Prop :=
  ∀ s : State, s.fault = false →
    (∀ x, s.ctx = .unspecified x → exec .update s = .next { s with
      fault := true, cause := .USE_AFTER_FAIL, faultOp := 2, faultInfo := 2 }) ∧
    (Context.status s.ctx ≠ .ACCEPTING → Context.status s.ctx ≠ .UNSPECIFIED →
      exec .update s = .next { s with result := .FAIL }) ∧
    (∀ x, s.ctx = .accepting x → Session.r x ≠ 0 →
      exec .update s = .next { s with ctx := .unspecified x, result := .FAIL }) ∧
    (∀ x, s.ctx = .accepting x → Session.r x = 0 →
      memAdmits s.launch s.srcAddr ((s.bitLen.toNat + 7) / 8) = false → exec .update s = .next { s with
        fault := true, cause := .MEM_BOUNDS, faultOp := 2, faultInfo := s.srcAddr }) ∧
    (∀ n x, s.ctx = .accepting (.w32 n x) → x.r = 0 →
      memAdmits s.launch s.srcAddr ((s.bitLen.toNat + 7) / 8) = true →
      let data := memRead s.mem s.srcAddr.toNat ((s.bitLen.toNat + 7) / 8)
      let y := absorb s.launch.cfg32 x (data.take (s.bitLen.toNat / 8))
      exec .update s = .next { s with
        ctx := .accepting (.w32 n { y with
          buf := if s.bitLen.toNat % 8 = 0 then y.buf
            else y.buf.setIfInBounds y.p (data.getD (s.bitLen.toNat / 8) 0)
          r := s.bitLen.toNat % 8
          T := lenAdd x.T s.bitLen })
        result := .SUCCESS }) ∧
    (∀ n x, s.ctx = .accepting (.w64 n x) → x.r = 0 →
      memAdmits s.launch s.srcAddr ((s.bitLen.toNat + 7) / 8) = true →
      let data := memRead s.mem s.srcAddr.toNat ((s.bitLen.toNat + 7) / 8)
      let y := absorb s.launch.cfg64 x (data.take (s.bitLen.toNat / 8))
      exec .update s = .next { s with
        ctx := .accepting (.w64 n { y with
          buf := if s.bitLen.toNat % 8 = 0 then y.buf
            else y.buf.setIfInBounds y.p (data.getD (s.bitLen.toNat / 8) 0)
          r := s.bitLen.toNat % 8
          T := lenAdd x.T s.bitLen })
        result := .SUCCESS })

/-- R269: every branch of FINAL, in the order of its checks. After success the context is FINALIZED; its other fields are
not stated (R278). That it keeps its digest length is R34 as the model reads it beside R278 (log 8, DEDUCED); `draws` is
the model's own counter of free values (log 2). -/
def Obligations.FinalFollowsItsPseudocode : Prop :=
  ∀ s : State, s.fault = false →
    (∀ x, s.ctx = .unspecified x → exec .final s = .next { s with
      fault := true, cause := .USE_AFTER_FAIL, faultOp := 3, faultInfo := 3 }) ∧
    (Context.status s.ctx ≠ .ACCEPTING → Context.status s.ctx ≠ .UNSPECIFIED →
      exec .final s = .next { s with result := .FAIL }) ∧
    (∀ x, s.ctx = .accepting x →
      memAdmits s.launch s.dstAddr (DigestLen.bytes (Session.n x)) = false → exec .final s = .next { s with
        fault := true, cause := .MEM_BOUNDS, faultOp := 3, faultInfo := s.dstAddr }) ∧
    (∀ x, s.ctx = .accepting x →
      memAdmits s.launch s.dstAddr (DigestLen.bytes (Session.n x)) = true →
      ∃ y, Session.n y = Session.n x ∧ exec .final s = .next { s with
        mem := memWrite s.mem s.dstAddr.toNat (Session.digest s.launch x),
        ctx := .finalized y, result := .SUCCESS, draws := s.draws + 1 })

/-- R280: every branch of HASH, in the order of its checks. The digest is that of a fresh context fed with the message as
memory held it before the command; `ctx` is as before; what `hctx` holds afterwards is not stated (R283). -/
def Obligations.HashFollowsItsPseudocode : Prop :=
  ∀ (s : State) (h : Nat), s.fault = false →
    (DigestLen.ofBits h = none → exec (.hash h) s = .next { s with result := .BAD_HASHBITLEN }) ∧
    (∀ n, DigestLen.ofBits h = some n →
      (memAdmits s.launch s.srcAddr ((s.bitLen.toNat + 7) / 8) = false → exec (.hash h) s = .next { s with
        fault := true, cause := .MEM_BOUNDS, faultOp := 4, faultInfo := s.srcAddr }) ∧
      (memAdmits s.launch s.srcAddr ((s.bitLen.toNat + 7) / 8) = true →
        memAdmits s.launch s.dstAddr (DigestLen.bytes n) = false → exec (.hash h) s = .next { s with
          fault := true, cause := .MEM_BOUNDS, faultOp := 4, faultInfo := s.dstAddr }) ∧
      (memAdmits s.launch s.srcAddr ((s.bitLen.toNat + 7) / 8) = true →
        memAdmits s.launch s.dstAddr (DigestLen.bytes n) = true →
        ∃ c, exec (.hash h) s = .next { s with
          mem := memWrite s.mem s.dstAddr.toNat (Session.digest s.launch
            (Session.feed s.launch (memRead s.mem s.srcAddr.toNat ((s.bitLen.toNat + 7) / 8)) s.bitLen
              (Session.start s.launch s.draws n))),
          hctx := some c, result := .SUCCESS, draws := s.draws + 1 }))

/-- R262: the supported set is exactly 224, 256, 384 and 512, with block size 64 for n ≤ 256 and 128 above, word width
32 and 64 (R10), and digests of 28, 32, 48 and 64 bytes (R275). -/
def Obligations.SupportedLengthsAndTheirSizes : Prop :=
  ∀ h : Nat, ((∃ n, DigestLen.ofBits h = some n) ↔ (h = 224 ∨ h = 256 ∨ h = 384 ∨ h = 512)) ∧
    ∀ n, DigestLen.ofBits h = some n → DigestLen.bits n = h ∧
      DigestLen.w n = (if h ≤ 256 then 32 else 64) ∧ DigestLen.B n = (if h ≤ 256 then 64 else 128) ∧
      DigestLen.bytes n = (if h = 224 then 28 else if h = 256 then 32 else if h = 384 then 48 else 64)

/-! ## Frames -/

/-- What no command changes: the launch parameters, the operand registers (R47 to R49: "No command writes it"), the
host's moves and what it has read; and either the fault fields are unchanged, or they are all the command changed
(R335). -/
def Obligations.CommandsLeaveTheHostsStateAlone : Prop :=
  ∀ (i : Instr) (s t : State), exec i s = .next t →
    (t.launch = s.launch ∧ t.srcAddr = s.srcAddr ∧ t.bitLen = s.bitLen ∧ t.dstAddr = s.dstAddr ∧
      t.pending = s.pending ∧ t.readLog = s.readLog) ∧
    ((t.fault = s.fault ∧ t.cause = s.cause ∧ t.faultOp = s.faultOp ∧ t.faultInfo = s.faultInfo) ∨
      (s.fault = false ∧ t.fault = true ∧ t.ctx = s.ctx ∧ t.hctx = s.hctx ∧ t.result = s.result ∧ t.mem = s.mem ∧
        t.draws = s.draws))

/-- INIT and UPDATE store nothing: every byte of host memory reads as before (R73), `hctx` is untouched (R263), and INIT
enters no fault (R261). -/
def Obligations.InitAndUpdateStoreNothing : Prop :=
  (∀ (h : Nat) (s t : State), exec (.init h) s = .next t →
    (∀ a, Memory.read t.mem a = Memory.read s.mem a) ∧ t.hctx = s.hctx ∧
    t.fault = s.fault ∧ t.cause = s.cause ∧ t.faultOp = s.faultOp ∧ t.faultInfo = s.faultInfo) ∧
  (∀ s t : State, exec .update s = .next t →
    (∀ a, Memory.read t.mem a = Memory.read s.mem a) ∧ t.hctx = s.hctx)

/-- FINAL stores to [DST_ADDR, DST_ADDR + ceil(n/8)) and nowhere else (R73, R277 (g)); HASH stores to [DST_ADDR,
DST_ADDR + ceil(HBL/8)) and nowhere else, and leaves `ctx` as it was (R280); FINAL leaves `hctx` as it was. -/
def Obligations.FinalAndHashStoreOnlyTheirDigest : Prop :=
  (∀ s t : State, exec .final s = .next t →
    (∀ x a, s.ctx = .accepting x →
      (a < s.dstAddr.toNat ∨ s.dstAddr.toNat + DigestLen.bytes (Session.n x) ≤ a) →
      Memory.read t.mem a = Memory.read s.mem a) ∧
    (Context.status s.ctx ≠ .ACCEPTING → ∀ a, Memory.read t.mem a = Memory.read s.mem a) ∧ t.hctx = s.hctx) ∧
  (∀ (h : Nat) (s t : State), exec (.hash h) s = .next t →
    (∀ n a, DigestLen.ofBits h = some n →
      (a < s.dstAddr.toNat ∨ s.dstAddr.toNat + DigestLen.bytes n ≤ a) →
      Memory.read t.mem a = Memory.read s.mem a) ∧
    (DigestLen.ofBits h = none → ∀ a, Memory.read t.mem a = Memory.read s.mem a) ∧ t.ctx = s.ctx)

/-! ## Results, status and faults (10_state.md R33, 60_exceptions.md) -/

/-- R33: the status and the result after each command that does not fault; a command that faults leaves the status
unchanged; UPDATE and FINAL on an UNSPECIFIED context fault USE_AFTER_FAIL; a faulted engine makes no transition. -/
def Obligations.StatusTransitionsFollowTheTable : Prop :=
  ∀ (i : Instr) (s t : State), exec i s = .next t →
    (s.fault = true → t = s) ∧
    (s.fault = false → t.fault = true → Context.status t.ctx = Context.status s.ctx) ∧
    (s.fault = false → Context.status s.ctx = .UNSPECIFIED → (i = .update ∨ i = .final) →
      t.fault = true ∧ t.cause = .USE_AFTER_FAIL) ∧
    (s.fault = false → t.fault = false →
      match i with
      | .init h =>
        if h = 224 ∨ h = 256 ∨ h = 384 ∨ h = 512 then Context.status t.ctx = .ACCEPTING ∧ t.result = .SUCCESS
        else Context.status t.ctx = .INVALID ∧ t.result = .BAD_HASHBITLEN
      | .update =>
        match s.ctx with
        | .accepting x =>
          if Session.r x = 0 then Context.status t.ctx = .ACCEPTING ∧ t.result = .SUCCESS
          else Context.status t.ctx = .UNSPECIFIED ∧ t.result = .FAIL
        | .unspecified _ => False
        | _ => Context.status t.ctx = Context.status s.ctx ∧ t.result = .FAIL
      | .final =>
        match s.ctx with
        | .accepting _ => Context.status t.ctx = .FINALIZED ∧ t.result = .SUCCESS
        | .unspecified _ => False
        | _ => Context.status t.ctx = Context.status s.ctx ∧ t.result = .FAIL
      | .hash _ => Context.status t.ctx = Context.status s.ctx)

/-- R332: FAIL has exactly these causes, each with its state change: UPDATE or FINAL on an UNINIT, FINALIZED or INVALID
context changes nothing but RESULT; UPDATE on an ACCEPTING context with r ≠ 0 makes it UNSPECIFIED, and nothing else. -/
def Obligations.FailHasExactlyTheseCauses : Prop :=
  ∀ (i : Instr) (s t : State), s.fault = false → exec i s = .next t → t.fault = false →
    (t.result = .FAIL ↔
      ((i = .update ∨ i = .final) ∧
        (Context.status s.ctx = .UNINIT ∨ Context.status s.ctx = .FINALIZED ∨ Context.status s.ctx = .INVALID)) ∨
      (i = .update ∧ ∃ x, s.ctx = .accepting x ∧ Session.r x ≠ 0)) ∧
    (t.result = .FAIL →
      (Context.status s.ctx = .UNINIT ∨ Context.status s.ctx = .FINALIZED ∨ Context.status s.ctx = .INVALID) →
      t = { s with result := .FAIL }) ∧
    (t.result = .FAIL → ∀ x, s.ctx = .accepting x → t = { s with ctx := .unspecified x, result := .FAIL })

/-- R335, R336, R337: a command that faults leaves the state before the command plus the four fault fields, and each cause
comes with its condition and its info: USE_AFTER_FAIL from UPDATE or FINAL on an UNSPECIFIED context, with the command
word; MEM_BOUNDS from UPDATE, FINAL or HASH with the start address of the range that was not admitted, HASH's source
before its destination. -/
def Obligations.CommandFaultsArePrecise : Prop :=
  ∀ (i : Instr) (s t : State), s.fault = false → exec i s = .next t → t.fault = true →
    ∃ cause info, t = { s with fault := true, cause := cause, faultOp := i.op, faultInfo := info } ∧
      let srcOk := memAdmits s.launch s.srcAddr ((s.bitLen.toNat + 7) / 8)
      ((cause = .USE_AFTER_FAIL ∧ Context.status s.ctx = .UNSPECIFIED ∧
          ((i = .update ∧ info = 2) ∨ (i = .final ∧ info = 3))) ∨
        (cause = .MEM_BOUNDS ∧ i = .update ∧ Context.status s.ctx = .ACCEPTING ∧ srcOk = false ∧ info = s.srcAddr) ∨
        (cause = .MEM_BOUNDS ∧ i = .final ∧ info = s.dstAddr ∧
          ∃ x, s.ctx = .accepting x ∧ memAdmits s.launch s.dstAddr (DigestLen.bytes (Session.n x)) = false) ∨
        (cause = .MEM_BOUNDS ∧ ∃ n, i = .hash (DigestLen.bits n) ∧
          ((srcOk = false ∧ info = s.srcAddr) ∨
            (srcOk = true ∧ memAdmits s.launch s.dstAddr (DigestLen.bytes n) = false ∧ info = s.dstAddr))))

/-- R339: while STATUS.FAULT = 1 every CMD write is ignored, writes to the operand registers still take effect, reads
still return register values, and only reset clears the four fault fields. -/
def Obligations.FaultsAreStickyUntilReset : Prop :=
  ∀ s : State, s.fault = true →
    (∀ v, v < 2 ^ 32 → hostMove (wrReg .CMD v) s = .next s) ∧
    (∀ v : BitVec 64, hostMove (wrReg .SRC_ADDR v.toNat) s = .next { s with srcAddr := v } ∧
      hostMove (wrReg .BIT_LEN v.toNat) s = .next { s with bitLen := v } ∧
      hostMove (wrReg .DST_ADDR v.toNat) s = .next { s with dstAddr := v }) ∧
    (∀ r : Reg, ∃ t, hostMove (rdReg r) s = .next t ∧
      t.readLog = s.readLog ++ [{ off := BitVec.ofNat 64 (Reg.offset r), value := some (readValue s r) }]) ∧
    (∀ (m : HostMove) (t : State), m ≠ .reset → hostMove m s = .next t →
      t.fault = true ∧ t.cause = s.cause ∧ t.faultOp = s.faultOp ∧ t.faultInfo = s.faultInfo) ∧
    (∃ t, hostMove .reset s = .next t ∧
      t.fault = false ∧ t.cause = .NONE ∧ t.faultOp = 0 ∧ t.faultInfo = 0)

/-- A faulted engine does no work at all: whatever the host does but reset, `ctx`, `hctx` and RESULT stay as they are,
and no byte of host memory changes but one the host stores itself (R335, R339). -/
def Obligations.FaultedEngineTouchesNothing : Prop :=
  ∀ (m : HostMove) (s t : State), s.fault = true → m ≠ .reset → hostMove m s = .next t →
    t.ctx = s.ctx ∧ t.hctx = s.hctx ∧ t.result = s.result ∧
    ∀ a, (∀ b : Byte, m ≠ .store (BitVec.ofNat 64 a) b) → Memory.read t.mem a = Memory.read s.mem a

/-- R340: a fault condition that arises while STATUS.FAULT = 1 changes no fault field, and no other register: a read of
an unassigned offset yields no value, a write to a read-only register or an unassigned offset changes nothing. That this
holds for an access of every width and value at an unassigned offset is the model's choice (log 13, unsafe), as is which
offsets are unassigned beyond the window (log 12, DEDUCED). -/
def Obligations.FirstFaultWins : Prop :=
  ∀ s : State, s.fault = true →
    (∀ off width, Reg.at off = none → insideReg off = false →
      hostMove (.rd off width) s = .next { s with readLog := s.readLog ++ [{ off := off, value := none }] }) ∧
    (∀ off width v, Reg.at off = none → insideReg off = false → hostMove (.wr off width v) s = .next s) ∧
    (∀ v, v < 2 ^ 32 → hostMove (wrReg .RESULT v) s = .next s ∧ hostMove (wrReg .STATUS v) s = .next s) ∧
    (∀ v, v < 2 ^ 64 → hostMove (wrReg .FAULT_INFO v) s = .next s)

/-- R287: after a FINAL that returned SUCCESS, however many UPDATEs and FINALs follow, each returns FAIL and changes no
state but RESULT; so does one issued later, whatever the host and HASH changed in between. -/
def Obligations.FinalizedContextRejectsForEver : Prop :=
  ∀ s t : State, exec .final s = .next t → t.fault = false → t.result = .SUCCESS →
    (∀ cs : List Instr, (∀ c ∈ cs, c = .update ∨ c = .final) →
      execAll cs t = .next { t with result := if cs = [] then .SUCCESS else .FAIL }) ∧
    (∀ (u : State) (c : Instr), u.ctx = t.ctx → u.fault = false → (c = .update ∨ c = .final) →
      exec c u = .next { u with result := .FAIL })

/-- R286: a FINAL or HASH that returns SUCCESS writes exactly ceil(n/8) bytes, those of its digest, which then read back,
and nothing outside them; one that returns FAIL or BAD_HASHBITLEN, or faults, writes none. -/
def Obligations.DigestsHaveExactlyTheirLength : Prop :=
  ∀ (i : Instr) (s t : State), Memory.wf s.mem → s.fault = false → exec i s = .next t →
    (i = .final ∨ ∃ h, i = .hash h) →
    (t.fault = false → t.result = .SUCCESS →
      ∃ (n : DigestLen) (digest : List Byte),
        ((i = .final ∧ ∃ x, s.ctx = .accepting x ∧ Session.n x = n ∧ digest = Session.digest s.launch x) ∨
          (i = .hash (DigestLen.bits n) ∧ digest = hashDigest s n)) ∧
        digest.length = (DigestLen.bits n + 7) / 8 ∧
        memRead t.mem s.dstAddr.toNat ((DigestLen.bits n + 7) / 8) = digest ∧
        ∀ a, (a < s.dstAddr.toNat ∨ s.dstAddr.toNat + (DigestLen.bits n + 7) / 8 ≤ a) →
          Memory.read t.mem a = Memory.read s.mem a) ∧
    (t.fault = true ∨ t.result = .FAIL ∨ t.result = .BAD_HASHBITLEN → t.mem = s.mem)

/-! ## Whole sessions -/

/-- R282: for every supported length, message and destination, if no fault occurs, HASH leaves host memory as INIT, UPDATE
and FINAL on `ctx` would. -/
def Obligations.HashEqualsInitUpdateFinal : Prop :=
  ∀ (s : State) (n : DigestLen), s.fault = false → SrcAdmitted s → DstAdmitted s n →
    ∃ t1 t2 t3 u, exec (.init (DigestLen.bits n)) s = .next t1 ∧ exec .update t1 = .next t2 ∧
      exec .final t2 = .next t3 ∧ exec (.hash (DigestLen.bits n)) s = .next u ∧
      t3.fault = false ∧ t3.result = .SUCCESS ∧ u.fault = false ∧ u.result = .SUCCESS ∧ u.mem = t3.mem

/-- R285: a message fed in chunks, every chunk but the last a whole number of bytes, gives the same digest as one UPDATE
of the whole message, as host programs run step by step: both programs complete with SUCCESS and leave the same host
memory. -/
def Obligations.ChunkedUpdatesGiveTheSameDigest : Prop :=
  ∀ (s : State) (n : DigestLen) (src dst : Nat) (Ls : List Nat), s.fault = false →
    src < 2 ^ 64 → dst < 2 ^ 64 → Ls.sum < 2 ^ 64 → chunksOk s.launch src Ls →
    memAdmits s.launch (BitVec.ofNat 64 src) (bytesForBits Ls.sum) = true →
    memAdmits s.launch (BitVec.ofNat 64 dst) (DigestLen.bytes n) = true →
    ∃ t u, Host.Core.run core (sessionProgram n (chunkUpdates src Ls) dst).length
        { s with pending := sessionProgram n (chunkUpdates src Ls) dst } = .next t ∧
      Host.Core.run core (sessionProgram n [.updateOf src Ls.sum] dst).length
        { s with pending := sessionProgram n [.updateOf src Ls.sum] dst } = .next u ∧
      t.fault = false ∧ t.result = .SUCCESS ∧ u.fault = false ∧ u.result = .SUCCESS ∧ t.mem = u.mem

/-- R283: HASH never reads or writes `ctx`, and starts from a fresh scratch context: whatever stands in `ctx`, UNSPECIFIED
included, and whatever an earlier HASH left in `hctx`, HASH does the same to everything else and leaves `ctx` as it was.
What `hctx` holds afterwards is not stated. -/
def Obligations.HashIgnoresTheContext : Prop :=
  ∀ (h : Nat) (s t : State) (c : Context) (k : Option Context), exec (.hash h) s = .next t →
    ∃ k', exec (.hash h) { s with ctx := c, hctx := k } = .next { t with ctx := c, hctx := k' }

/-! ## The block buffer and padding (44_engine_commands.md R265 to R274) -/

/-- The source's UPDATE procedure (fill the buffer, compress, compress further full blocks from the input, buffer the
rest) leaves the same chaining value, counter, length, remainder, p and buf[0..p) as `absorb` (R268). -/
def Obligations.SourceProcedureEqualsAbsorb : Prop :=
  (∀ (cfg : CoreCfg 32) (x : HashState 32) (bs : List Byte), x.p < 64 →
    let a := absorb cfg x bs
    let b := absorbBySource cfg x bs
    a.cv = b.cv ∧ a.ctr = b.ctr ∧ a.T = b.T ∧ a.r = b.r ∧ a.p = b.p ∧ a.buf.toList.take a.p = b.buf.toList.take b.p) ∧
  (∀ (cfg : CoreCfg 64) (x : HashState 64) (bs : List Byte), x.p < 128 →
    let a := absorb cfg x bs
    let b := absorbBySource cfg x bs
    a.cv = b.cv ∧ a.ctr = b.ctr ∧ a.T = b.T ∧ a.r = b.r ∧ a.p = b.p ∧ a.buf.toList.take a.p = b.buf.toList.take b.p)

/-- The CF evaluations of R378, read off the block counter that each increments: absorbing adds floor((p + bytes)/B) and
leaves p at the rest; finishing adds 1 if p < B - 16, else 2. -/
def Obligations.CompressionCountsFollowTheTable : Prop :=
  (∀ (cfg : CoreCfg 32) (x : HashState 32) (bs : List Byte), x.p < 64 →
    (absorb cfg x bs).ctr = x.ctr + BitVec.ofNat (2 * 32) (updateCFCount 64 x.p (8 * bs.length)) ∧
    (absorb cfg x bs).p = (x.p + bs.length) % 64 ∧
    (finish cfg x).ctr = x.ctr + BitVec.ofNat (2 * 32) (finalCFCount 64 x.p)) ∧
  (∀ (cfg : CoreCfg 64) (x : HashState 64) (bs : List Byte), x.p < 128 →
    (absorb cfg x bs).ctr = x.ctr + BitVec.ofNat (2 * 64) (updateCFCount 128 x.p (8 * bs.length)) ∧
    (absorb cfg x bs).p = (x.p + bs.length) % 128 ∧
    (finish cfg x).ctr = x.ctr + BitVec.ofNat (2 * 64) (finalCFCount 128 x.p))

/-- R270: the byte that holds the padding bit: 0x80 with no partial byte; with r valid bits, those bits, the bit below
them set, the rest cleared. -/
def Obligations.PaddingBitFollowsTheLastMessageBit : Prop :=
  ∀ (b : Byte) (r : Nat), r < 8 →
    (padByte b 0 = 0x80) ∧
    (0 < r → ∀ i, i < 8 → (padByte b r).getLsbD i =
      (if 8 - r ≤ i then b.getLsbD i else decide (i = 7 - r)))

/-- The blocks FINAL compresses, byte for byte, and their counter values (R271 to R274). With room for the length field,
p ≤ B - 17: one block, the message tail, the pad byte, zeros and the length field, with ctr ⊕ fin. Without: the padded
tail with ctr, then zeros and the length field with (ctr + 1) ⊕ fin. The length field is the 16 bytes of T, byte i being
T[127-8i : 120-8i], the most significant first (R245). -/
def Obligations.FinalBlocksAreLaidOutAsPadded : Prop :=
  (∀ T : BitVec 128, (lenField T).length = 16 ∧ (BE 128 (lenField T) = T) ∧
    ∀ i, i < 16 → ((lenField T).getD i 0).toNat = T.toNat / 2 ^ (120 - 8 * i) % 256) ∧
  (∀ (cfg : CoreCfg 32) (x : HashState 32), x.p < 64 →
    let head := x.buf.toList.take x.p ++ [padByte (x.buf.toList.getD x.p 0) x.r]
    let fin := BitVec.ofNat (2 * 32) (cfg.finCtr0.toNat + cfg.finCtr1.toNat * 2 ^ 32)
    if x.p + 1 ≤ 64 - 16 then
      (finish cfg x).cv =
        CF cfg x.cv (head ++ List.replicate (47 - x.p) 0 ++ lenField x.T) (x.ctr ^^^ fin) ∧
      (finish cfg x).ctr = x.ctr + 1
    else
      (finish cfg x).cv =
        CF cfg (CF cfg x.cv (head ++ List.replicate (63 - x.p) 0) x.ctr)
          (List.replicate 48 0 ++ lenField x.T) ((x.ctr + 1) ^^^ fin) ∧
      (finish cfg x).ctr = x.ctr + 2) ∧
  (∀ (cfg : CoreCfg 64) (x : HashState 64), x.p < 128 →
    let head := x.buf.toList.take x.p ++ [padByte (x.buf.toList.getD x.p 0) x.r]
    let fin := BitVec.ofNat (2 * 64) (cfg.finCtr0.toNat + cfg.finCtr1.toNat * 2 ^ 64)
    if x.p + 1 ≤ 128 - 16 then
      (finish cfg x).cv =
        CF cfg x.cv (head ++ List.replicate (111 - x.p) 0 ++ lenField x.T) (x.ctr ^^^ fin) ∧
      (finish cfg x).ctr = x.ctr + 1
    else
      (finish cfg x).cv =
        CF cfg (CF cfg x.cv (head ++ List.replicate (127 - x.p) 0) x.ctr)
          (List.replicate 112 0 ++ lenField x.T) ((x.ctr + 1) ^^^ fin) ∧
      (finish cfg x).ctr = x.ctr + 2)

/-- The digest depends on the message only: buffer bytes above p, stale or unspecified, and the unused low bits of a
partial byte never change the chaining value FINAL serializes (R38, R265, R266, R270, R271; U14, U15). -/
def Obligations.DigestIgnoresWhatIsNotMessage : Prop :=
  (∀ (cfg : CoreCfg 32) (x y : HashState 32), x.p < 64 → x.r < 8 → y.p = x.p → y.r = x.r → y.cv = x.cv →
    y.ctr = x.ctr → y.T = x.T → y.buf.toList.take x.p = x.buf.toList.take x.p →
    (∀ i, 8 - x.r ≤ i → (y.buf.toList.getD x.p 0).getLsbD i = (x.buf.toList.getD x.p 0).getLsbD i) →
    (finish cfg y).cv = (finish cfg x).cv) ∧
  (∀ (cfg : CoreCfg 64) (x y : HashState 64), x.p < 128 → x.r < 8 → y.p = x.p → y.r = x.r → y.cv = x.cv →
    y.ctr = x.ctr → y.T = x.T → y.buf.toList.take x.p = x.buf.toList.take x.p →
    (∀ i, 8 - x.r ≤ i → (y.buf.toList.getD x.p 0).getLsbD i = (x.buf.toList.getD x.p 0).getLsbD i) →
    (finish cfg y).cv = (finish cfg x).cv)

/-- Truncation drops only whole trailing words: the digest is the bytes of the first 7, 8, 6 or 8 words of the finished
chaining value (R275, R177; 90_conflicts.md C11). -/
def Obligations.DigestIsTheLeadingWords : Prop :=
  (∀ (l : Launch) (n : Len32) (x : HashState 32), Session.digest l (.w32 n x) =
    toBEseq ((finish l.cfg32 x).cv.toList.take (match n with | .d224 => 7 | .d256 => 8))) ∧
  (∀ (l : Launch) (n : Len64) (x : HashState 64), Session.digest l (.w64 n x) =
    toBEseq ((finish l.cfg64 x).cv.toList.take (match n with | .d384 => 6 | .d512 => 8)))

/-! ## WordCodec and counters (41_word_codec.md, 43_length_counter.md) -/

/-- R174: decoding and encoding are inverse in both byte orders, and the orders differ by reversing the bytes; they agree
on all-zero and all-0xFF inputs. -/
def Obligations.WordCodecLaws : Prop :=
  ∀ w : Nat, w = 32 ∨ w = 64 →
    (∀ v : BitVec w, BE w (toBE v) = v ∧ LE w (toLE v) = v) ∧
    (∀ bs : List Byte, bs.length = w / 8 →
      toBE (BE w bs) = bs ∧ toLE (LE w bs) = bs ∧ LE w bs = BE w bs.reverse) ∧
    BE w (List.replicate (w / 8) 0) = LE w (List.replicate (w / 8) 0) ∧
    BE w (List.replicate (w / 8) 0xFF) = LE w (List.replicate (w / 8) 0xFF)

/-- R240: the length counter grows by the exact bit length, modulo 2^128. -/
def Obligations.LengthCounterAddsExactly : Prop :=
  ∀ (T : BitVec 128) (L : BitVec 64), (lenAdd T L).toNat = (T.toNat + L.toNat) % 2 ^ 128

/-- R242: the word-by-word carry chain gives the exact sum, in both classes, for every L; in W32 the 64-bit L spans
words 0 and 1 (90_conflicts.md C3). -/
def Obligations.LengthCarryChainIsExact : Prop :=
  ∀ (w : Nat) (T : BitVec 128) (L : BitVec 64), w = 32 ∨ w = 64 →
    lenAddWords w (lenWords w T) L = lenWords w (lenAdd T L)

/-- R207, R208: a compression increments the block counter, whatever counter value it injects: word 0 by one, with a carry
into word 1 when it becomes 0; from all ones it wraps to 0 (R209). -/
def Obligations.BlockCounterCarries : Prop :=
  ∀ (w : Nat) (cfg : CoreCfg w) (x : HashState w) (blk : List Byte) (c : BitVec (2 * w)), w = 32 ∨ w = 64 →
    let y := compress cfg x blk c
    y.ctr.toNat = (x.ctr.toNat + 1) % 2 ^ (2 * w) ∧
    ctrWord0 y.ctr = ctrWord0 x.ctr + 1 ∧
    ctrWord1 y.ctr = (if ctrWord0 y.ctr = 0 then ctrWord1 x.ctr + 1 else ctrWord1 x.ctr) ∧
    (ctrWord0 y.ctr, ctrWord1 y.ctr) = ctrIncWords (ctrWord0 x.ctr) (ctrWord1 x.ctr) ∧
    (x.ctr = BitVec.allOnes (2 * w) → y.ctr = 0) ∧
    y.cv = CF cfg x.cv blk c ∧ y.T = x.T ∧ y.buf = x.buf ∧ y.p = x.p ∧ y.r = x.r

/-! ## ConstantTables (40_constant_tables.md) -/

/-- `gmul` is the multiplication of the field GF(2^8) with modulus 0x11B (R141): 0 and 1 behave as such, it is commutative,
associative and distributes over XOR, every byte but 0 has an inverse (R142), and multiplying by x shifts left and
reduces an overflowing x^8 to x^4 + x^3 + x + 1, as in gmul(0x02, 0x80) = 0x1B. -/
def Obligations.GmulIsFieldMultiplication : Prop :=
  ∀ a b c : Byte, gmul 0 b = 0 ∧ gmul 1 b = b ∧ gmul a b = gmul b a ∧
    gmul (gmul a b) c = gmul a (gmul b c) ∧ gmul a (b ^^^ c) = gmul a b ^^^ gmul a c ∧
    (a ≠ 0 → ∃ d, gmul a d = 1) ∧
    gmul 0x02 a = (a <<< 1) ^^^ (if a.getLsbD 7 then 0x1B else 0) ∧ gmul 0x02 0x80 = 0x1B

/-- R142: the inverse is the unique one, ginv(0) = 0, and the log/antilog form gives the same byte. -/
def Obligations.GinvIsTheUniqueInverse : Prop :=
  ginv 0 = 0 ∧ ∀ a : Byte, ginvTables a = ginv a ∧
    (a ≠ 0 → gmul a (ginv a) = 1 ∧ ∀ b, gmul a b = 1 → b = ginv a)

/-- R144: the S-box ROM is, entry by entry, what R143 computes. -/
def Obligations.SboxRomIsTheFormula : Prop :=
  ∀ b : Byte, SBOX b = sboxFormula b

/-- R145: the S-box is a permutation of the 256 bytes and has no fixed point. -/
def Obligations.SboxIsAPermutationWithoutFixedPoints : Prop :=
  (∀ c : Byte, ∃ b, SBOX b = c ∧ ∀ a, SBOX a = c → a = b) ∧ ∀ b : Byte, SBOX b ≠ b

/-- R151: the table form of G and the matrix form compute the same function, for every configuration and input. -/
def Obligations.TableFormOfGEqualsMatrixForm : Prop :=
  (∀ (cfg : CoreCfg 32) (x : BitVec 32), G cfg x = GMatrix cfg x) ∧
  (∀ (cfg : CoreCfg 64) (x : BitVec 64), G cfg x = GMatrix cfg x)

/-! ## CompressionCore (42_compression_core.md) -/

/-- R192, R193: the 32 schedule words of a full block. -/
def Obligations.ScheduleWordsAreTheSpecs : Prop :=
  ∀ w : Nat, w = 32 ∨ w = 64 → ∀ (cfg : CoreCfg w) (blk : List Byte), blk.length = blockBytes w →
    (schedule cfg blk).length = 32 ∧
    (∀ i, i < 16 → (schedule cfg blk).getD i 0 =
      BE w ((blk.drop (i * wordBytes w)).take (wordBytes w))) ∧
    (∀ j : Fin 16, (schedule cfg blk).getD (16 + j) 0 =
      rotl ((schedule cfg blk).getD cfg.schedSrc[j].a 0 ^^^ (schedule cfg blk).getD cfg.schedSrc[j].b 0 ^^^
        (schedule cfg blk).getD cfg.schedSrc[j].c 0 ^^^ (schedule cfg blk).getD cfg.schedSrc[j].d 0 ^^^ cfg.k[j])
        cfg.schedRot[j])

/-- R199: in a well-formed configuration the two schedule words of step t go into two different words of the register,
slot SA of the first half and slot SE of the second, and into no other. -/
def Obligations.MessageWordsEnterTwoDisjointHalves : Prop :=
  ∀ (w : Nat) (cfg : CoreCfg w) (W : List (BitVec w)) (t : Fin 40) (R : Words w), CoreCfg.fieldsOk cfg = true →
    cfg.sa.val < 4 ∧ 4 ≤ cfg.se.val ∧
    (stepXor cfg W t R)[cfg.sa] = R[cfg.sa] ^^^ W.getD cfg.sigma[2 * t.val] 0 ∧
    (stepXor cfg W t R)[cfg.se] = R[cfg.se] ^^^ W.getD cfg.sigma[2 * t.val + 1] 0 ∧
    ∀ i : Fin 8, i ≠ cfg.sa → i ≠ cfg.se → (stepXor cfg W t R)[i] = R[i]

/-- The six injections of a step commute: any order of the six XORs gives the same register (R201, R211). -/
def Obligations.InjectionOrderDoesNotMatter : Prop :=
  ∀ (w : Nat) (cfg : CoreCfg w) (R : Words w) (order : List (Fin 8 × BitVec w)),
    order.Perm
      ((cfg.inj1.toList.map fun p => (p.slot, rotl (G cfg R[cfg.sa]) p.rot)) ++
        (cfg.inj2.toList.map fun p => (p.slot, rotl (G cfg R[cfg.se]) p.rot))) →
    order.foldl (fun X q => Words.xorAt X q.1 q.2) R = stepInject cfg R

/-- R203: the register rotation moves word i to position i + m modulo 8, and a step ends with it, by REGROT. -/
def Obligations.RegisterRotationMovesEachWord : Prop :=
  (∀ (w : Nat) (R : Words w) (m i : Fin 8), (rot8 R m)[i + m] = R[i]) ∧
  ∀ (w : Nat) (cfg : CoreCfg w) (W : List (BitVec w)) (t : Fin 40) (R : Words w) (i : Fin 8),
    (roundStep cfg W t R)[i + cfg.regRot] = (stepInject cfg (stepXor cfg W t R))[i]

/-- The round network is 20 steps, the first feed-forward with S0, and 20 more steps (R197, R202, R204, R206). -/
def Obligations.FirstFeedForwardStandsBetweenTheHalves : Prop :=
  ∀ (w : Nat) (cfg : CoreCfg w) (W : List (BitVec w)) (S0 : Words w),
    network cfg W S0 =
      (List.range 20).foldl (fun R t => roundStep cfg W (Fin.ofNat 40 (20 + t)) R)
        (Words.xor ((List.range 20).foldl (fun R t => roundStep cfg W (Fin.ofNat 40 t) R) S0) S0)

/-- The two readings of the second feed-forward differ by exactly the counter word in each CTR_SLOT and in no other word, so
not at all when the counter is 0 (R195, R205, R211). -/
def Obligations.SecondFeedForwardReadingsDifferOnlyInCounterSlots : Prop :=
  ∀ (w : Nat) (cfg : CoreCfg w) (cv : Words w) (blk : List Byte) (c : BitVec (2 * w)), cfg.ctrSlot0 ≠ cfg.ctrSlot1 →
    let m := CF { cfg with ff2Base := .mutated } cv blk c
    let o := CF { cfg with ff2Base := .original } cv blk c
    m[cfg.ctrSlot0] = o[cfg.ctrSlot0] ^^^ BitVec.ofNat w c.toNat ∧
    m[cfg.ctrSlot1] = o[cfg.ctrSlot1] ^^^ BitVec.ofNat w (c.toNat / 2 ^ w) ∧
    (∀ i : Fin 8, i ≠ cfg.ctrSlot0 → i ≠ cfg.ctrSlot1 → m[i] = o[i]) ∧
    (c = 0 → m = o)

/-- CF: counter word 0 and 1 are XORed into their slots of the chaining value, which gives S0; the network runs from S0 on
the block's schedule; the result is BASE XOR the network's register, BASE being S0 or the chaining value as FF2_BASE says
(R195, R196, R197, R205, R206). -/
def Obligations.CompressionIsBaseXorNetwork : Prop :=
  ∀ (w : Nat) (cfg : CoreCfg w) (cv : Words w) (blk : List Byte) (c : BitVec (2 * w)), cfg.ctrSlot0 ≠ cfg.ctrSlot1 →
    ∃ S0 : Words w,
      S0[cfg.ctrSlot0] = cv[cfg.ctrSlot0] ^^^ BitVec.ofNat w c.toNat ∧
      S0[cfg.ctrSlot1] = cv[cfg.ctrSlot1] ^^^ BitVec.ofNat w (c.toNat / 2 ^ w) ∧
      (∀ i : Fin 8, i ≠ cfg.ctrSlot0 → i ≠ cfg.ctrSlot1 → S0[i] = cv[i]) ∧
      ∀ i : Fin 8, (CF cfg cv blk c)[i] =
        (match cfg.ff2Base with
          | .mutated => S0[i]
          | .original => cv[i]) ^^^ (network cfg (schedule cfg blk) S0)[i]

/-! ## The register interface (10_state.md R45 to R55) and admission (20_memory.md R72) -/

/-- R54: a read of a register at its offset and width returns its value, CMD 0, whatever STATUS.FAULT is, and changes
nothing but what the host has read. -/
def Obligations.RegisterReadsReturnTheValue : Prop :=
  ∀ (s : State) (r : Reg),
    hostMove (rdReg r) s = .next { s with readLog := s.readLog ++
      [{ off := BitVec.ofNat 64 (Reg.offset r),
         value := some (match r with
          | .CMD => 0
          | .SRC_ADDR => s.srcAddr
          | .BIT_LEN => s.bitLen
          | .DST_ADDR => s.dstAddr
          | .RESULT => (resultWord s).setWidth 64
          | .STATUS => (statusWord s).setWidth 64
          | .FAULT_INFO => s.faultInfo) }] }

/-- R53: a value wider than the register is refused; the operand registers take a fitting value whatever STATUS.FAULT is;
a write to RESULT, STATUS, FAULT_INFO or an unassigned offset changes no register, and on an engine that is not faulted
it faults BAD_REG_ACCESS with the offset (on a faulted one nothing changes); a write to CMD performs the command of the
word. The model's own reading: a wide value is refused at a read-only register too, and at an unassigned offset neither
the width nor the value is looked at (log 13, DESIGN CHOICE, unsafe); which offsets are unassigned is log 12 (DEDUCED). -/
def Obligations.RegisterWritesFollowTheMap : Prop :=
  ∀ s : State,
    (∀ r v, 2 ^ (8 * AccessWidth.bytes (Reg.width r)) ≤ v → hostMove (wrReg r v) s = .refused .valueTooWide) ∧
    (∀ v : BitVec 32, hostMove (wrReg .CMD v.toNat) s = issueCmd v s) ∧
    (∀ v : BitVec 64, hostMove (wrReg .SRC_ADDR v.toNat) s = .next { s with srcAddr := v } ∧
      hostMove (wrReg .BIT_LEN v.toNat) s = .next { s with bitLen := v } ∧
      hostMove (wrReg .DST_ADDR v.toNat) s = .next { s with dstAddr := v }) ∧
    (∀ r v, (r = .RESULT ∨ r = .STATUS ∨ r = .FAULT_INFO) → v < 2 ^ (8 * AccessWidth.bytes (Reg.width r)) →
      (s.fault = false → hostMove (wrReg r v) s = .next { s with
        fault := true, cause := .BAD_REG_ACCESS, faultOp := 0, faultInfo := BitVec.ofNat 64 (Reg.offset r) }) ∧
      (s.fault = true → hostMove (wrReg r v) s = .next s)) ∧
    (∀ off width v, Reg.at off = none → insideReg off = false →
      (s.fault = false → hostMove (.wr off width v) s = .next { s with
        fault := true, cause := .BAD_REG_ACCESS, faultOp := 0, faultInfo := off }) ∧
      (s.fault = true → hostMove (.wr off width v) s = .next s))

/-- R55, R78: a read of an unassigned offset returns no value and faults BAD_REG_ACCESS with the offset; an access at a
misaligned address inside a register, or at another width than the register's, is refused. Offsets 0x04, 0x24 and 0x2C
are unassigned, 0x0C is inside SRC_ADDR. A host store is a byte-wide write at its offset where the address lies in the
register window, so it faults or is refused as such, and a write of that byte of memory elsewhere (R83; that it is a
host move is log 11, DEDUCED; that a window near the top of the space ends there, and is not continued at address 0, is
log 16, DESIGN CHOICE, unsafe). The model's own reading: a read of every width at an unassigned offset faults
(log 13, DESIGN CHOICE, unsafe), and every offset that starts no register and lies inside none, from 0x38 up too, is
unassigned, while one inside a register is misaligned (log 12, DEDUCED). -/
def Obligations.BadRegisterAccessesFaultOrAreRefused : Prop :=
  (∀ (s : State) (off : Addr) (width : AccessWidth), Reg.at off = none → insideReg off = false → s.fault = false →
    hostMove (.rd off width) s = .next { s with
      fault := true, cause := .BAD_REG_ACCESS, faultOp := 0, faultInfo := off,
      readLog := s.readLog ++ [{ off := off, value := none }] }) ∧
  (∀ (s : State) (off : Addr) (width : AccessWidth) (v : Nat), insideReg off = true →
    hostMove (.rd off width) s = .refused .misalignedAccess ∧
    hostMove (.wr off width v) s = .refused .misalignedAccess) ∧
  (∀ (s : State) (r : Reg) (width : AccessWidth) (v : Nat), width ≠ Reg.width r →
    hostMove (.rd (BitVec.ofNat 64 (Reg.offset r)) width) s = .refused .partialWidthAccess ∧
    hostMove (.wr (BitVec.ofNat 64 (Reg.offset r)) width v) s = .refused .partialWidthAccess) ∧
  (∀ off : Addr, (off = 0x04 ∨ off = 0x24 ∨ off = 0x2C ∨ 0x38 ≤ off.toNat) →
    Reg.at off = none ∧ insideReg off = false) ∧ insideReg 0x0C = true ∧
  (∀ (s : State) (off : Addr) (b : Byte), off.toNat < 0x38 → s.launch.regBase.toNat + off.toNat < 2 ^ 64 →
    hostMove (.store (s.launch.regBase + off) b) s = hostMove (.wr off .b8 b.toNat) s) ∧
  (∀ (s : State) (addr : Addr) (b : Byte),
    (addr.toNat < s.launch.regBase.toNat ∨ s.launch.regBase.toNat + 0x38 ≤ addr.toNat) →
    hostMove (.store addr b) s = .next { s with mem := Memory.write s.mem addr.toNat b })

/-- R50, R51: the fields of the RESULT and STATUS words, bit by bit, the reserved bits 0. -/
def Obligations.ResultAndStatusWordsHaveTheirFields : Prop :=
  ∀ s : State,
    (resultWord s).extractLsb' 0 2 = BitVec.ofNat 2
      (match s.result with | .SUCCESS => 0 | .FAIL => 1 | .BAD_HASHBITLEN => 2 | .NONE => 3) ∧
    (resultWord s).extractLsb' 2 30 = 0 ∧
    (statusWord s).extractLsb' 0 3 = BitVec.ofNat 3
      (match s.ctx with
        | .uninit => 0 | .accepting _ => 1 | .finalized _ => 2 | .invalid _ => 3 | .unspecified _ => 4) ∧
    (statusWord s).getLsbD 3 = s.fault ∧
    (statusWord s).extractLsb' 4 3 = BitVec.ofNat 3
      (match s.cause with
        | .NONE => 0 | .MEM_BOUNDS => 1 | .ILLEGAL_CMD => 2 | .USE_AFTER_FAIL => 3 | .BAD_REG_ACCESS => 4) ∧
    (statusWord s).getLsbD 7 = false ∧
    (statusWord s).extractLsb' 8 4 = s.faultOp ∧
    (statusWord s).extractLsb' 12 20 = 0

/-- The three values R72 fixes: an empty range is admitted; one that wraps, or that overlaps the register window, is not,
whatever the platform's rules. -/
def Obligations.AdmissionHasItsThreeFixedValues : Prop :=
  ∀ (l : Launch) (addr : Addr) (len : Nat),
    memAdmits l addr 0 = true ∧
    (0 < len → 2 ^ 64 < addr.toNat + len → memAdmits l addr len = false) ∧
    ((∃ a, addr.toNat ≤ a ∧ a < addr.toNat + len ∧ l.regBase.toNat ≤ a ∧ a < l.regBase.toNat + 0x38) →
      memAdmits l addr len = false)

/-- The command forms write `(hbl << 16) | op` to CMD, and the pseudo-instruction forms do what their commands do with the
operands in the registers (R104, R110). The value is a number without a bound (R15): with an hbl that does not fit the
16-bit field the CMD write is refused as too wide (R53), and no other command runs in its place. -/
def Obligations.AssemblyFormsExpandToTheirCommands : Prop :=
  ∀ (s : State) (src bitLen dst : BitVec 64) (hbl : Nat), s.fault = false →
    (Asm.expand (.cmd (.init hbl)) = [wrReg .CMD (hbl * 2 ^ 16 + 1)] ∧
      Asm.expand (.cmd .update) = [wrReg .CMD 2] ∧ Asm.expand (.cmd .final) = [wrReg .CMD 3] ∧
      Asm.expand (.cmd (.hash hbl)) = [wrReg .CMD (hbl * 2 ^ 16 + 4)]) ∧
    (hbl < 2 ^ 16 →
      Host.Core.run core 1 { s with pending := Asm.expand (.cmd (.init hbl)) } =
        exec (.init hbl) { s with pending := [] } ∧
      Host.Core.run core 4 { s with
          pending := Asm.expand (.hashOf hbl src.toNat bitLen.toNat dst.toNat) } =
        exec (.hash hbl) { s with srcAddr := src, bitLen := bitLen, dstAddr := dst, pending := [] }) ∧
    (2 ^ 16 ≤ hbl →
      Host.Core.run core 1 { s with pending := Asm.expand (.cmd (.init hbl)) } = .refused .valueTooWide ∧
      Host.Core.run core 4 { s with
          pending := Asm.expand (.hashOf hbl src.toNat bitLen.toNat dst.toNat) } = .refused .valueTooWide) ∧
    Host.Core.run core 3 { s with pending := Asm.expand (.updateOf src.toNat bitLen.toNat) } =
      exec .update { s with srcAddr := src, bitLen := bitLen, pending := [] } ∧
    Host.Core.run core 2 { s with pending := Asm.expand (.finalTo dst.toNat) } =
      exec .final { s with dstAddr := dst, pending := [] }
end

