-- ==== Sys2Proof/Laws/Buffer.lean ====
section
/-! SUPPORT. Laws of the block buffer and of the context's data fields: what storing bytes, compressing, absorbing and
feeding a message leave alone, and the bounds they keep. -/

namespace Sys2Proof.Machine

/-- Byte i after storing bytes at `a`: the stored byte inside the range, the old byte outside it. -/
theorem putBytes_getElem (buf : Buf) (a : Nat) (bs : List Byte) (i : Nat) (hi : i < 128) :
    (putBytes buf a bs)[i] = if a ≤ i ∧ i < a + bs.length then bs.getD (i - a) 0 else buf[i] := by
  induction bs generalizing buf a with
  | nil =>
    simp only [putBytes, List.length_nil, Nat.add_zero]
    rw [if_neg (by omega)]
  | cons b bs ih =>
    simp only [putBytes, ih, Vector.getElem_setIfInBounds, List.length_cons]
    by_cases h : a = i
    · subst h
      rw [if_neg (by omega), if_pos rfl, if_pos ⟨Nat.le_refl _, by omega⟩]
      simp
    · by_cases hin : a ≤ i ∧ i < a + (bs.length + 1)
      · have h2 : i - a = (i - (a + 1)) + 1 := by omega
        rw [if_pos (by omega), if_pos hin, h2]
        simp
      · rw [if_neg (by omega), if_neg h, if_neg hin]

/-- Byte i after a zero fill. -/
theorem zeroFill_getElem (buf : Buf) (a b : Nat) (i : Nat) (hi : i < 128) :
    (zeroFill buf a b)[i] = if a ≤ i ∧ i < b then 0 else buf[i] := by
  unfold zeroFill
  rw [putBytes_getElem]
  by_cases h : a ≤ i ∧ i < b
  · rw [if_pos (by simp; omega), if_pos h]
    simp only [List.getD_eq_getElem?_getD, List.getElem?_replicate]
    split <;> rfl
  · rw [if_neg (by simp; omega), if_neg h]

section Compress
variable {w : Nat} (cfg : CoreCfg w) (x : HashState w) (blk : List Byte) (c : BitVec (2 * w))

@[simp] theorem compress_cv : (compress cfg x blk c).cv = CF cfg x.cv blk c := rfl
@[simp] theorem compress_ctr : (compress cfg x blk c).ctr = x.ctr + 1 := rfl
@[simp] theorem compress_T : (compress cfg x blk c).T = x.T := rfl
@[simp] theorem compress_buf : (compress cfg x blk c).buf = x.buf := rfl
@[simp] theorem compress_p : (compress cfg x blk c).p = x.p := rfl
@[simp] theorem compress_r : (compress cfg x blk c).r = x.r := rfl

end Compress

section Absorb
variable {w : Nat} (cfg : CoreCfg w)

@[simp] theorem absorb_nil (x : HashState w) : absorb cfg x [] = x := rfl

@[simp] theorem absorb_cons (x : HashState w) (b : Byte) (bs : List Byte) :
    absorb cfg x (b :: bs) = absorb cfg (absorbByte cfg x b) bs := rfl

/-- Absorbing in two parts is absorbing the whole. -/
theorem absorb_append (x : HashState w) (as bs : List Byte) :
    absorb cfg x (as ++ bs) = absorb cfg (absorb cfg x as) bs := by
  simp [absorb, List.foldl_append]

/-- One byte: either the buffer did not fill, or it was compressed and is empty. -/
theorem absorbByte_cases (x : HashState w) (b : Byte) :
    (x.p + 1 ≠ blockBytes w ∧
      absorbByte cfg x b = { x with buf := x.buf.setIfInBounds x.p b, p := x.p + 1 }) ∨
    (x.p + 1 = blockBytes w ∧
      absorbByte cfg x b =
        { compress cfg { x with buf := x.buf.setIfInBounds x.p b, p := x.p + 1 }
            (block { x with buf := x.buf.setIfInBounds x.p b, p := x.p + 1 }) x.ctr with p := 0 }) := by
  by_cases h : x.p + 1 = blockBytes w
  · exact .inr ⟨h, by simp [absorbByte, h]⟩
  · exact .inl ⟨h, by simp [absorbByte, h]⟩

@[simp] theorem absorbByte_T (x : HashState w) (b : Byte) : (absorbByte cfg x b).T = x.T := by
  rcases absorbByte_cases cfg x b with ⟨_, h⟩ | ⟨_, h⟩ <;> rw [h] <;> rfl

@[simp] theorem absorbByte_r (x : HashState w) (b : Byte) : (absorbByte cfg x b).r = x.r := by
  rcases absorbByte_cases cfg x b with ⟨_, h⟩ | ⟨_, h⟩ <;> rw [h] <;> rfl

/-- A byte keeps the buffer short of full. -/
theorem absorbByte_p_lt (x : HashState w) (b : Byte) (h : x.p < blockBytes w) :
    (absorbByte cfg x b).p < blockBytes w := by
  rcases absorbByte_cases cfg x b with ⟨h1, h2⟩ | ⟨h1, h2⟩ <;> rw [h2]
  · show x.p + 1 < blockBytes w; omega
  · show 0 < blockBytes w; omega

@[simp] theorem absorb_T (x : HashState w) (bs : List Byte) : (absorb cfg x bs).T = x.T := by
  induction bs generalizing x with
  | nil => rfl
  | cons b bs ih => simp [ih]

@[simp] theorem absorb_r (x : HashState w) (bs : List Byte) : (absorb cfg x bs).r = x.r := by
  induction bs generalizing x with
  | nil => rfl
  | cons b bs ih => simp [ih]

/-- Absorbing keeps the buffer short of full (R39). -/
theorem absorb_p_lt (x : HashState w) (bs : List Byte) (h : x.p < blockBytes w) :
    (absorb cfg x bs).p < blockBytes w := by
  induction bs generalizing x with
  | nil => exact h
  | cons b bs ih => exact ih _ (absorbByte_p_lt cfg x b h)

@[simp] theorem feed_T (x : HashState w) (data : List Byte) (L : BitVec 64) :
    (feed cfg x data L).T = lenAdd x.T L := by
  unfold feed; dsimp only; split <;> simp

@[simp] theorem feed_p (x : HashState w) (data : List Byte) (L : BitVec 64) :
    (feed cfg x data L).p = (absorb cfg x (data.take (L.toNat / 8))).p := by
  unfold feed; dsimp only; split <;> rfl

@[simp] theorem feed_ctr (x : HashState w) (data : List Byte) (L : BitVec 64) :
    (feed cfg x data L).ctr = (absorb cfg x (data.take (L.toNat / 8))).ctr := by
  unfold feed; dsimp only; split <;> rfl

theorem feed_r (x : HashState w) (data : List Byte) (L : BitVec 64) :
    (feed cfg x data L).r = if L.toNat % 8 ≠ 0 then L.toNat % 8 else x.r := by
  unfold feed; dsimp only; split <;> simp

/-- Feeding a message keeps the buffer and remainder bounds (R32). -/
theorem feed_hashOk (x : HashState w) (data : List Byte) (L : BitVec 64) (h : hashOk x) :
    hashOk (feed cfg x data L) := by
  refine ⟨?_, ?_⟩
  · rw [feed_p]; exact absorb_p_lt cfg x _ h.1
  · rw [feed_r]; split
    · omega
    · exact h.2

end Absorb

/-- INIT's context holds legal values. -/
theorem initHash_hashOk {w : Nat} (iv : Words w) (draw : Nat) (hw : 8 ≤ w) : hashOk (initHash iv draw) := by
  refine ⟨?_, ?_⟩
  · show 0 < blockBytes w
    simp only [blockBytes, wordBytes]; omega
  · show 0 < 8; omega

/-- FINAL and HASH never write more than ceil(n/8) bytes. -/
theorem digest_length_le (l : Launch) (x : Session) :
    (Session.digest l x).length ≤ DigestLen.bytes (Session.n x) := by
  cases x <;> exact List.length_take_le _ _

/-- A digest never depends on the digest length's other class: `n` is kept by feeding. -/
@[simp] theorem Session.feed_n (l : Launch) (data : List Byte) (L : BitVec 64) (x : Session) :
    Session.n (Session.feed l data L x) = Session.n x := by
  cases x <;> rfl

@[simp] theorem Session.start_n (l : Launch) (draw : Nat) (n : DigestLen) :
    Session.n (Session.start l draw n) = n := by
  cases n <;> rfl

@[simp] theorem Session.afterFinal_n (draw : Nat) (x : Session) :
    Session.n (Session.afterFinal draw x) = Session.n x := by
  cases x <;> rfl

/-- Feeding a session keeps its bounds. -/
theorem Session.feed_ok (l : Launch) (data : List Byte) (L : BitVec 64) (x : Session) (h : sessionOk x) :
    sessionOk (Session.feed l data L x) := by
  cases x with
  | w32 n x => exact feed_hashOk l.cfg32 x data L h
  | w64 n x => exact feed_hashOk l.cfg64 x data L h

/-- INIT starts a session within its bounds. -/
theorem Session.start_ok (l : Launch) (draw : Nat) (n : DigestLen) : sessionOk (Session.start l draw n) := by
  cases n with
  | w32 n => exact initHash_hashOk _ _ (by omega)
  | w64 n => exact initHash_hashOk _ _ (by omega)

end Sys2Proof.Machine
end

