-- ==== Sys2Proof/Laws/State.lean ====
section
/-! SUPPORT. The small lemmas of every state update: one per field per update, so that no later proof unfolds a record
update. -/

namespace Sys2Proof.Machine

/-! ## setResult -/

@[simp] theorem setResult_launch (c : ResultCode) (s : State) : (setResult c s).launch = s.launch := rfl
@[simp] theorem setResult_ctx (c : ResultCode) (s : State) : (setResult c s).ctx = s.ctx := rfl
@[simp] theorem setResult_hctx (c : ResultCode) (s : State) : (setResult c s).hctx = s.hctx := rfl
@[simp] theorem setResult_srcAddr (c : ResultCode) (s : State) : (setResult c s).srcAddr = s.srcAddr := rfl
@[simp] theorem setResult_bitLen (c : ResultCode) (s : State) : (setResult c s).bitLen = s.bitLen := rfl
@[simp] theorem setResult_dstAddr (c : ResultCode) (s : State) : (setResult c s).dstAddr = s.dstAddr := rfl
@[simp] theorem setResult_result (c : ResultCode) (s : State) : (setResult c s).result = c := rfl
@[simp] theorem setResult_fault (c : ResultCode) (s : State) : (setResult c s).fault = s.fault := rfl
@[simp] theorem setResult_cause (c : ResultCode) (s : State) : (setResult c s).cause = s.cause := rfl
@[simp] theorem setResult_faultOp (c : ResultCode) (s : State) : (setResult c s).faultOp = s.faultOp := rfl
@[simp] theorem setResult_faultInfo (c : ResultCode) (s : State) : (setResult c s).faultInfo = s.faultInfo := rfl
@[simp] theorem setResult_mem (c : ResultCode) (s : State) : (setResult c s).mem = s.mem := rfl
@[simp] theorem setResult_pending (c : ResultCode) (s : State) : (setResult c s).pending = s.pending := rfl
@[simp] theorem setResult_readLog (c : ResultCode) (s : State) : (setResult c s).readLog = s.readLog := rfl
@[simp] theorem setResult_draws (c : ResultCode) (s : State) : (setResult c s).draws = s.draws := rfl

/-! ## logRead -/

@[simp] theorem logRead_launch (off : Addr) (v : Option (BitVec 64)) (s : State) : (logRead off v s).launch = s.launch := rfl
@[simp] theorem logRead_ctx (off : Addr) (v : Option (BitVec 64)) (s : State) : (logRead off v s).ctx = s.ctx := rfl
@[simp] theorem logRead_hctx (off : Addr) (v : Option (BitVec 64)) (s : State) : (logRead off v s).hctx = s.hctx := rfl
@[simp] theorem logRead_srcAddr (off : Addr) (v : Option (BitVec 64)) (s : State) : (logRead off v s).srcAddr = s.srcAddr := rfl
@[simp] theorem logRead_bitLen (off : Addr) (v : Option (BitVec 64)) (s : State) : (logRead off v s).bitLen = s.bitLen := rfl
@[simp] theorem logRead_dstAddr (off : Addr) (v : Option (BitVec 64)) (s : State) : (logRead off v s).dstAddr = s.dstAddr := rfl
@[simp] theorem logRead_result (off : Addr) (v : Option (BitVec 64)) (s : State) : (logRead off v s).result = s.result := rfl
@[simp] theorem logRead_fault (off : Addr) (v : Option (BitVec 64)) (s : State) : (logRead off v s).fault = s.fault := rfl
@[simp] theorem logRead_cause (off : Addr) (v : Option (BitVec 64)) (s : State) : (logRead off v s).cause = s.cause := rfl
@[simp] theorem logRead_faultOp (off : Addr) (v : Option (BitVec 64)) (s : State) : (logRead off v s).faultOp = s.faultOp := rfl
@[simp] theorem logRead_faultInfo (off : Addr) (v : Option (BitVec 64)) (s : State) : (logRead off v s).faultInfo = s.faultInfo := rfl
@[simp] theorem logRead_mem (off : Addr) (v : Option (BitVec 64)) (s : State) : (logRead off v s).mem = s.mem := rfl
@[simp] theorem logRead_pending (off : Addr) (v : Option (BitVec 64)) (s : State) : (logRead off v s).pending = s.pending := rfl
@[simp] theorem logRead_readLog (off : Addr) (v : Option (BitVec 64)) (s : State) : (logRead off v s).readLog = s.readLog ++ [{ off := off, value := v }] := rfl
@[simp] theorem logRead_draws (off : Addr) (v : Option (BitVec 64)) (s : State) : (logRead off v s).draws = s.draws := rfl

/-! ## raiseFault: the fields a fault leaves alone -/

@[simp] theorem raiseFault_launch (c : Cause) (op : BitVec 4) (info : BitVec 64) (s : State) :
    (raiseFault c op info s).launch = s.launch := by
  unfold raiseFault; split <;> rfl
@[simp] theorem raiseFault_ctx (c : Cause) (op : BitVec 4) (info : BitVec 64) (s : State) :
    (raiseFault c op info s).ctx = s.ctx := by
  unfold raiseFault; split <;> rfl
@[simp] theorem raiseFault_hctx (c : Cause) (op : BitVec 4) (info : BitVec 64) (s : State) :
    (raiseFault c op info s).hctx = s.hctx := by
  unfold raiseFault; split <;> rfl
@[simp] theorem raiseFault_srcAddr (c : Cause) (op : BitVec 4) (info : BitVec 64) (s : State) :
    (raiseFault c op info s).srcAddr = s.srcAddr := by
  unfold raiseFault; split <;> rfl
@[simp] theorem raiseFault_bitLen (c : Cause) (op : BitVec 4) (info : BitVec 64) (s : State) :
    (raiseFault c op info s).bitLen = s.bitLen := by
  unfold raiseFault; split <;> rfl
@[simp] theorem raiseFault_dstAddr (c : Cause) (op : BitVec 4) (info : BitVec 64) (s : State) :
    (raiseFault c op info s).dstAddr = s.dstAddr := by
  unfold raiseFault; split <;> rfl
@[simp] theorem raiseFault_result (c : Cause) (op : BitVec 4) (info : BitVec 64) (s : State) :
    (raiseFault c op info s).result = s.result := by
  unfold raiseFault; split <;> rfl
@[simp] theorem raiseFault_mem (c : Cause) (op : BitVec 4) (info : BitVec 64) (s : State) :
    (raiseFault c op info s).mem = s.mem := by
  unfold raiseFault; split <;> rfl
@[simp] theorem raiseFault_pending (c : Cause) (op : BitVec 4) (info : BitVec 64) (s : State) :
    (raiseFault c op info s).pending = s.pending := by
  unfold raiseFault; split <;> rfl
@[simp] theorem raiseFault_readLog (c : Cause) (op : BitVec 4) (info : BitVec 64) (s : State) :
    (raiseFault c op info s).readLog = s.readLog := by
  unfold raiseFault; split <;> rfl
@[simp] theorem raiseFault_draws (c : Cause) (op : BitVec 4) (info : BitVec 64) (s : State) :
    (raiseFault c op info s).draws = s.draws := by
  unfold raiseFault; split <;> rfl
@[simp] theorem raiseFault_fault (c : Cause) (op : BitVec 4) (info : BitVec 64) (s : State) :
    (raiseFault c op info s).fault = true := by
  unfold raiseFault; split <;> simp_all

/-! ## resetEngine -/

@[simp] theorem resetEngine_launch (s : State) : (resetEngine s).launch = s.launch := rfl
@[simp] theorem resetEngine_ctx (s : State) : (resetEngine s).ctx = .uninit := rfl
@[simp] theorem resetEngine_hctx (s : State) : (resetEngine s).hctx = none := rfl
@[simp] theorem resetEngine_srcAddr (s : State) : (resetEngine s).srcAddr = 0 := rfl
@[simp] theorem resetEngine_bitLen (s : State) : (resetEngine s).bitLen = 0 := rfl
@[simp] theorem resetEngine_dstAddr (s : State) : (resetEngine s).dstAddr = 0 := rfl
@[simp] theorem resetEngine_result (s : State) : (resetEngine s).result = .NONE := rfl
@[simp] theorem resetEngine_fault (s : State) : (resetEngine s).fault = false := rfl
@[simp] theorem resetEngine_cause (s : State) : (resetEngine s).cause = .NONE := rfl
@[simp] theorem resetEngine_faultOp (s : State) : (resetEngine s).faultOp = 0 := rfl
@[simp] theorem resetEngine_faultInfo (s : State) : (resetEngine s).faultInfo = 0 := rfl
@[simp] theorem resetEngine_mem (s : State) : (resetEngine s).mem = s.mem := rfl
@[simp] theorem resetEngine_pending (s : State) : (resetEngine s).pending = s.pending := rfl
@[simp] theorem resetEngine_readLog (s : State) : (resetEngine s).readLog = s.readLog := rfl
@[simp] theorem resetEngine_draws (s : State) : (resetEngine s).draws = s.draws := rfl

/-! ## State.reset -/

@[simp] theorem reset_launch : State.reset.launch = Config.launch.params := rfl
/-- The machine starts under a well-formed configuration (42_compression_core.md R210). -/
@[simp] theorem reset_launch_wf : Launch.wf State.reset.launch = true := Config.launch.ok
@[simp] theorem reset_ctx : State.reset.ctx = .uninit := rfl
@[simp] theorem reset_hctx : State.reset.hctx = none := rfl
@[simp] theorem reset_srcAddr : State.reset.srcAddr = 0 := rfl
@[simp] theorem reset_bitLen : State.reset.bitLen = 0 := rfl
@[simp] theorem reset_dstAddr : State.reset.dstAddr = 0 := rfl
@[simp] theorem reset_result : State.reset.result = .NONE := rfl
@[simp] theorem reset_fault : State.reset.fault = false := rfl
@[simp] theorem reset_cause : State.reset.cause = .NONE := rfl
@[simp] theorem reset_faultOp : State.reset.faultOp = 0 := rfl
@[simp] theorem reset_faultInfo : State.reset.faultInfo = 0 := rfl
@[simp] theorem reset_mem : State.reset.mem = [] := rfl
@[simp] theorem reset_pending : State.reset.pending = [] := rfl
@[simp] theorem reset_readLog : State.reset.readLog = [] := rfl
@[simp] theorem reset_draws : State.reset.draws = 0 := rfl

/-! ## withFetchWord -/

@[simp] theorem withFetchWord_launch (s : State) (nbits w : Nat) : (State.withFetchWord s nbits w).launch = s.launch := rfl
@[simp] theorem withFetchWord_ctx (s : State) (nbits w : Nat) : (State.withFetchWord s nbits w).ctx = s.ctx := rfl
@[simp] theorem withFetchWord_hctx (s : State) (nbits w : Nat) : (State.withFetchWord s nbits w).hctx = s.hctx := rfl
@[simp] theorem withFetchWord_srcAddr (s : State) (nbits w : Nat) : (State.withFetchWord s nbits w).srcAddr = s.srcAddr := rfl
@[simp] theorem withFetchWord_bitLen (s : State) (nbits w : Nat) : (State.withFetchWord s nbits w).bitLen = s.bitLen := rfl
@[simp] theorem withFetchWord_dstAddr (s : State) (nbits w : Nat) : (State.withFetchWord s nbits w).dstAddr = s.dstAddr := rfl
@[simp] theorem withFetchWord_result (s : State) (nbits w : Nat) : (State.withFetchWord s nbits w).result = s.result := rfl
@[simp] theorem withFetchWord_fault (s : State) (nbits w : Nat) : (State.withFetchWord s nbits w).fault = s.fault := rfl
@[simp] theorem withFetchWord_cause (s : State) (nbits w : Nat) : (State.withFetchWord s nbits w).cause = s.cause := rfl
@[simp] theorem withFetchWord_faultOp (s : State) (nbits w : Nat) : (State.withFetchWord s nbits w).faultOp = s.faultOp := rfl
@[simp] theorem withFetchWord_faultInfo (s : State) (nbits w : Nat) : (State.withFetchWord s nbits w).faultInfo = s.faultInfo := rfl
@[simp] theorem withFetchWord_mem (s : State) (nbits w : Nat) : (State.withFetchWord s nbits w).mem = s.mem := rfl
@[simp] theorem withFetchWord_pending (s : State) (nbits w : Nat) : (State.withFetchWord s nbits w).pending = wrReg .CMD (w % 2 ^ nbits) :: s.pending := rfl
@[simp] theorem withFetchWord_readLog (s : State) (nbits w : Nat) : (State.withFetchWord s nbits w).readLog = s.readLog := rfl
@[simp] theorem withFetchWord_draws (s : State) (nbits w : Nat) : (State.withFetchWord s nbits w).draws = s.draws := rfl

end Sys2Proof.Machine
end

