-- ==== Sys2Proof/Laws/Faults.lean ====
section
/-! SUPPORT. What entering a fault and issuing a command can do, said once. -/

namespace Sys2Proof.Machine

/-- The first fault is recorded in the four fault fields. -/
theorem raiseFault_clear (c : Cause) (op : BitVec 4) (info : BitVec 64) (s : State) (h : s.fault = false) :
    raiseFault c op info s = { s with fault := true, cause := c, faultOp := op, faultInfo := info } := by
  simp [raiseFault, h]

/-- A later fault changes nothing. -/
theorem raiseFault_set (c : Cause) (op : BitVec 4) (info : BitVec 64) (s : State) (h : s.fault = true) :
    raiseFault c op info s = s := by
  simp [raiseFault, h]

/-- Everything a fault can do. -/
theorem raiseFault_cases (c : Cause) (op : BitVec 4) (info : BitVec 64) (s : State) :
    (s.fault = true ∧ raiseFault c op info s = s) ∨
    (s.fault = false ∧
      raiseFault c op info s = { s with fault := true, cause := c, faultOp := op, faultInfo := info }) := by
  cases h : s.fault
  · exact .inr ⟨rfl, raiseFault_clear c op info s h⟩
  · exact .inl ⟨rfl, raiseFault_set c op info s h⟩

/-- A fault keeps the fault fields consistent. -/
theorem raiseFault_faultFieldsOk (c : Cause) (op : BitVec 4) (info : BitVec 64) (s : State) (hc : c ≠ .NONE)
    (h : faultFieldsOk s) : faultFieldsOk (raiseFault c op info s) := by
  rcases raiseFault_cases c op info s with ⟨_, h'⟩ | ⟨_, h'⟩
  · rwa [h']
  · rw [h']; exact ⟨fun hf => by simp at hf, fun _ => hc⟩

/-- A command issued to a faulted engine is ignored. -/
theorem performCmd_faulted (body : State → State) (s : State) (h : s.fault = true) :
    performCmd body s = .next s := by
  simp [performCmd, h]

/-- A command issued to an engine that is not faulted has its effect. -/
theorem performCmd_clear (body : State → State) (s : State) (h : s.fault = false) :
    performCmd body s = .next (body s) := by
  simp [performCmd, h]

/-- Everything issuing a command can do: it always answers a next state. -/
theorem performCmd_cases (body : State → State) (s t : State) (h : performCmd body s = .next t) :
    (s.fault = true ∧ t = s) ∨ (s.fault = false ∧ t = body s) := by
  cases hf : s.fault
  · rw [performCmd_clear body s hf] at h
    exact .inr ⟨rfl, by injection h with h; exact h.symm⟩
  · rw [performCmd_faulted body s hf] at h
    exact .inl ⟨rfl, by injection h with h; exact h.symm⟩

end Sys2Proof.Machine
end

