-- ==== Sys2Proof/Laws/Commands.lean ====
section
/-! SUPPORT. One equation per command and per case of its checks (60_exceptions.md R338), for an engine that is not
faulted: later proofs cite these instead of unfolding a meaning. -/

namespace Sys2Proof.Machine

section Init
variable {s : State}

theorem execInit_unsupported {h : Nat} (hf : FaultFree s) (hn : DigestLen.ofBits h = none) :
    execInit h s = .next (setResult .BAD_HASHBITLEN { s with ctx := .invalid (Context.session s.ctx) }) := by
  rw [execInit, performCmd_clear _ _ hf, hn]

theorem execInit_supported {h : Nat} {n : DigestLen} (hf : FaultFree s) (hn : DigestLen.ofBits h = some n) :
    execInit h s = .next (setResult .SUCCESS
      { s with ctx := .accepting (Session.start s.launch s.draws n), draws := s.draws + 1 }) := by
  rw [execInit, performCmd_clear _ _ hf, hn]

end Init

section Update
variable {s : State}

theorem execUpdate_unspecified {x : Session} (hf : FaultFree s) (hc : s.ctx = .unspecified x) :
    execUpdate s = .next (raiseFault .USE_AFTER_FAIL 0x2 0x00000002 s) := by
  rw [execUpdate, performCmd_clear _ _ hf]; simp only [hc]

theorem execUpdate_fail (hf : FaultFree s)
    (hc : Context.status s.ctx = .UNINIT ∨ Context.status s.ctx = .FINALIZED ∨ Context.status s.ctx = .INVALID) :
    execUpdate s = .next (setResult .FAIL s) := by
  rw [execUpdate, performCmd_clear _ _ hf]
  cases h : s.ctx <;> simp_all [Context.status]

theorem execUpdate_remainder {x : Session} (hf : FaultFree s) (hc : s.ctx = .accepting x) (hr : Session.r x ≠ 0) :
    execUpdate s = .next (setResult .FAIL { s with ctx := .unspecified x }) := by
  rw [execUpdate, performCmd_clear _ _ hf]; simp [hc, hr]

theorem execUpdate_bounds {x : Session} (hf : FaultFree s) (hc : s.ctx = .accepting x) (hr : Session.r x = 0)
    (ha : ¬ SrcAdmitted s) : execUpdate s = .next (raiseFault .MEM_BOUNDS 0x2 s.srcAddr s) := by
  rw [execUpdate, performCmd_clear _ _ hf]; simp_all [SrcAdmitted]

theorem execUpdate_success {x : Session} (hf : FaultFree s) (hc : s.ctx = .accepting x) (hr : Session.r x = 0)
    (ha : SrcAdmitted s) : execUpdate s = .next (setResult .SUCCESS { s with
      ctx := .accepting
        (Session.feed s.launch (memRead s.mem s.srcAddr.toNat (messageBytes s.bitLen)) s.bitLen x) }) := by
  rw [execUpdate, performCmd_clear _ _ hf]; simp_all [SrcAdmitted]

end Update

section Final
variable {s : State}

theorem execFinal_unspecified {x : Session} (hf : FaultFree s) (hc : s.ctx = .unspecified x) :
    execFinal s = .next (raiseFault .USE_AFTER_FAIL 0x3 0x00000003 s) := by
  rw [execFinal, performCmd_clear _ _ hf]; simp only [hc]

theorem execFinal_fail (hf : FaultFree s)
    (hc : Context.status s.ctx = .UNINIT ∨ Context.status s.ctx = .FINALIZED ∨ Context.status s.ctx = .INVALID) :
    execFinal s = .next (setResult .FAIL s) := by
  rw [execFinal, performCmd_clear _ _ hf]
  cases h : s.ctx <;> simp_all [Context.status]

theorem execFinal_bounds {x : Session} (hf : FaultFree s) (hc : s.ctx = .accepting x)
    (ha : ¬ DstAdmitted s (Session.n x)) : execFinal s = .next (raiseFault .MEM_BOUNDS 0x3 s.dstAddr s) := by
  rw [execFinal, performCmd_clear _ _ hf]; simp_all [DstAdmitted]

theorem execFinal_success {x : Session} (hf : FaultFree s) (hc : s.ctx = .accepting x)
    (ha : DstAdmitted s (Session.n x)) : execFinal s = .next (setResult .SUCCESS { s with
      mem := memWrite s.mem s.dstAddr.toNat (Session.digest s.launch x)
      ctx := .finalized (Session.afterFinal s.draws x)
      draws := s.draws + 1 }) := by
  rw [execFinal, performCmd_clear _ _ hf]; simp_all [DstAdmitted]

end Final

section Hash
variable {s : State}

theorem execHash_unsupported {h : Nat} (hf : FaultFree s) (hn : DigestLen.ofBits h = none) :
    execHash h s = .next (setResult .BAD_HASHBITLEN s) := by
  rw [execHash, performCmd_clear _ _ hf, hn]

theorem execHash_srcBounds {h : Nat} {n : DigestLen} (hf : FaultFree s) (hn : DigestLen.ofBits h = some n)
    (ha : ¬ SrcAdmitted s) : execHash h s = .next (raiseFault .MEM_BOUNDS 0x4 s.srcAddr s) := by
  rw [execHash, performCmd_clear _ _ hf]; simp_all [SrcAdmitted]

theorem execHash_dstBounds {h : Nat} {n : DigestLen} (hf : FaultFree s) (hn : DigestLen.ofBits h = some n)
    (hs : SrcAdmitted s) (ha : ¬ DstAdmitted s n) :
    execHash h s = .next (raiseFault .MEM_BOUNDS 0x4 s.dstAddr s) := by
  rw [execHash, performCmd_clear _ _ hf]; simp_all [SrcAdmitted, DstAdmitted]

theorem execHash_success {h : Nat} {n : DigestLen} (hf : FaultFree s) (hn : DigestLen.ofBits h = some n)
    (hs : SrcAdmitted s) (ha : DstAdmitted s n) : execHash h s = .next (setResult .SUCCESS { s with
      mem := memWrite s.mem s.dstAddr.toNat (hashDigest s n)
      hctx := some (freeContext s.draws)
      draws := s.draws + 1 }) := by
  rw [execHash, performCmd_clear _ _ hf]; simp_all [SrcAdmitted, DstAdmitted]

end Hash

/-- A command issued to a faulted engine is ignored, whichever it is (R339). -/
theorem exec_faulted (i : Instr) (s : State) (h : s.fault = true) : exec i s = .next s := by
  cases i <;> simp only [exec, execInit, execUpdate, execFinal, execHash] <;> exact performCmd_faulted _ s h

/-- The supported lengths and their bits (R262). -/
theorem ofBits_bits (n : DigestLen) : DigestLen.ofBits (DigestLen.bits n) = some n := by
  rcases n with n | n <;> cases n <;> rfl

/-- A length is supported exactly when it is one of the four (R262). -/
theorem ofBits_eq_some {h : Nat} {n : DigestLen} (hn : DigestLen.ofBits h = some n) : h = DigestLen.bits n := by
  unfold DigestLen.ofBits at hn
  split at hn
  · cases hn; assumption
  · split at hn
    · cases hn; assumption
    · split at hn
      · cases hn; assumption
      · split at hn
        · cases hn; assumption
        · cases hn

/-- The admitted ranges end inside the address space, unless they are empty (R72 (b)). -/
theorem memAdmits_bound {l : Launch} {a : Addr} {len : Nat} (h : memAdmits l a len = true) :
    a.toNat + len ≤ 2 ^ 64 := by
  have ha := a.isLt
  unfold memAdmits at h
  rw [Bool.or_eq_true] at h
  rcases h with h | h
  · have : len = 0 := by simpa using h
    omega
  · rw [Bool.and_eq_true, Bool.and_eq_true] at h
    simpa using h.1.1

end Sys2Proof.Machine
end

