-- ==== Sys2Proof/Laws/HostPort.lean ====
section
/-! SUPPORT. The register map, what a host move can do (said once, as an inductive predicate), and what a step can do. -/

namespace Sys2Proof.Machine

/-! ## The register map -/

/-- Each register is found at its own offset (R45). -/
@[simp] theorem regAt_offset (r : Reg) : Reg.at (BitVec.ofNat 64 (Reg.offset r)) = some r := by
  cases r <;> decide

/-- A full-width write of a fitting value to a register writes it. -/
theorem hostMove_wrReg (r : Reg) (v : Nat) (s : State) (h : v < 2 ^ (8 * AccessWidth.bytes (Reg.width r))) :
    hostMove (wrReg r v) s = writeTo r v s := by
  have : ¬ 2 ^ (8 * AccessWidth.bytes (Reg.width r)) ≤ v := by omega
  simp only [hostMove, wrReg, hostWrite, regAt_offset, ne_eq, not_true_eq_false, if_false, this]

/-- A full-width read of a register returns its value. -/
theorem hostMove_rdReg (r : Reg) (s : State) :
    hostMove (rdReg r) s = .next (logRead (BitVec.ofNat 64 (Reg.offset r)) (some (readValue s r)) s) := by
  simp only [hostMove, rdReg, hostRead, regAt_offset, ne_eq, not_true_eq_false, if_false]

/-- The number a well-formed command's form writes to CMD is its command word. -/
theorem cmdValue_eq_encode (i : Instr) (h : i.wf = true) : cmdValue i = (encode i).toNat := by
  have hb : i.hbl < 65536 := by
    cases i <;> simp only [Instr.wf, Instr.hblFits, decide_eq_true_eq] at h <;> simp only [Instr.hbl] <;> omega
  have hl : i.hbl <<< 16 < 4294967296 := by rw [Nat.shiftLeft_eq]; omega
  rw [encode, BitVec.toNat_or, BitVec.toNat_shiftLeft, BitVec.toNat_ofNat, BitVec.toNat_setWidth,
    Nat.mod_eq_of_lt (show i.hbl < 2 ^ 32 by omega), Nat.mod_eq_of_lt (show i.hbl <<< 16 < 2 ^ 32 by omega),
    Nat.mod_eq_of_lt (show i.op.toNat < 2 ^ 32 by omega), cmdValue]

/-- A command's HBL that does not fit its field makes the CMD write of its form too wide. -/
theorem cmdValue_too_wide (i : Instr) (h : 2 ^ 16 ≤ i.hbl) : 2 ^ 32 ≤ cmdValue i := by
  have : 2 ^ 32 ≤ i.hbl <<< 16 := by rw [Nat.shiftLeft_eq]; omega
  exact Nat.le_trans this Nat.left_le_or

/-! ## Everything a host move can do -/

/-- The ways in which a host move takes the state `s` to the state `t`. -/
inductive MoveEffect (s t : State) : Prop where
  /-- A CMD write to a faulted engine: nothing. -/
  | ignored (hf : s.fault = true) (ht : t = s)
  /-- A legal command is performed. -/
  | command (v : BitVec 32) (i : Instr) (hf : s.fault = false) (hd : decode v = .ok i) (ht : exec i s = .next t)
  /-- A fault is raised, by an illegal word or a bad register access; a bad read is noted first. -/
  | faulted (c : Cause) (op : BitVec 4) (info : BitVec 64) (hc : c ≠ .NONE) (ht : t = raiseFault c op info s)
  | badRead (off : Addr) (ht : t = raiseFault .BAD_REG_ACCESS 0 off (logRead off none s))
  /-- An operand register is written. -/
  | srcAddr (v : BitVec 64) (ht : t = { s with srcAddr := v })
  | bitLen (v : BitVec 64) (ht : t = { s with bitLen := v })
  | dstAddr (v : BitVec 64) (ht : t = { s with dstAddr := v })
  /-- A register is read. -/
  | read (off : Addr) (v : BitVec 64) (ht : t = logRead off (some v) s)
  /-- The host stores a byte outside the register window. -/
  | stored (a : Addr) (b : Byte) (hw : inWindow s.launch a.toNat = false)
      (ht : t = { s with mem := Memory.write s.mem a.toNat b })
  /-- The engine is reset. -/
  | reset (ht : t = resetEngine s)

theorem issueCmd_effect (v : BitVec 32) (s t : State) (h : issueCmd v s = .next t) : MoveEffect s t := by
  unfold issueCmd at h
  split at h
  · next hf => injection h with h; exact .ignored hf h.symm
  · next hf =>
    have hf : s.fault = false := by simpa using hf
    split at h
    · next i hd => exact .command v i hf hd h
    · injection h with h; exact .faulted .ILLEGAL_CMD _ _ (by decide) h.symm

theorem writeTo_effect (r : Reg) (v : Nat) (s t : State) (h : writeTo r v s = .next t) : MoveEffect s t := by
  cases r <;> simp only [writeTo] at h
  · exact issueCmd_effect _ s t h
  · injection h with h; exact .srcAddr _ h.symm
  · injection h with h; exact .bitLen _ h.symm
  · injection h with h; exact .dstAddr _ h.symm
  all_goals injection h with h; exact .faulted .BAD_REG_ACCESS _ _ (by decide) h.symm

theorem hostWrite_effect (off : Addr) (width : AccessWidth) (v : Nat) (s t : State)
    (h : hostWrite off width v s = .next t) : MoveEffect s t := by
  unfold hostWrite at h
  split at h
  · split at h
    · cases h
    · split at h
      · cases h
      · exact writeTo_effect _ _ s t h
  · split at h
    · cases h
    · injection h with h; exact .faulted .BAD_REG_ACCESS _ _ (by decide) h.symm

/-- Everything a host move can do when it answers a next state. -/
theorem hostMove_effect (m : HostMove) (s t : State) (h : hostMove m s = .next t) : MoveEffect s t := by
  cases m with
  | wr off width v => exact hostWrite_effect off width v s t h
  | rd off width =>
    simp only [hostMove, hostRead] at h
    split at h
    · split at h
      · cases h
      · injection h with h; exact .read _ _ h.symm
    · split at h
      · cases h
      · injection h with h; exact .badRead off h.symm
  | store addr b =>
    simp only [hostMove, hostStore] at h
    split at h
    · exact hostWrite_effect _ _ _ s t h
    · next hw => injection h with h; exact .stored addr b (by simpa using hw) h.symm
  | reset =>
    simp only [hostMove] at h
    injection h with h; exact .reset h.symm

/-! ## The step -/

/-- With no move left nothing happens. -/
theorem step_idle (s : State) (h : s.pending = []) : step s = .next s := by simp [step, h]

/-- The next move leaves the queue and is performed. -/
theorem step_move (s : State) (m : HostMove) (rest : List HostMove) (h : s.pending = m :: rest) :
    step s = hostMove m { s with pending := rest } := by simp [step, h]

/-- Everything a step can do when it answers a next state. -/
theorem step_cases (s t : State) (h : step s = .next t) :
    (s.pending = [] ∧ t = s) ∨
    (∃ m rest, s.pending = m :: rest ∧ MoveEffect { s with pending := rest } t) := by
  cases hp : s.pending with
  | nil => rw [step_idle s hp] at h; injection h with h; exact .inl ⟨rfl, h.symm⟩
  | cons m rest =>
    rw [step_move s m rest hp] at h
    exact .inr ⟨m, rest, rfl, hostMove_effect m _ t h⟩

end Sys2Proof.Machine
end

