-- ==== Sys2Proof/Laws/Memory.lean ====
section
/-! SUPPORT. Laws of host memory: reading back a write, what a write leaves alone, and that every operation keeps the
canonical form. -/

namespace Sys2Proof.Machine

/-- An address below every listed one reads as an unlisted byte. -/
theorem Memory.read_below (m : Memory) (y : Nat) (h : ∀ c ∈ m, y < c.1) : Memory.read m y = Memory.unlisted := by
  induction m with
  | nil => rfl
  | cons c m ih =>
    have hc : c.1 ≠ y := Nat.ne_of_gt (h c (by simp))
    simp only [Memory.read, hc, if_false]
    exact ih fun d hd => h d (by simp [hd])

/-- Reading any address after a write of one byte. -/
theorem Memory.read_write (m : Memory) (hs : m.Pairwise fun a b => a.1 < b.1) (a x : Nat) (b : Byte) :
    Memory.read (Memory.write m a b) x = if x = a then b else Memory.read m x := by
  induction m with
  | nil =>
    by_cases hb : b = Memory.unlisted <;> by_cases hx : x = a
    · simp [Memory.write, Memory.read, hb, hx]
    · simp [Memory.write, Memory.read, hb, hx]
    · simp [Memory.write, Memory.read, hb, hx]
    · simp [Memory.write, Memory.read, hb, hx, Ne.symm hx]
  | cons c m ih =>
    obtain ⟨k, v⟩ := c
    obtain ⟨hk, hm⟩ := List.pairwise_cons.1 hs
    have below : ∀ y : Nat, y ≤ k → Memory.read m y = Memory.unlisted := fun y hy =>
      Memory.read_below m y fun d hd => Nat.lt_of_le_of_lt hy (hk d hd)
    by_cases h1 : a < k
    · have hka : ¬ k = a := by omega
      by_cases hb : b = Memory.unlisted <;> by_cases hx : x = a
      · simp [Memory.write, h1, hb, Memory.read, hx, hka, below a (Nat.le_of_lt h1)]
      · simp [Memory.write, h1, hb, hx]
      · simp [Memory.write, h1, hb, Memory.read, hx]
      · simp [Memory.write, h1, hb, Memory.read, hx, Ne.symm hx]
    · by_cases h2 : a = k
      · subst h2
        by_cases hb : b = Memory.unlisted <;> by_cases hx : x = a
        · simp [Memory.write, hb, hx, below a (Nat.le_refl _)]
        · simp [Memory.write, hb, hx, Memory.read, Ne.symm hx]
        · simp [Memory.write, hb, hx, Memory.read]
        · simp [Memory.write, hb, hx, Memory.read, Ne.symm hx]
      · have hka : ¬ k = a := fun h => h2 h.symm
        have ih' := ih hm
        by_cases hx : x = a
        · subst hx
          simpa [Memory.write, h1, h2, Memory.read, hka] using ih'
        · simp only [hx, if_false] at ih'
          simp [Memory.write, h1, h2, Memory.read, hx, ih']

/-- A write leaves every other address alone, whatever form the memory has. -/
theorem Memory.read_write_other (m : Memory) (a x : Nat) (b : Byte) (hx : x ≠ a) :
    Memory.read (Memory.write m a b) x = Memory.read m x := by
  have hax : a ≠ x := fun h => hx h.symm
  induction m with
  | nil => by_cases hb : b = Memory.unlisted <;> simp [Memory.write, Memory.read, hb, hax]
  | cons c m ih =>
    obtain ⟨k, v⟩ := c
    by_cases h1 : a < k
    · by_cases hb : b = Memory.unlisted <;> simp [Memory.write, Memory.read, h1, hb, hax]
    · by_cases h2 : a = k
      · subst h2
        by_cases hb : b = Memory.unlisted <;> simp [Memory.write, Memory.read, hb, hax]
      · simp [Memory.write, Memory.read, h1, h2, ih]

/-- A write lists only the written address beside what was listed. -/
theorem Memory.mem_write (m : Memory) (a : Nat) (b : Byte) (c : Host.Cell) (h : c ∈ Memory.write m a b) :
    c ∈ m ∨ c = (a, b) := by
  induction m with
  | nil =>
    by_cases hb : b = Memory.unlisted <;> simp_all [Memory.write]
  | cons d m ih =>
    obtain ⟨k, v⟩ := d
    by_cases h1 : a < k
    · by_cases hb : b = Memory.unlisted
      · exact .inl (by simpa [Memory.write, h1, hb] using h)
      · have : c = (a, b) ∨ c = (k, v) ∨ c ∈ m := by simpa [Memory.write, h1, hb] using h
        rcases this with h | h | h
        · exact .inr h
        · exact .inl (by simp [h])
        · exact .inl (by simp [h])
    · by_cases h2 : a = k
      · by_cases hb : b = Memory.unlisted
        · have : c ∈ m := by simpa [Memory.write, h2, hb] using h
          exact .inl (by simp [this])
        · have : c = (a, b) ∨ c ∈ m := by simpa [Memory.write, h2, hb] using h
          rcases this with h | h
          · exact .inr h
          · exact .inl (by simp [h])
      · have : c = (k, v) ∨ c ∈ Memory.write m a b := by simpa [Memory.write, h1, h2] using h
        rcases this with h | h
        · exact .inl (by simp [h])
        · rcases ih h with h | h
          · exact .inl (by simp [h])
          · exact .inr h

/-- A write lists the written byte only where it differs from what an unlisted address reads as. -/
theorem Memory.write_ne_unlisted (m : Memory) (a : Nat) (b : Byte) (hm : ∀ c ∈ m, c.2 ≠ Memory.unlisted) :
    ∀ c ∈ Memory.write m a b, c.2 ≠ Memory.unlisted := by
  by_cases hb : b = Memory.unlisted
  · intro c hc
    -- writing the unlisted value lists nothing new
    have : c ∈ m := by
      clear hm
      induction m with
      | nil => simp [Memory.write, hb] at hc
      | cons d m ih =>
        obtain ⟨k, v⟩ := d
        by_cases h1 : a < k
        · simpa [Memory.write, h1, hb] using hc
        · by_cases h2 : a = k
          · have : c ∈ m := by simpa [Memory.write, h2, hb] using hc
            simp [this]
          · have : c = (k, v) ∨ c ∈ Memory.write m a b := by simpa [Memory.write, h1, h2] using hc
            rcases this with h | h
            · simp [h]
            · simp [ih h]
    exact hm c this
  · intro c hc
    rcases Memory.mem_write m a b c hc with h | h
    · exact hm c h
    · rw [h]; exact hb

/-- A write keeps the addresses strictly rising. -/
theorem Memory.write_sorted (m : Memory) (a : Nat) (b : Byte) (hs : m.Pairwise fun a b => a.1 < b.1) :
    (Memory.write m a b).Pairwise fun a b => a.1 < b.1 := by
  induction m with
  | nil => by_cases hb : b = Memory.unlisted <;> simp [Memory.write, hb]
  | cons d m ih =>
    obtain ⟨k, v⟩ := d
    obtain ⟨hk, hm⟩ := List.pairwise_cons.1 hs
    by_cases h1 : a < k
    · by_cases hb : b = Memory.unlisted
      · simpa [Memory.write, h1, hb] using hs
      · have : ∀ c ∈ m, a < c.1 := fun c hc => Nat.lt_trans h1 (hk c hc)
        simp only [Memory.write, h1, hb, if_true, if_false]
        refine List.pairwise_cons.2 ⟨?_, hs⟩
        intro c hc
        rcases List.mem_cons.1 hc with h | h
        · rw [h]; exact h1
        · exact this c h
    · by_cases h2 : a = k
      · subst h2
        by_cases hb : b = Memory.unlisted
        · simpa [Memory.write, hb] using hm
        · simp only [Memory.write, hb, Nat.lt_irrefl, if_true, if_false]
          exact List.pairwise_cons.2 ⟨hk, hm⟩
      · simp only [Memory.write, h1, h2, if_false]
        refine List.pairwise_cons.2 ⟨?_, ih hm⟩
        intro c hc
        rcases Memory.mem_write m a b c hc with h | h
        · exact hk c h
        · rw [h]; show k < a; omega

/-- A write to an address of the 64-bit space keeps the canonical form. -/
theorem Memory.write_wf (m : Memory) (a : Nat) (b : Byte) (ha : a < 2 ^ 64) (h : Memory.wf m) :
    Memory.wf (Memory.write m a b) := by
  refine ⟨Memory.write_sorted m a b h.1, fun c hc => ⟨?_, ?_⟩⟩
  · rcases Memory.mem_write m a b c hc with hc | hc
    · exact (h.2 c hc).1
    · rw [hc]; exact ha
  · exact Memory.write_ne_unlisted m a b (fun c hc => (h.2 c hc).2) c hc

/-- Memory right after reset lists nothing and is canonical. -/
theorem Memory.wf_nil : Memory.wf [] := by simp [Memory.wf]

/-- `MemWrite` keeps the addresses strictly rising. -/
theorem memWrite_sorted (m : Memory) (addr : Nat) (bs : List Byte) (hs : m.Pairwise fun a b => a.1 < b.1) :
    (memWrite m addr bs).Pairwise fun a b => a.1 < b.1 := by
  induction bs generalizing m addr with
  | nil => exact hs
  | cons b bs ih => exact ih _ _ (Memory.write_sorted m addr b hs)

/-- `MemWrite` inside the 64-bit space keeps the canonical form. -/
theorem memWrite_wf (m : Memory) (addr : Nat) (bs : List Byte) (ha : addr + bs.length ≤ 2 ^ 64)
    (h : Memory.wf m) : Memory.wf (memWrite m addr bs) := by
  induction bs generalizing m addr with
  | nil => exact h
  | cons b bs ih =>
    simp only [List.length_cons] at ha
    exact ih _ _ (by omega) (Memory.write_wf m addr b (by omega) h)

/-- What `MemWrite` stores and what it leaves alone: byte bs[i] at addr+i, every other byte as before. -/
theorem read_memWrite (m : Memory) (addr : Nat) (bs : List Byte) (hs : m.Pairwise fun a b => a.1 < b.1) (x : Nat) :
    Memory.read (memWrite m addr bs) x =
      if addr ≤ x ∧ x < addr + bs.length then bs.getD (x - addr) 0 else Memory.read m x := by
  induction bs generalizing m addr with
  | nil =>
    simp only [memWrite, List.length_nil, Nat.add_zero]
    rw [if_neg (by omega)]
  | cons b bs ih =>
    simp only [memWrite]
    rw [ih _ _ (Memory.write_sorted m addr b hs), Memory.read_write m hs]
    by_cases hx : x = addr
    · subst hx
      rw [if_neg (by omega), if_pos rfl, if_pos ⟨Nat.le_refl _, by simp⟩]
      simp
    · by_cases hin : addr ≤ x ∧ x < addr + (bs.length + 1)
      · have h1 : addr + 1 ≤ x ∧ x < addr + 1 + bs.length := by omega
        have h2 : x - addr = (x - (addr + 1)) + 1 := by omega
        rw [List.length_cons, if_pos h1, if_pos hin, h2, List.getD_cons_succ]
      · have h1 : ¬ (addr + 1 ≤ x ∧ x < addr + 1 + bs.length) := by omega
        rw [List.length_cons, if_neg h1, if_neg hx, if_neg hin]

/-- `MemWrite` leaves every address outside its range alone, whatever form the memory has. -/
theorem read_memWrite_other (m : Memory) (addr : Nat) (bs : List Byte) (x : Nat)
    (hx : x < addr ∨ addr + bs.length ≤ x) : Memory.read (memWrite m addr bs) x = Memory.read m x := by
  induction bs generalizing m addr with
  | nil => rfl
  | cons b bs ih =>
    simp only [List.length_cons] at hx
    simp only [memWrite]
    rw [ih _ _ (by omega), Memory.read_write_other m addr x b (by omega)]

/-- `MemRead` of n bytes has n bytes. -/
@[simp] theorem memRead_length (m : Memory) (addr n : Nat) : (memRead m addr n).length = n := by
  simp [memRead]

/-- Reading back the range just written gives the bytes written. -/
theorem memRead_memWrite (m : Memory) (addr : Nat) (bs : List Byte) (hs : m.Pairwise fun a b => a.1 < b.1) :
    memRead (memWrite m addr bs) addr bs.length = bs := by
  apply List.ext_getElem
  · simp
  · intro i h1 h2
    have : addr ≤ addr + i ∧ addr + i < addr + bs.length := by omega
    simp [memRead, read_memWrite m addr bs hs, h2]

/-- Reading two adjacent ranges is reading their union. -/
theorem memRead_append (m : Memory) (addr n k : Nat) :
    memRead m addr (n + k) = memRead m addr n ++ memRead m (addr + n) k := by
  simp [memRead, List.range_add, Function.comp_def, Nat.add_assoc]

end Sys2Proof.Machine
end

