-- ==== Sys2Proof/Laws/PerInstr.lean ====
section
/-! SUPPORT. Families of statements about every instruction as syntax, one lemma per constructor. -/

namespace Sys2Proof.Laws

/-- A command's word carries its own OP value, and no RSVD bit (30_encoding.md R101, R102). -/
def OpField.Statement (i : Instr) : Prop := cmdOp (encode i) = i.op ∧ cmdRsvd (encode i) = 0

theorem OpField.low_bits (h : Nat) (op : BitVec 4) :
    cmdOp ((BitVec.ofNat 32 h <<< 16) ||| op.setWidth 32) = op ∧
      cmdRsvd ((BitVec.ofNat 32 h <<< 16) ||| op.setWidth 32) = 0 := by
  constructor
  · apply BitVec.eq_of_getLsbD_eq
    intro i hi
    have : i < 16 := by omega
    simp [cmdOp, hi, this, show i < 32 by omega]
  · apply BitVec.eq_of_getLsbD_eq
    intro i hi
    have h1 : 4 + i < 16 := by omega
    simp [cmdRsvd, h1]

theorem OpField.init (h : Nat) : OpField.Statement (.init h) := OpField.low_bits h 0x1
theorem OpField.update : OpField.Statement .update := OpField.low_bits 0 0x2
theorem OpField.final : OpField.Statement .final := OpField.low_bits 0 0x3
theorem OpField.hash (h : Nat) : OpField.Statement (.hash h) := OpField.low_bits h 0x4

end Sys2Proof.Laws
end

