-- ==== Sys2Proof/Tests/Slice0.lean ====
section
/-! SUPPORT. Small tests, and for every statement with hypotheses a witness that meets them. Expected values come from
95_test_vectors.md (V-…, its test configuration TC1 and platform TP1) and from the rules' own examples. -/

namespace Sys2Proof.Tests

open Sys2Proof Sys2Proof.Machine

/-! ## TC1 and TP1 (95_test_vectors.md section 0) -/

def sched1 : Vector SchedSrc 16 :=
  Vector.ofFn fun j => ⟨Fin.ofNat 16 j, Fin.ofNat 16 (j + 3), Fin.ofNat 16 (j + 7), Fin.ofNat 16 (j + 12)⟩

def sigma1 : Vector (Fin 32) 80 := Vector.ofFn fun k => Fin.ofNat 32 (7 * k.val + 3)

def iv1 (w n c : Nat) : Words w := Vector.ofFn fun i => BitVec.ofNat w (c * (i.val + 1)) ^^^ BitVec.ofNat w n

def tc32 : CoreCfg 32 where
  ivShort := iv1 32 224 0x01010101
  ivLong := iv1 32 256 0x01010101
  k := Vector.ofFn fun j => BitVec.ofNat 32 (0x9E3779B9 * (j.val + 1))
  schedSrc := sched1
  schedRot := Vector.ofFn fun j => [5, 11, 19, 31].getD (j.val % 4) 0
  sigma := sigma1
  sa := 0
  se := 4
  inj1 := #v[⟨1, 13⟩, ⟨2, 23⟩, ⟨3, 29⟩]
  inj2 := #v[⟨5, 3⟩, ⟨6, 11⟩, ⟨7, 19⟩]
  regRot := 1
  ctrSlot0 := 0
  ctrSlot1 := 4
  finCtr0 := 0xA5A5A5A5
  finCtr1 := 0x5A5A5A5A
  mds := circulant 4 [2, 3, 1, 1]
  ff2Base := .mutated

def tc64 : CoreCfg 64 where
  ivShort := iv1 64 384 0x0101010101010101
  ivLong := iv1 64 512 0x0101010101010101
  k := Vector.ofFn fun j => BitVec.ofNat 64 (0x9E3779B97F4A7C15 * (j.val + 1))
  schedSrc := sched1
  schedRot := Vector.ofFn fun j => [7, 19, 37, 53].getD (j.val % 4) 0
  sigma := sigma1
  sa := 0
  se := 4
  inj1 := #v[⟨1, 29⟩, ⟨2, 41⟩, ⟨3, 53⟩]
  inj2 := #v[⟨5, 5⟩, ⟨6, 17⟩, ⟨7, 43⟩]
  regRot := 1
  ctrSlot0 := 0
  ctrSlot1 := 4
  finCtr0 := 0xA5A5A5A5A5A5A5A5
  finCtr1 := 0x5A5A5A5A5A5A5A5A
  mds := circulant 8 [1, 1, 4, 1, 8, 5, 2, 9]
  ff2Base := .mutated

/-- TC1 on TP1. -/
def tp1 : Launch := ⟨tc32, tc64, 0xF0000000, [.region 0 0x10000]⟩

/-! ## Small states -/

/-- A buffer that holds the given bytes and then zeros. -/
def bufOf (bs : List Byte) : Buf := Vector.ofFn fun i => bs.getD i 0

/-- A 256-bit session with `p` whole bytes and `r` bits in the buffer. -/
def x32 (bs : List Byte) (p r : Nat) : HashState 32 :=
  ⟨tc32.ivLong, 0, BitVec.ofNat 128 (8 * p + r), bufOf bs, p, r⟩

/-- A 512-bit session with `p` whole bytes and `r` bits in the buffer. -/
def x64 (bs : List Byte) (p r : Nat) : HashState 64 :=
  ⟨tc64.ivLong, 0, BitVec.ofNat 128 (8 * p + r), bufOf bs, p, r⟩

def abc : List Byte := [0x61, 0x62, 0x63]

/-- An engine on TP1 with the given context, source, length and destination. -/
def engine (c : Context) (src bitLen dst : BitVec 64) : State :=
  { State.reset with launch := tp1, ctx := c, srcAddr := src, bitLen := bitLen, dstAddr := dst }

def open256 : Context := .accepting (.w32 .d256 (x32 abc 3 0))
def odd256 : Context := .accepting (.w32 .d256 (x32 [0xB7] 0 5))
def bad256 : Context := .unspecified (.w32 .d256 (x32 [0xB7] 0 5))
def done256 : Context := .finalized (.w32 .d256 (x32 [] 0 0))

/-- A faulted engine. -/
def faulted : State := { engine open256 0xFFF8 128 0 with
  fault := true, cause := .MEM_BOUNDS, faultOp := 2, faultInfo := 0xFFF8 }

/-- STATUS, FAULT_INFO and RESULT after an outcome. -/
def seen : Host.Outcome State Fault Refusal → Option (BitVec 32 × BitVec 64 × BitVec 32)
  | .next s => some (statusWord s, s.faultInfo, resultWord s)
  | _ => none

/-! ## Well-formedness: each check refuses an ill-formed term -/

theorem test_wf_refuses_wide_init : Instr.wf (.init 65536) = false := by decide
theorem test_wf_refuses_wide_hash : Instr.wf (.hash 65536) = false := by decide
theorem test_wf_admits_the_widest : Instr.wf (.init 65535) = true ∧ Instr.wf (.hash 65535) = true := by decide

theorem test_tc32_is_well_formed : CoreCfg.wf tc32 = true := by decide +kernel
theorem test_fields_refused :
    CoreCfg.fieldsOk { tc32 with schedRot := tc32.schedRot.set 7 32 } = false ∧
    CoreCfg.fieldsOk { tc32 with sa := 4 } = false ∧ CoreCfg.fieldsOk { tc32 with se := 3 } = false ∧
    CoreCfg.fieldsOk { tc32 with inj1 := #v[⟨1, 13⟩, ⟨0, 23⟩, ⟨3, 29⟩] } = false ∧
    CoreCfg.fieldsOk { tc32 with inj2 := #v[⟨5, 3⟩, ⟨6, 11⟩, ⟨5, 19⟩] } = false ∧
    CoreCfg.fieldsOk { tc32 with inj2 := #v[⟨5, 3⟩, ⟨6, 32⟩, ⟨7, 19⟩] } = false ∧
    CoreCfg.fieldsOk { tc32 with regRot := 0 } = false ∧
    CoreCfg.fieldsOk { tc32 with ctrSlot1 := 0 } = false := by decide +kernel
theorem test_mds_refuses_a_singular_matrix :
    CoreCfg.mdsOk { tc32 with mds := tc32.mds.set 2 #v[1, 1, 0, 3] } = false := by decide +kernel

/-! ## Decoding: words written bit by bit from R100 and R101 (HBL, RSVD, OP) -/

theorem test_decode_init_256 : decode (0b0000000100000000#16 ++ 0b000000000000#12 ++ 0b0001#4) = .ok (.init 256) := rfl
theorem test_decode_update : decode (0b0000000000000000#16 ++ 0b000000000000#12 ++ 0b0010#4) = .ok .update := rfl
theorem test_decode_final : decode (0b0000000000000000#16 ++ 0b000000000000#12 ++ 0b0011#4) = .ok .final := rfl
theorem test_decode_hash_512 : decode (0b0000001000000000#16 ++ 0b000000000000#12 ++ 0b0100#4) = .ok (.hash 512) := rfl
theorem test_decode_table_word : decodeTableWord 32 0xFFFF0001 = some (.init 65535) ∧
    decodeTableWord 32 0x00000005 = none ∧ decodeTableWord 32 0x01000002 = none := by decide

/-! ## Component functions -/

/-- V-GF-1, 2, 4, 5 and 9. -/
theorem test_field : gmul 0x02 0x80 = 0x1B ∧ gmul 0x57 0x83 = 0xC1 ∧ gmul 0x03 0xFF = 0x1A ∧ gmul 0x09 0x53 = 0xFD ∧
    ginv 0x53 = 0xCA := by decide +kernel
/-- V-SB-3 and 4. -/
theorem test_sbox : SBOX 0x53 = 0xED ∧ SBOX 0xFF = 0x16 := by decide +kernel
/-- V-G-4 and V-G-10. -/
theorem test_G : G tc32 0x01234567 = 0x790712DD ∧ G tc64 0x0123456789ABCDEF = 0xDE9BC746B6ED5FFA := by decide +kernel
/-- V-COD-1, 2, 4 and 6. -/
theorem test_codec : BE 32 [0x61, 0x62, 0x63, 0x80] = 0x61626380 ∧ LE 32 [0x61, 0x62, 0x63, 0x80] = 0x80636261 ∧
    toLE (0x0A0B0C0D : BitVec 32) = [0x0D, 0x0C, 0x0B, 0x0A] ∧
    toBE (0x0123456789ABCDEF : BitVec 64) = [0x01, 0x23, 0x45, 0x67, 0x89, 0xAB, 0xCD, 0xEF] := by decide +kernel
/-- V-LEN-2, 4 and 7. -/
theorem test_length : lenAddWords 32 [0xFFFFFFFF, 0, 0, 0] 1 = [0, 1, 0, 0] ∧
    lenAddWords 32 [0, 0, 0, 0] 0xFFFFFFFFFFFFFFFF = [0xFFFFFFFF, 0xFFFFFFFF, 0, 0] ∧
    lenAdd 0xFFFFFFFFFFFFFFFF 0xFFFFFFFFFFFFFFFF = 0x1FFFFFFFFFFFFFFFE := by decide +kernel
/-- V-SCH-2 (the last word) and V-CF, the row "after step 0". -/
theorem test_first_round_step :
    let W := schedule tc32 (abc ++ [0x80] ++ List.replicate 59 0 ++ [0x18])
    W.getD 31 0 = 0x71bbcdc4 ∧
    roundStep tc32 W 0 (injectCtr tc32 tc32.ivLong 0x5A5A5A5AA5A5A5A5) =
      #v[0xdacaca67, 0xa4a4a5a4, 0x18e2c3d1, 0x80004e68, 0xc4d71fe4, 0x5f5f5e5f, 0xc569d5c4, 0x68d5c4c4] := by
  decide +kernel
/-- V-PAD-3 and V-PAD-6. -/
theorem test_padding : padByte 0xB7 5 = 0xB4 ∧ padByte 0xFE 7 = 0xFF ∧ padByte 0x55 0 = 0x80 := by decide
/-- V-DIG-1: the digest of "abc" at n = 256. -/
theorem test_digest_abc : Session.digest tp1 (.w32 .d256 (x32 abc 3 0)) =
    [0xdf, 0x9a, 0x11, 0xaa, 0x5d, 0x84, 0x9a, 0xde, 0x62, 0x61, 0x11, 0xd2, 0x43, 0xab, 0xf0, 0xfe] ++
    [0xcf, 0x4a, 0x98, 0xf6, 0x44, 0x07, 0x77, 0x92, 0xcd, 0xcb, 0x43, 0x64, 0x53, 0x86, 0xcf, 0xeb] := by
  decide +kernel

/-! ## The commands, from the state named -/

/-- V-DEC-7 and V-DEC-3, run from reset. -/
theorem test_init_from_reset :
    seen (step (State.reset.withFetchWord 32 0x012C0001)) = some (0x003, 0, 2) ∧
    seen (step (State.reset.withFetchWord 32 0x00E00001)) = some (0x001, 0, 0) := by decide
/-- V-FSM-3 and V-FSM-11. -/
theorem test_init_reinitialises : seen (exec (.init 300) (engine open256 0 0 0)) = some (0x003, 0, 2) ∧
    seen (exec (.init 512) (engine bad256 0 0 0)) = some (0x001, 0, 0) := by decide
/-- V-FSM-8 and V-FSM-10. -/
theorem test_update_after_remainder : seen (exec .update (engine odd256 0 0 0)) = some (0x004, 0, 1) ∧
    seen (exec .update (engine bad256 0 0 0)) = some (0x23C, 2, 3) := by decide
/-- V-FLT-4, and V-FSM-13: the state check comes first. -/
theorem test_update_bounds : seen (exec .update (engine open256 0xFFF8 128 0)) = some (0x219, 0xFFF8, 3) ∧
    seen (exec .update (engine done256 0xFFF8 128 0)) = some (0x002, 0, 1) := by decide
/-- V-FSM-5 and V-FSM-7. -/
theorem test_final_once : seen (exec .final (engine open256 0 0 0x2000)) = some (0x002, 0, 0) ∧
    seen (exec .final (engine done256 0 0 0x2000)) = some (0x002, 0, 1) := by decide
/-- V-FLT-5. -/
theorem test_final_bounds : seen (exec .final (engine open256 0 0 0xFFF0)) = some (0x319, 0xFFF0, 3) := by decide
/-- V-DEC-16 and V-FSM-12. -/
theorem test_hash_beside_the_context : seen (exec (.hash 300) (engine .uninit 0 0 0)) = some (0x000, 0, 2) ∧
    seen (exec (.hash 256) (engine bad256 0x1000 24 0x2000)) = some (0x004, 0, 0) := by decide
/-- V-FLT-6: the source range is checked first. -/
theorem test_hash_bounds : seen (exec (.hash 256) (engine .uninit 0x20000 8 0x30000)) = some (0x418, 0x20000, 3) := by
  decide

/-- R110, R53: an hbl beyond 16 bits makes the CMD write of INIT 65792 too wide; it does not run INIT 256. -/
theorem test_wide_hbl_is_refused :
    step { State.reset with pending := Asm.expand (.cmd (.init 65792)) } = .refused .valueTooWide := by rfl

/-- V-DEC-9, V-FLT-1, V-FLT-2 and V-FLT-7. -/
theorem test_faults : seen (step (State.reset.withFetchWord 32 0x01000011)) = some (0x128, 0x01000011, 3) ∧
    seen (hostMove (wrReg .RESULT 0) State.reset) = some (0x048, 0x20, 3) ∧
    seen (hostMove (.rd 0x04 .b32) State.reset) = some (0x048, 0x04, 3) ∧
    seen (hostMove (wrReg .CMD 0x01000001) faulted) = some (0x219, 0xFFF8, 3) := by decide

/-! ## Witnesses: for each statement with hypotheses, states and operands that meet them together -/

theorem witness_decode_of_encode : Instr.wf (.init 0) = true ∧ Instr.wf (.init 65535) = true ∧
    Instr.wf .update = true ∧ Instr.wf .final = true ∧ Instr.wf (.hash 65535) = true := by decide

theorem witness_encode_of_decode : decode 0xFFFF0001 = .ok (.init 65535) ∧ decode 0x00000004 = .ok (.hash 0) :=
  ⟨rfl, rfl⟩

theorem witness_illegal_words : State.reset.fault = false ∧ decode 0x00000000 = .error .reservedOp ∧
    decode 0x00000005 = .error .reservedOp ∧ decode 0x00000011 = .error .rsvdSet ∧
    decode 0x00008001 = .error .rsvdSet ∧ decode 0x00010002 = .error .hblSet ∧ decode 0x80000003 = .error .hblSet :=
  ⟨rfl, rfl, rfl, rfl, rfl, rfl, rfl⟩

theorem witness_step_runs : State.reset.fault = false ∧ decode 0x00000002 = .ok .update ∧
    ({ State.reset with pending := [wrReg .CMD (0x00000002 : BitVec 32).toNat] } : State).pending =
      wrReg .CMD (0x00000002 : BitVec 32).toNat :: [] ∧ faulted.fault = true := ⟨rfl, rfl, rfl, rfl⟩

theorem witness_idle : State.reset.pending = [] := rfl

theorem witness_launch_is_kept : ∃ t, step { engine open256 0 0 0 with pending := [.reset] } = .next t := ⟨_, rfl⟩

/-- A well-formed launch, its W64 record included, starts. -/
theorem witness_boot : CoreCfg.wf plainLaunch.cfg32 = true ∧ CoreCfg.wf plainLaunch.cfg64 = true ∧
    State.boot plainLaunch [] [.reset] = .next { State.reset with launch := plainLaunch, pending := [.reset] } := by
  have h := plainLaunch_wf
  refine ⟨?_, ?_, by rw [State.boot, if_pos h]; rfl⟩ <;> simp_all [Launch.wf]

/-- Log 6: TC1's W64 matrix has a singular submatrix over the field of R141. -/
theorem test_tc64_is_not_mds : minor tc64 [0, 1, 2, 5] [2, 4, 5, 7] = 0 := by decide +kernel

/-- A session in progress meets the invariant, and a step from it answers a next state. -/
theorem witness_invariant :
    Inv { engine odd256 0x1000 8 0 with launch := plainLaunch, result := .SUCCESS, pending := [wrCmd .update] } ∧
    ∃ t, step { engine odd256 0x1000 8 0 with
      launch := plainLaunch, result := .SUCCESS, pending := [wrCmd .update] } = .next t :=
  ⟨⟨plainLaunch_wf, by decide, (by decide : 0 < 64 ∧ 5 < 8), (by decide +kernel : lenOk (x32 [0xB7] 0 5)), by decide, by decide⟩, _, rfl⟩

/-- The two sides of the supported set: 224 and 512 in it, 223, 300 and 65535 outside. -/
theorem witness_init : (engine bad256 0 0 0).fault = false ∧
    (223 ≠ 224 ∧ 223 ≠ 256 ∧ 223 ≠ 384 ∧ 223 ≠ 512) ∧ (65535 ≠ 224 ∧ 65535 ≠ 256 ∧ 65535 ≠ 384 ∧ 65535 ≠ 512) := by
  decide

/-- Every branch of UPDATE; the admitted range ends at the platform's last admitted byte, the other one byte later. -/
theorem witness_update :
    (engine bad256 0 0 0).fault = false ∧ (engine bad256 0 0 0).ctx = .unspecified (.w32 .d256 (x32 [0xB7] 0 5)) ∧
    (Context.status (engine done256 0 0 0).ctx ≠ .ACCEPTING ∧ Context.status (engine done256 0 0 0).ctx ≠ .UNSPECIFIED) ∧
    (Context.status (engine .uninit 0 0 0).ctx ≠ .ACCEPTING ∧ Context.status (engine .uninit 0 0 0).ctx ≠ .UNSPECIFIED) ∧
    Session.r (.w32 .d256 (x32 [0xB7] 0 5)) ≠ 0 ∧ (x32 abc 3 0).r = 0 ∧ (x64 abc 3 0).r = 0 ∧
    memAdmits (engine open256 0xFFF8 65 0).launch 0xFFF8 ((65 + 7) / 8) = false ∧
    memAdmits (engine open256 0xFFF8 64 0).launch 0xFFF8 ((64 + 7) / 8) = true :=
  ⟨rfl, rfl, by decide, by decide, by decide, rfl, rfl, by decide +kernel, by decide +kernel⟩

/-- Every branch of FINAL; 32 bytes fit below 0x10000 at 0xFFE0 and not at 0xFFE1. -/
theorem witness_final :
    (engine open256 0 0 0xFFE0).fault = false ∧ (engine open256 0 0 0xFFE0).ctx = .accepting (.w32 .d256 (x32 abc 3 0)) ∧
    memAdmits tp1 0xFFE0 (DigestLen.bytes (Session.n (.w32 .d256 (x32 abc 3 0)))) = true ∧
    memAdmits tp1 0xFFE1 (DigestLen.bytes (Session.n (.w32 .d256 (x32 abc 3 0)))) = false :=
  ⟨rfl, rfl, by decide +kernel, by decide +kernel⟩

/-- Every branch of HASH. -/
theorem witness_hash : (engine .uninit 0 0 0).fault = false ∧ DigestLen.ofBits 225 = none ∧
    DigestLen.ofBits 384 = some (.w64 .d384) ∧ memAdmits tp1 0x10000 1 = false ∧
    memAdmits tp1 0x10000 0 = true ∧ memAdmits tp1 0xFFD1 (DigestLen.bytes (.w64 .d384)) = false ∧
    memAdmits tp1 0xFFD0 (DigestLen.bytes (.w64 .d384)) = true := by decide

theorem witness_supported_length : DigestLen.ofBits 224 = some (.w32 .d224) ∧ DigestLen.ofBits 256 = some (.w32 .d256) ∧
    DigestLen.ofBits 384 = some (.w64 .d384) ∧ DigestLen.ofBits 512 = some (.w64 .d512) := by decide

/-- Every command answers a next state from a session in progress; the frames and the result statements start there. -/
theorem witness_exec_next : (∃ t, exec (.init 384) (engine open256 0 0 0) = .next t) ∧
    (∃ t, exec .update (engine open256 0x1000 8 0) = .next t) ∧
    (∃ t, exec .final (engine open256 0 0 0x2000) = .next t) ∧
    ∃ t, exec (.hash 224) (engine open256 0x1000 8 0x2000) = .next t := ⟨⟨_, rfl⟩, ⟨_, rfl⟩, ⟨_, rfl⟩, ⟨_, rfl⟩⟩

/-- The boundaries of the stored ranges, and the forms that store nothing. -/
theorem witness_store_frames : open256 = .accepting (.w32 .d256 (x32 abc 3 0)) ∧
    (0x201F : Nat) < (0x2020 : BitVec 64).toNat ∧ (0x2020 : BitVec 64).toNat + DigestLen.bytes (.w32 .d256) ≤ 0x2040 ∧
    Context.status done256 ≠ .ACCEPTING ∧ DigestLen.ofBits 256 = some (.w32 .d256) ∧ DigestLen.ofBits 0 = none :=
  ⟨rfl, by decide, by decide, by decide, rfl, rfl⟩

/-- A faulted engine, a command that faults, and one that does not. -/
theorem witness_status_table : (∃ t, exec .update faulted = .next t ∧ faulted.fault = true) ∧
    (∃ t, exec .update (engine bad256 0 0 0) = .next t ∧ t.fault = true ∧
      Context.status (engine bad256 0 0 0).ctx = .UNSPECIFIED) ∧
    (∃ t, exec .final (engine odd256 0 0 0) = .next t ∧ (engine odd256 0 0 0).fault = false ∧ t.fault = false) :=
  ⟨⟨_, rfl, rfl⟩, ⟨_, rfl, rfl, rfl⟩, ⟨_, rfl, rfl, rfl⟩⟩

theorem witness_fail : (∃ t, exec .final (engine done256 0 0 0) = .next t ∧ t.fault = false ∧ t.result = .FAIL) ∧
    ∃ t, exec .update (engine odd256 0 0 0) = .next t ∧ t.fault = false ∧ t.result = .FAIL :=
  ⟨⟨_, rfl, rfl, rfl⟩, ⟨_, rfl, rfl, rfl⟩⟩

/-- One command for each cause and range. -/
theorem witness_precise_fault :
    (∃ t, exec (.hash 512) (engine .uninit 0 0 0xFFC1) = .next t ∧ t.fault = true) ∧
    (∃ t, exec (.hash 512) (engine .uninit 0xFFFF 9 0x2000) = .next t ∧ t.fault = true) ∧
    (∃ t, exec .update (engine open256 0xFFFF 9 0) = .next t ∧ t.fault = true) ∧
    (∃ t, exec .final (engine open256 0 0 0xFFE1) = .next t ∧ t.fault = true) ∧
    (∃ t, exec .final (engine bad256 0 0 0x2000) = .next t ∧ t.fault = true) ∧
    (engine open256 0 0 0xFFE1).fault = false :=
  ⟨⟨_, rfl, rfl⟩, ⟨_, rfl, rfl⟩, ⟨_, rfl, rfl⟩, ⟨_, rfl, rfl⟩, ⟨_, rfl, rfl⟩, rfl⟩

/-- R53, R55, R78: host stores into the register window, P_REG_BASE = 0xF0000000. At unassigned offset 0x04 and 0x2F the
store is a bad register write; at SRC_ADDR's own offset it is a partial-width access, one byte on a misaligned one. -/
theorem test_store_into_window :
    hostMove (.store 0xF0000004 7) (engine .uninit 0 0 0) =
      .next { engine .uninit 0 0 0 with fault := true, cause := .BAD_REG_ACCESS, faultInfo := 0x04 } ∧
    hostMove (.store 0xF000002F 7) (engine .uninit 0 0 0) =
      .next { engine .uninit 0 0 0 with fault := true, cause := .BAD_REG_ACCESS, faultInfo := 0x2F } ∧
    hostMove (.store 0xF0000008 7) (engine .uninit 0 0 0) = .refused .partialWidthAccess ∧
    hostMove (.store 0xF0000009 7) (engine .uninit 0 0 0) = .refused .misalignedAccess := ⟨rfl, rfl, rfl, rfl⟩

/-- The first and last offset of the register window, and the addresses next to it. -/
theorem witness_store : (0x37 : Addr).toNat < 0x38 ∧ tp1.regBase.toNat + (0x37 : Addr).toNat < 2 ^ 64 ∧
    (0xEFFFFFFF : Addr).toNat < tp1.regBase.toNat ∧ tp1.regBase.toNat + 0x38 ≤ (0xF0000038 : Addr).toNat := by decide

/-- A faulted engine, the widest values, the neighbours of the registers, and moves that are not reset. -/
theorem witness_faulted_accesses : faulted.fault = true ∧ (0xFFFFFFFF : Nat) < 2 ^ 32 ∧
    (0xFFFFFFFFFFFFFFFF : Nat) < 2 ^ 64 ∧ Reg.at 0x04 = none ∧ insideReg 0x04 = false ∧ Reg.at 0x38 = none ∧
    insideReg 0x38 = false ∧ wrReg .STATUS 0 ≠ .reset ∧ (∃ t, hostMove (wrReg .STATUS 0) faulted = .next t) ∧
    (∃ t, hostMove (.store 0x10 1) faulted = .next t) ∧
    ∀ b : Byte, HostMove.store 0x10 1 ≠ .store (BitVec.ofNat 64 0x11) b :=
  ⟨rfl, by decide, by decide, by decide, by decide, by decide, by decide, by decide, ⟨_, rfl⟩, ⟨_, rfl⟩,
    by intro b h; injection h with h _; exact absurd h (by decide)⟩

theorem witness_terminal : ∃ t, exec .final (engine open256 0 0 0x2000) = .next t ∧ t.fault = false ∧
    t.result = .SUCCESS ∧ ∀ c ∈ [Instr.update, .final, .update], c = .update ∨ c = .final :=
  ⟨_, rfl, rfl, rfl, by decide⟩

theorem witness_digest_length : Memory.wf (engine open256 0 0 0x2000).mem ∧ (engine open256 0 0 0x2000).fault = false ∧
    (∃ x, (engine open256 0 0 0x2000).ctx = .accepting x ∧ Session.n x = .w32 .d256) ∧
    (∃ t, exec .final (engine open256 0 0 0x2000) = .next t ∧ t.fault = false ∧ t.result = .SUCCESS) ∧
    (∃ t, exec .final (engine open256 0 0 0xFFE1) = .next t ∧ t.fault = true) ∧
    Instr.hash 256 = .hash (DigestLen.bits (.w32 .d256)) :=
  ⟨by decide, rfl, ⟨_, rfl, rfl⟩, ⟨_, rfl, rfl, rfl⟩, ⟨_, rfl, rfl⟩, rfl⟩

theorem witness_session : FaultFree (engine .uninit 0xFFF0 128 0xFFC0) ∧ SrcAdmitted (engine .uninit 0xFFF0 128 0xFFC0) ∧
    DstAdmitted (engine .uninit 0xFFF0 128 0xFFC0) (.w64 .d512) := by decide

/-- Three chunks, the last of 13 bits, up to the last admitted byte. -/
theorem witness_chunks : (engine bad256 0 0 0).fault = false ∧ [8, 24, 13].sum < 2 ^ 64 ∧
    chunksOk (engine bad256 0 0 0).launch 0xFFFA [8, 24, 13] ∧
    memAdmits (engine bad256 0 0 0).launch (BitVec.ofNat 64 0xFFFA) (bytesForBits [8, 24, 13].sum) = true ∧
    memAdmits (engine bad256 0 0 0).launch (BitVec.ofNat 64 0x2000) (DigestLen.bytes (.w32 .d256)) = true :=
  ⟨rfl, by decide, ⟨by decide, by decide, fun _ => by decide, by decide, by decide, fun _ => by decide, by decide,
    by decide, fun h => absurd rfl h, trivial⟩, by decide, by decide⟩

theorem witness_hash_in_any_context : ∃ t, exec (.hash 256) (engine bad256 0x1000 24 0x2000) = .next t := ⟨_, rfl⟩

/-- The buffer's bounds: empty, the last single-block tail, the first two-block tail and the fullest. -/
theorem witness_buffer_bounds : (x32 [] 0 0).p < 64 ∧ (x32 [] 47 0).p + 1 ≤ 48 ∧ 48 < (x32 [] 48 0).p + 1 ∧
    (x32 [] 63 7).p < 64 ∧ (x64 [] 111 0).p + 1 ≤ 112 ∧ 112 < (x64 [] 112 0).p + 1 ∧ (x64 [] 127 0).p < 128 := by
  decide

theorem witness_padding_bit : 7 < 8 ∧ (0 : Nat) < 7 ∧ (0 : Nat) < 8 := by decide

theorem low_bits_differ_only {r : Nat} (a b : Byte) (h : ∀ i, i < 8 → 8 - r ≤ i → a.getLsbD i = b.getLsbD i) :
    ∀ i, 8 - r ≤ i → a.getLsbD i = b.getLsbD i := by
  intro i hi
  by_cases h8 : i < 8
  · exact h i h8 hi
  · simp [BitVec.getLsbD_of_ge _ _ (Nat.le_of_not_lt h8)]

/-- V-PAD-3's two bytes, B0 and B7 with 5 valid bits, and different stale bytes behind them. -/
theorem witness_dirty_bits :
    (x32 [0xB0, 0xFF] 0 5).p < 64 ∧ (x32 [0xB0, 0xFF] 0 5).r < 8 ∧
    (x32 [0xB7, 0x11] 0 5).p = (x32 [0xB0, 0xFF] 0 5).p ∧ (x32 [0xB7, 0x11] 0 5).r = (x32 [0xB0, 0xFF] 0 5).r ∧
    (x32 [0xB7, 0x11] 0 5).cv = (x32 [0xB0, 0xFF] 0 5).cv ∧ (x32 [0xB7, 0x11] 0 5).ctr = (x32 [0xB0, 0xFF] 0 5).ctr ∧
    (x32 [0xB7, 0x11] 0 5).T = (x32 [0xB0, 0xFF] 0 5).T ∧
    (x32 [0xB7, 0x11] 0 5).buf.toList.take 0 = (x32 [0xB0, 0xFF] 0 5).buf.toList.take 0 ∧
    (∀ i, 8 - 5 ≤ i → (0xB7 : Byte).getLsbD i = (0xB0 : Byte).getLsbD i) ∧
    (x32 [0xB7, 0x11] 0 5).buf.toList.getD 0 0 = 0xB7 ∧ (x32 [0xB0, 0xFF] 0 5).buf.toList.getD 0 0 = 0xB0 :=
  ⟨by decide, by decide, by simp only [x32], by simp only [x32], by simp only [x32], by simp only [x32],
    by simp only [x32], by simp, low_bits_differ_only _ _ (by decide), by decide +kernel, by decide +kernel⟩

/-- The same in W64, with 7 valid bits at the last byte of the block. -/
theorem witness_dirty_bits_w64 :
    (x64 [] 127 7).p < 128 ∧ (x64 [] 127 7).r < 8 ∧
    (∀ i, 8 - 7 ≤ i → (0xFF : Byte).getLsbD i = (0xFE : Byte).getLsbD i) ∧
    (bufOf (List.replicate 127 0 ++ [0xFF])).toList.take 127 = (bufOf (List.replicate 127 0 ++ [0xFE])).toList.take 127 ∧
    (bufOf (List.replicate 127 0 ++ [0xFF])).toList.getD 127 0 = 0xFF ∧
    (bufOf (List.replicate 127 0 ++ [0xFE])).toList.getD 127 0 = 0xFE :=
  ⟨by decide, by decide, low_bits_differ_only _ _ (by decide), by decide +kernel, by decide +kernel,
    by decide +kernel⟩

theorem witness_word_width : (32 = 32 ∨ 32 = 64) ∧ (64 = 32 ∨ 64 = 64) ∧ abc.length + 1 = 32 / 8 ∧
    (List.replicate 64 (0 : Byte)).length = blockBytes 32 ∧ (List.replicate 128 (0 : Byte)).length = blockBytes 64 := by
  decide

/-- V-CTR-2's counter. -/
theorem witness_full_counter : (32 = 32 ∨ 32 = 64) ∧
    ({ x32 [] 0 0 with ctr := 0xFFFFFFFFFFFFFFFF } : HashState 32).ctr = BitVec.allOnes (2 * 32) := ⟨.inl rfl, rfl⟩

theorem witness_nonzero_byte : (0xFF : Byte) ≠ 0 ∧ gmul 0xFF 0x1C = 1 := by decide

theorem witness_fields_ok : CoreCfg.fieldsOk tc32 = true ∧ CoreCfg.fieldsOk tc64 = true := by decide +kernel

theorem witness_other_slots : tc32.ctrSlot0 ≠ tc32.ctrSlot1 ∧ tc64.ctrSlot0 ≠ tc64.ctrSlot1 ∧
    (1 : Fin 8) ≠ tc32.ctrSlot0 ∧ (1 : Fin 8) ≠ tc32.ctrSlot1 ∧ (1 : Fin 8) ≠ tc32.sa ∧ (1 : Fin 8) ≠ tc32.se := by
  decide

theorem witness_injection_order (R : Words 32) : ∃ order : List (Fin 8 × BitVec 32), order.Perm
    ((tc32.inj1.toList.map fun p => (p.slot, rotl (G tc32 R[tc32.sa]) p.rot)) ++
      (tc32.inj2.toList.map fun p => (p.slot, rotl (G tc32 R[tc32.se]) p.rot))) :=
  ⟨_, (List.reverse_perm _)⟩

theorem witness_register_access : 2 ^ (8 * AccessWidth.bytes (Reg.width .CMD)) ≤ 2 ^ 32 ∧
    0xFFFFFFFF < 2 ^ (8 * AccessWidth.bytes (Reg.width .RESULT)) ∧ Reg.at 0x24 = none ∧ insideReg 0x24 = false ∧
    insideReg 0x09 = true ∧ insideReg 0x37 = true ∧ AccessWidth.b8 ≠ Reg.width .CMD ∧ AccessWidth.b64 ≠ Reg.width .STATUS := by
  decide

/-- A range that wraps, and one whose last byte is the window's first. -/
theorem witness_admission : 2 ^ 64 < (0xFFFFFFFFFFFFFFFF : Addr).toNat + 2 ∧
    ∃ a, (0xEFFFFFFF : Addr).toNat ≤ a ∧ a < (0xEFFFFFFF : Addr).toNat + 2 ∧ tp1.regBase.toNat ≤ a ∧
      a < tp1.regBase.toNat + 0x38 := ⟨by decide, 0xF0000000, by decide, by decide, by decide, by decide⟩

theorem witness_assembly : (engine .uninit 0 0 0).fault = false ∧ (65535 : Nat) < 2 ^ 16 ∧ 2 ^ 16 ≤ (65536 : Nat) := by
  decide

end Sys2Proof.Tests
end

section
/-! SUPPORT. What a command can do, said once: an inversion of `exec` with the guards of every case, and the frame that
all four commands share. -/

namespace Sys2Proof.Machine

/-- The ways in which a command takes the state `s` to the state `t`, with the check that decides each one
(44_engine_commands.md R261, R264, R269, R280; 60_exceptions.md R338, R339). -/
inductive CommandEffect (s t : State) : Instr → Prop where
  /-- Any command on a faulted engine. -/
  | ignored {i : Instr} (hf : s.fault = true) (ht : t = s) : CommandEffect s t i
  | initUnsupported {h : Nat} (hf : FaultFree s) (hn : DigestLen.ofBits h = none)
      (ht : t = setResult .BAD_HASHBITLEN { s with ctx := .invalid (Context.session s.ctx) }) :
      CommandEffect s t (.init h)
  | initStarted {h : Nat} {n : DigestLen} (hf : FaultFree s) (hn : DigestLen.ofBits h = some n)
      (ht : t = setResult .SUCCESS
        { s with ctx := .accepting (Session.start s.launch s.draws n), draws := s.draws + 1 }) :
      CommandEffect s t (.init h)
  /-- UPDATE or FINAL on an UNSPECIFIED context. -/
  | useAfterFail {i : Instr} {x : Session} (hf : FaultFree s) (hi : i = .update ∨ i = .final)
      (hc : s.ctx = .unspecified x)
      (ht : t = raiseFault .USE_AFTER_FAIL i.op (i.op.setWidth 64) s) : CommandEffect s t i
  /-- UPDATE or FINAL without a session in progress. -/
  | noSession {i : Instr} (hf : FaultFree s) (hi : i = .update ∨ i = .final)
      (hc : Context.status s.ctx = .UNINIT ∨ Context.status s.ctx = .FINALIZED ∨ Context.status s.ctx = .INVALID)
      (ht : t = setResult .FAIL s) : CommandEffect s t i
  | updateAfterRemainder {x : Session} (hf : FaultFree s) (hc : s.ctx = .accepting x) (hr : Session.r x ≠ 0)
      (ht : t = setResult .FAIL { s with ctx := .unspecified x }) : CommandEffect s t .update
  | updateBounds {x : Session} (hf : FaultFree s) (hc : s.ctx = .accepting x) (hr : Session.r x = 0)
      (ha : ¬ SrcAdmitted s) (ht : t = raiseFault .MEM_BOUNDS 0x2 s.srcAddr s) : CommandEffect s t .update
  | updateFed {x : Session} (hf : FaultFree s) (hc : s.ctx = .accepting x) (hr : Session.r x = 0)
      (ha : SrcAdmitted s)
      (ht : t = setResult .SUCCESS { s with
        ctx := .accepting
          (Session.feed s.launch (memRead s.mem s.srcAddr.toNat (messageBytes s.bitLen)) s.bitLen x) }) :
      CommandEffect s t .update
  | finalBounds {x : Session} (hf : FaultFree s) (hc : s.ctx = .accepting x) (ha : ¬ DstAdmitted s (Session.n x))
      (ht : t = raiseFault .MEM_BOUNDS 0x3 s.dstAddr s) : CommandEffect s t .final
  | finalStored {x : Session} (hf : FaultFree s) (hc : s.ctx = .accepting x) (ha : DstAdmitted s (Session.n x))
      (ht : t = setResult .SUCCESS { s with
        mem := memWrite s.mem s.dstAddr.toNat (Session.digest s.launch x)
        ctx := .finalized (Session.afterFinal s.draws x)
        draws := s.draws + 1 }) : CommandEffect s t .final
  | hashUnsupported {h : Nat} (hf : FaultFree s) (hn : DigestLen.ofBits h = none)
      (ht : t = setResult .BAD_HASHBITLEN s) : CommandEffect s t (.hash h)
  | hashSrcBounds {h : Nat} {n : DigestLen} (hf : FaultFree s) (hn : DigestLen.ofBits h = some n)
      (ha : ¬ SrcAdmitted s) (ht : t = raiseFault .MEM_BOUNDS 0x4 s.srcAddr s) : CommandEffect s t (.hash h)
  | hashDstBounds {h : Nat} {n : DigestLen} (hf : FaultFree s) (hn : DigestLen.ofBits h = some n)
      (hs : SrcAdmitted s) (ha : ¬ DstAdmitted s n) (ht : t = raiseFault .MEM_BOUNDS 0x4 s.dstAddr s) :
      CommandEffect s t (.hash h)
  | hashStored {h : Nat} {n : DigestLen} (hf : FaultFree s) (hn : DigestLen.ofBits h = some n)
      (hs : SrcAdmitted s) (ha : DstAdmitted s n)
      (ht : t = setResult .SUCCESS { s with
        mem := memWrite s.mem s.dstAddr.toNat (hashDigest s n)
        hctx := some (freeContext s.draws)
        draws := s.draws + 1 }) : CommandEffect s t (.hash h)

section Inversion
variable {s t : State}

/-- An outcome that is known to be a next state is that state. -/
theorem eq_of_next {o : Host.Outcome State Fault Refusal} {u : State} (h : o = .next t) (e : o = .next u) : t = u := by
  rw [h] at e; injection e

theorem execInit_effect {h : Nat} (hf : FaultFree s) (he : execInit h s = .next t) : CommandEffect s t (.init h) := by
  cases hn : DigestLen.ofBits h with
  | none => exact .initUnsupported hf hn (eq_of_next he (execInit_unsupported hf hn))
  | some n => exact .initStarted hf hn (eq_of_next he (execInit_supported hf hn))

/-- What UPDATE and FINAL look at: a session in progress, a session after a remainder, or neither (R33). -/
theorem Context.session_cases (c : Context) :
    (∃ x, c = .accepting x) ∨ (∃ x, c = .unspecified x) ∨
    (Context.status c = .UNINIT ∨ Context.status c = .FINALIZED ∨ Context.status c = .INVALID) := by
  cases c <;> simp [Context.status]

theorem execUpdate_effect (hf : FaultFree s) (he : execUpdate s = .next t) : CommandEffect s t .update := by
  rcases Context.session_cases s.ctx with ⟨x, hc⟩ | ⟨x, hc⟩ | hc
  · by_cases hr : Session.r x = 0
    · by_cases ha : SrcAdmitted s
      · exact .updateFed hf hc hr ha (eq_of_next he (execUpdate_success hf hc hr ha))
      · exact .updateBounds hf hc hr ha (eq_of_next he (execUpdate_bounds hf hc hr ha))
    · exact .updateAfterRemainder hf hc hr (eq_of_next he (execUpdate_remainder hf hc hr))
  · exact .useAfterFail hf (.inl rfl) hc (eq_of_next he (execUpdate_unspecified hf hc))
  · exact .noSession hf (.inl rfl) hc (eq_of_next he (execUpdate_fail hf hc))

theorem execFinal_effect (hf : FaultFree s) (he : execFinal s = .next t) : CommandEffect s t .final := by
  rcases Context.session_cases s.ctx with ⟨x, hc⟩ | ⟨x, hc⟩ | hc
  · by_cases ha : DstAdmitted s (Session.n x)
    · exact .finalStored hf hc ha (eq_of_next he (execFinal_success hf hc ha))
    · exact .finalBounds hf hc ha (eq_of_next he (execFinal_bounds hf hc ha))
  · exact .useAfterFail hf (.inr rfl) hc (eq_of_next he (execFinal_unspecified hf hc))
  · exact .noSession hf (.inr rfl) hc (eq_of_next he (execFinal_fail hf hc))

theorem execHash_effect {h : Nat} (hf : FaultFree s) (he : execHash h s = .next t) : CommandEffect s t (.hash h) := by
  cases hn : DigestLen.ofBits h with
  | none => exact .hashUnsupported hf hn (eq_of_next he (execHash_unsupported hf hn))
  | some n =>
    by_cases hs : SrcAdmitted s
    · by_cases ha : DstAdmitted s n
      · exact .hashStored hf hn hs ha (eq_of_next he (execHash_success hf hn hs ha))
      · exact .hashDstBounds hf hn hs ha (eq_of_next he (execHash_dstBounds hf hn hs ha))
    · exact .hashSrcBounds hf hn hs (eq_of_next he (execHash_srcBounds hf hn hs))

/-- Everything a command can do when it answers a next state. -/
theorem exec_effect {i : Instr} (he : exec i s = .next t) : CommandEffect s t i := by
  by_cases hf : FaultFree s
  · cases i with
    | init h => exact execInit_effect hf he
    | update => exact execUpdate_effect hf he
    | final => exact execFinal_effect hf he
    | hash h => exact execHash_effect hf he
  · have hf : s.fault = true := by simpa using hf
    exact .ignored hf (eq_of_next he (exec_faulted i s hf))

/-- The frame of a command: it does nothing, or enters a fault with a cause, or completes, which changes at most the
contexts, RESULT, memory and the model's counter of free values (R335, R337). -/
theorem CommandEffect.frame {i : Instr} (h : CommandEffect s t i) :
    t = s ∨
    (FaultFree s ∧ ∃ c op info, c ≠ .NONE ∧ t = raiseFault c op info s) ∨
    (FaultFree s ∧ ∃ ctx hctx r mem draws, r ≠ .NONE ∧
      t = { s with ctx := ctx, hctx := hctx, result := r, mem := mem, draws := draws }) := by
  cases h with
  | ignored _ ht => exact .inl ht
  | useAfterFail hf _ _ ht | updateBounds hf _ _ _ ht | finalBounds hf _ _ ht | hashSrcBounds hf _ _ ht
  | hashDstBounds hf _ _ _ ht => exact .inr (.inl ⟨hf, _, _, _, by decide, ht⟩)
  | initUnsupported hf _ ht | initStarted hf _ ht | noSession hf _ _ ht | updateAfterRemainder hf _ _ ht
  | updateFed hf _ _ _ ht | finalStored hf _ _ ht | hashUnsupported hf _ ht | hashStored hf _ _ _ ht =>
    exact .inr (.inr ⟨hf, _, _, _, _, _, by decide, ht⟩)

end Inversion

end Sys2Proof.Machine
end

section
/-! SUPPORT. The frame of every command (O19) and of every step (O10). -/

namespace Sys2Proof.Machine

/-- Settles O19: a command does nothing, enters a fault, or completes, and each of the three has its frame. -/
theorem commandsLeaveTheHostsStateAlone : Obligations.CommandsLeaveTheHostsStateAlone := by
  intro i s t he
  rcases (exec_effect he).frame with rfl | ⟨hf, c, op, info, _, rfl⟩ | ⟨_, ctx, hctx, r, mem, draws, _, rfl⟩
  · simp
  · simp [show s.fault = false from hf]
  · simp

theorem exec_launch {i : Instr} {s t : State} (he : exec i s = .next t) : t.launch = s.launch :=
  (commandsLeaveTheHostsStateAlone i s t he).1.1

/-- No host move writes the launch parameters. -/
theorem MoveEffect.launch {s t : State} (h : MoveEffect s t) : t.launch = s.launch := by
  cases h with
  | command _ _ _ _ he => exact exec_launch he
  | ignored _ ht | faulted _ _ _ _ ht | badRead _ ht | srcAddr _ ht | bitLen _ ht | dstAddr _ ht | read _ _ ht
  | stored _ _ _ ht | reset ht => simp [ht]

/-- Settles O10: an idle step changes nothing, and no host move writes the launch parameters. -/
theorem noStepWritesTheLaunchParameters : Obligations.NoStepWritesTheLaunchParameters := by
  intro s t h
  rcases step_cases s t h with ⟨_, rfl⟩ | ⟨_, _, _, he⟩
  · rfl
  · exact he.launch

end Sys2Proof.Machine
end

section
/-! SUPPORT. The length counter and what the context holds (43_length_counter.md R243, 42_compression_core.md R209): the
count of message bytes in a context grows by one with each absorbed byte, up to the wrapping of the block counter. -/

namespace Sys2Proof.Machine

/-- The message bytes a context has counted: whole blocks in the block counter, the rest in the buffer. -/
def heldBytes {w : Nat} (x : HashState w) : Nat := blockBytes w * x.ctr.toNat + x.p

/-- `lenOk` in terms of the held bytes. -/
theorem lenOk_iff {w : Nat} (x : HashState w) :
    lenOk x ↔ x.T.toNat % lenModulus w = (8 * heldBytes x + x.r) % lenModulus w :=
  Iff.rfl

/-! Three rules of numbers that are equal up to a modulus. -/

theorem mod_eq_add_right {m a b : Nat} (c : Nat) (h : a % m = b % m) : (a + c) % m = (b + c) % m := by
  rw [Nat.add_mod, h, ← Nat.add_mod]

theorem mod_eq_mul_left {m a b : Nat} (c : Nat) (h : a % m = b % m) : c * a % (c * m) = c * b % (c * m) := by
  rw [Nat.mul_mod_mul_left, Nat.mul_mod_mul_left, h]

theorem mod_eq_of_dvd {m n a b : Nat} (hd : n ∣ m) (h : a % m = b % m) : a % n = b % n := by
  rw [← Nat.mod_mod_of_dvd a hd, h, Nat.mod_mod_of_dvd b hd]

theorem lenModulus_dvd_blocks (w : Nat) : lenModulus w ∣ 8 * (blockBytes w * 2 ^ (2 * w)) := by
  rw [← Nat.mul_assoc]; exact Nat.gcd_dvd_right _ _

theorem lenModulus_dvd_length (w : Nat) : lenModulus w ∣ 2 ^ 128 := Nat.gcd_dvd_left _ _

section Absorb
variable {w : Nat} (cfg : CoreCfg w) (x : HashState w)

/-- One byte more, up to the wrapping of the block counter. -/
theorem absorbByte_heldBytes (b : Byte) :
    heldBytes (absorbByte cfg x b) % (blockBytes w * 2 ^ (2 * w)) =
      (heldBytes x + 1) % (blockBytes w * 2 ^ (2 * w)) := by
  rcases absorbByte_cases cfg x b with ⟨_, h⟩ | ⟨hp, h⟩ <;> rw [h]
  · rfl
  · have hblocks : heldBytes x + 1 = blockBytes w * (x.ctr.toNat + 1) := by
      rw [heldBytes, Nat.add_assoc, hp, Nat.mul_add, Nat.mul_one]
    have hctr : (x.ctr + 1).toNat % 2 ^ (2 * w) = (x.ctr.toNat + 1) % 2 ^ (2 * w) := by
      rw [BitVec.toNat_add, Nat.mod_mod, BitVec.ofNat_eq_ofNat, BitVec.toNat_ofNat, Nat.add_mod_mod]
    rw [hblocks]
    exact mod_eq_mul_left (blockBytes w) hctr

/-- As many bytes more as were absorbed. -/
theorem absorb_heldBytes (bs : List Byte) :
    heldBytes (absorb cfg x bs) % (blockBytes w * 2 ^ (2 * w)) =
      (heldBytes x + bs.length) % (blockBytes w * 2 ^ (2 * w)) := by
  induction bs generalizing x with
  | nil => rfl
  | cons b bs ih =>
    calc heldBytes (absorb cfg (absorbByte cfg x b) bs) % (blockBytes w * 2 ^ (2 * w))
        = (heldBytes (absorbByte cfg x b) + bs.length) % (blockBytes w * 2 ^ (2 * w)) := ih _
      _ = (heldBytes x + 1 + bs.length) % (blockBytes w * 2 ^ (2 * w)) :=
        mod_eq_add_right bs.length (absorbByte_heldBytes cfg x b)
      _ = (heldBytes x + (b :: bs).length) % (blockBytes w * 2 ^ (2 * w)) := by
        rw [List.length_cons, Nat.add_assoc, Nat.add_comm 1]

theorem feed_heldBytes (data : List Byte) (L : BitVec 64) :
    heldBytes (feed cfg x data L) = heldBytes (absorb cfg x (data.take (L.toNat / 8))) := by
  rw [heldBytes, feed_ctr, feed_p, heldBytes]

/-- The length counter grows by L, up to its own wrapping (R240). -/
theorem lenAdd_toNat_mod (T : BitVec 128) (L : BitVec 64) :
    (lenAdd T L).toNat % 2 ^ 128 = (T.toNat + L.toNat) % 2 ^ 128 := by
  have hL : L.toNat < 2 ^ 128 := Nat.lt_of_lt_of_le L.isLt (by decide)
  rw [lenAdd, BitVec.toNat_add, BitVec.toNat_setWidth, Nat.mod_eq_of_lt hL, Nat.mod_mod]

/-- Feeding a message of L bits to a context without a remainder keeps the length relation. -/
theorem feed_lenOk (data : List Byte) (L : BitVec 64) (hd : L.toNat / 8 ≤ data.length) (hr : x.r = 0)
    (h : lenOk x) : lenOk (feed cfg x data L) := by
  rw [lenOk_iff, hr, Nat.add_zero] at h
  rw [lenOk_iff, feed_T, feed_heldBytes, feed_r, hr]
  have hbytes : 8 * heldBytes (absorb cfg x (data.take (L.toNat / 8))) % lenModulus w =
      8 * (heldBytes x + L.toNat / 8) % lenModulus w := by
    have hab := absorb_heldBytes cfg x (data.take (L.toNat / 8))
    rw [List.length_take, Nat.min_eq_left hd] at hab
    exact mod_eq_of_dvd (lenModulus_dvd_blocks w) (mod_eq_mul_left 8 hab)
  have hbits : 8 * heldBytes x + L.toNat =
      8 * (heldBytes x + L.toNat / 8) + (if L.toNat % 8 ≠ 0 then L.toNat % 8 else 0) := by
    split <;> omega
  calc (lenAdd x.T L).toNat % lenModulus w
      = (x.T.toNat + L.toNat) % lenModulus w := mod_eq_of_dvd (lenModulus_dvd_length w) (lenAdd_toNat_mod x.T L)
    _ = (8 * heldBytes x + L.toNat) % lenModulus w := mod_eq_add_right L.toNat h
    _ = (8 * (heldBytes x + L.toNat / 8) + (if L.toNat % 8 ≠ 0 then L.toNat % 8 else 0)) % lenModulus w := by
      rw [hbits]
    _ = _ := mod_eq_add_right _ hbytes.symm

end Absorb

/-- A fresh context has counted nothing. -/
theorem initHash_lenOk {w : Nat} (iv : Words w) (draw : Nat) : lenOk (initHash iv draw) := by
  simp [lenOk, initHash]

theorem Session.start_lenOk (l : Launch) (draw : Nat) (n : DigestLen) : sessionLenOk (Session.start l draw n) := by
  cases n with
  | w32 n => exact initHash_lenOk _ _
  | w64 n => exact initHash_lenOk _ _

theorem Session.feed_lenOk (l : Launch) (data : List Byte) (L : BitVec 64) (x : Session)
    (hd : L.toNat / 8 ≤ data.length) (hr : Session.r x = 0) (h : sessionLenOk x) :
    sessionLenOk (Session.feed l data L x) := by
  cases x with
  | w32 n x => exact Machine.feed_lenOk l.cfg32 x data L hd hr h
  | w64 n x => exact Machine.feed_lenOk l.cfg64 x data L hd hr h

/-- A message's bytes hold all its whole bytes. -/
theorem wholeBytes_le_messageBytes (L : BitVec 64) : L.toNat / 8 ≤ messageBytes L := by
  unfold messageBytes bytesForBits; omega

end Sys2Proof.Machine
end

section
/-! SUPPORT. The invariant holds at reset (O12) and every step keeps it (O11). -/

namespace Sys2Proof.Machine

/-- Settles O12: right after reset nothing is listed, counted or faulted. -/
theorem resetStateMeetsTheInvariant : Obligations.ResetStateMeetsTheInvariant where
  config := reset_launch_wf
  mem := Memory.wf_nil
  ctx := trivial
  len := trivial
  faults := by simp [faultFieldsOk]
  result := fun _ => rfl

section Operations
variable {s : State}

/-- Entering a fault keeps the invariant. -/
theorem Inv.raiseFault (h : Inv s) {c : Cause} (op : BitVec 4) (info : BitVec 64) (hc : c ≠ .NONE) :
    Inv (raiseFault c op info s) where
  config := by simpa using h.config
  mem := by simpa using h.mem
  ctx := by simpa using h.ctx
  len := by simpa using h.len
  faults := raiseFault_faultFieldsOk c op info s hc h.faults
  result := by simpa [resultOk] using h.result

/-- A command that completes keeps the invariant when the memory and the context it leaves satisfy it. -/
theorem Inv.complete (h : Inv s) {r : ResultCode} {m : Memory} {c : Context} (hctx : Option Context) (draws : Nat)
    (hr : r ≠ .NONE) (hm : Memory.wf m) (hc : ctxOk c) (hl : ctxLenOk c) :
    Inv (setResult r { s with mem := m, ctx := c, hctx := hctx, draws := draws }) where
  config := h.config
  mem := hm
  ctx := hc
  len := hl
  faults := h.faults
  result := fun hn => absurd hn hr

/-- An admitted digest written to memory keeps the canonical form. -/
theorem Inv.storeDigest (h : Inv s) (x : Session) (ha : DstAdmitted s (Session.n x)) :
    Memory.wf (memWrite s.mem s.dstAddr.toNat (Session.digest s.launch x)) :=
  memWrite_wf _ _ _ (Nat.le_trans (Nat.add_le_add_left (digest_length_le s.launch x) _) (memAdmits_bound ha)) h.mem

/-- HASH's digest is that of a session of the length it names. -/
theorem Inv.storeHash (h : Inv s) (n : DigestLen) (ha : DstAdmitted s n) :
    Memory.wf (memWrite s.mem s.dstAddr.toNat (hashDigest s n)) :=
  h.storeDigest _ (by simpa using ha)

/-- Host moves, the log of reads and the operand registers are no part of the invariant. -/
theorem Inv.setHostSide (h : Inv s) (src len dst : BitVec 64) (moves : List HostMove) (log : List ReadEntry) :
    Inv { s with srcAddr := src, bitLen := len, dstAddr := dst, pending := moves, readLog := log } where
  config := h.config
  mem := h.mem
  ctx := h.ctx
  len := h.len
  faults := h.faults
  result := h.result

theorem Inv.store (h : Inv s) (a : Addr) (b : Byte) : Inv { s with mem := Memory.write s.mem a.toNat b } where
  config := h.config
  mem := Memory.write_wf s.mem a.toNat b a.isLt h.mem
  ctx := h.ctx
  len := h.len
  faults := h.faults
  result := h.result

theorem Inv.resetEngine (h : Inv s) : Inv (resetEngine s) where
  config := h.config
  mem := h.mem
  ctx := trivial
  len := trivial
  faults := by simp [faultFieldsOk]
  result := fun _ => rfl

/-- The session of an accepting context is within its bounds. -/
theorem Inv.accepting (h : Inv s) {x : Session} (hc : s.ctx = .accepting x) : sessionOk x ∧ sessionLenOk x := by
  have hok := h.ctx
  have hlen := h.len
  rw [hc] at hok hlen
  exact ⟨hok, hlen⟩

/-- Every command keeps the invariant. -/
theorem Inv.exec (h : Inv s) {t : State} {i : Instr} (he : exec i s = .next t) : Inv t := by
  cases exec_effect he with
  | ignored _ ht => exact ht ▸ h
  | useAfterFail _ _ _ ht | updateBounds _ _ _ _ ht | finalBounds _ _ _ ht | hashSrcBounds _ _ _ ht
  | hashDstBounds _ _ _ _ ht => exact ht ▸ h.raiseFault _ _ (by decide)
  | noSession _ _ _ ht | hashUnsupported _ _ ht =>
    exact ht ▸ h.complete _ _ (by decide) h.mem h.ctx h.len
  | initUnsupported _ _ ht => exact ht ▸ h.complete _ _ (by decide) h.mem trivial trivial
  | @initStarted _ n _ _ ht =>
    exact ht ▸ h.complete _ _ (by decide) h.mem (Session.start_ok _ _ n) (Session.start_lenOk _ _ n)
  | updateAfterRemainder _ hc _ ht =>
    exact ht ▸ h.complete _ _ (by decide) h.mem (h.accepting hc).1 trivial
  | @updateFed x _ hc hr _ ht =>
    obtain ⟨hok, hlen⟩ := h.accepting hc
    have hdata : s.bitLen.toNat / 8 ≤ (memRead s.mem s.srcAddr.toNat (messageBytes s.bitLen)).length := by
      rw [memRead_length]; exact wholeBytes_le_messageBytes s.bitLen
    exact ht ▸ h.complete _ _ (by decide) h.mem (Session.feed_ok _ _ _ x hok)
      (Session.feed_lenOk _ _ _ x hdata hr hlen)
  | @finalStored x _ _ ha ht => exact ht ▸ h.complete _ _ (by decide) (h.storeDigest x ha) trivial trivial
  | @hashStored _ n _ _ _ ha ht => exact ht ▸ h.complete _ _ (by decide) (h.storeHash n ha) h.ctx h.len

/-- Every host move keeps the invariant. -/
theorem Inv.move (h : Inv s) {t : State} (he : MoveEffect s t) : Inv t := by
  cases he with
  | ignored _ ht => exact ht ▸ h
  | command _ _ _ _ he => exact h.exec he
  | faulted _ op info hc ht => exact ht ▸ h.raiseFault op info hc
  | badRead off ht =>
    have hlog : Inv (logRead off none s) := h.setHostSide _ _ _ _ _
    exact ht ▸ hlog.raiseFault _ _ (by decide)
  | srcAddr _ ht | bitLen _ ht | dstAddr _ ht | read _ _ ht => exact ht ▸ h.setHostSide _ _ _ _ _
  | stored a b _ ht => exact ht ▸ h.store a b
  | reset ht => exact ht ▸ h.resetEngine

end Operations

/-- Settles O11: an idle step changes nothing; any other step performs one host move, and every move keeps the
invariant. -/
theorem everyStepKeepsTheInvariant : Obligations.EveryStepKeepsTheInvariant := by
  intro s t h hs
  rcases step_cases s t hs with ⟨_, rfl⟩ | ⟨_, rest, _, he⟩
  · exact h
  · have hpop : Inv { s with pending := rest } := h.setHostSide _ _ _ _ _
    exact hpop.move he

end Sys2Proof.Machine
end

section
/-! SUPPORT. The status and the result after each command (O22). -/

namespace Sys2Proof.Machine

/-- The supported lengths, as numbers (R262). -/
theorem ofBits_isSome_iff (h : Nat) :
    (DigestLen.ofBits h).isSome ↔ h = 224 ∨ h = 256 ∨ h = 384 ∨ h = 512 := by
  constructor
  · intro hs
    obtain ⟨n, hn⟩ := Option.isSome_iff_exists.1 hs
    rw [ofBits_eq_some hn]
    rcases n with n | n <;> cases n <;> decide
  · rintro (rfl | rfl | rfl | rfl) <;> rfl

/-- A command that enters a fault leaves both contexts as they were. -/
theorem CommandEffect.ctx_of_fault {i : Instr} {s t : State} (h : CommandEffect s t i) (hs : FaultFree s)
    (ht : t.fault = true) : t.ctx = s.ctx := by
  rcases h.frame with rfl | ⟨_, c, op, info, _, rfl⟩ | ⟨_, ctx, hctx, r, mem, draws, _, rfl⟩
  · rfl
  · simp
  · exact absurd (hs.symm.trans ht) (by decide)

/-- UPDATE and FINAL on an UNSPECIFIED context enter a fault. -/
theorem exec_useAfterFail {i : Instr} {s : State} (hf : FaultFree s) (hu : Context.status s.ctx = .UNSPECIFIED)
    (hi : i = .update ∨ i = .final) : exec i s = .next (raiseFault .USE_AFTER_FAIL i.op (i.op.setWidth 64) s) := by
  obtain ⟨x, hx⟩ : ∃ x, s.ctx = .unspecified x := by
    cases hc : s.ctx <;> simp [hc, Context.status] at hu ⊢
  rcases hi with rfl | rfl
  · exact execUpdate_unspecified hf hx
  · exact execFinal_unspecified hf hx

/-- Settles O22: the three clauses about faults come from the shape of a command's effect, the table from its cases. -/
theorem statusTransitionsFollowTheTable : Obligations.StatusTransitionsFollowTheTable := by
  intro i s t he
  refine ⟨fun hf => eq_of_next he (exec_faulted i s hf),
    fun hf ht => by rw [(exec_effect he).ctx_of_fault hf ht], fun hf hu hi => ?_, fun hf ht => ?_⟩
  · rw [eq_of_next he (exec_useAfterFail hf hu hi), raiseFault_clear _ _ _ _ hf]
    exact ⟨rfl, rfl⟩
  · cases exec_effect he with
    | ignored hf' _ => exact absurd (hf.symm.trans hf') (by decide)
    | useAfterFail _ _ _ e | updateBounds _ _ _ _ e | finalBounds _ _ _ e | hashSrcBounds _ _ _ e
    | hashDstBounds _ _ _ _ e => simp [e] at ht
    | initUnsupported _ hn e | initStarted _ hn e =>
      simp only [← ofBits_isSome_iff, hn, e]
      exact ⟨rfl, rfl⟩
    | noSession _ hi hc e =>
      rcases hi with rfl | rfl <;> cases hx : s.ctx <;> simp_all [Context.status]
    | updateAfterRemainder _ hc hr e => simp [hc, hr, e, Context.status]
    | updateFed _ hc hr _ e => simp [hc, hr, e, Context.status]
    | finalStored _ hc _ e => simp [hc, e, Context.status]
    | hashUnsupported _ _ e | hashStored _ _ _ _ e => rw [e]; rfl

end Sys2Proof.Machine
end

section
/-! SUPPORT. Bytes of a finished context that are no message (O37): FINAL's blocks depend on the buffer only through the
message bytes, the valid bits of a partial byte and the length (R270 to R273). -/

namespace Sys2Proof.Machine

/-- Two contexts that a compression cannot tell apart: they differ at most behind the block, and in p and r. -/
structure SameToCompression {w : Nat} (x y : HashState w) : Prop where
  cv : x.cv = y.cv
  ctr : x.ctr = y.ctr
  T : x.T = y.T
  bytes : ∀ i (_ : i < 128), i < blockBytes w → x.buf[i] = y.buf[i]

/-- Two contexts that hold the same message: they differ at most in buffer bytes above p and in the unused bits of the
partial byte at p. -/
structure SameMessage {w : Nat} (x y : HashState w) : Prop where
  cv : x.cv = y.cv
  ctr : x.ctr = y.ctr
  T : x.T = y.T
  p : x.p = y.p
  r : x.r = y.r
  bytes : ∀ i (_ : i < 128), i < x.p → x.buf[i] = y.buf[i]
  bits : ∀ i, 8 - x.r ≤ i → (x.buf.toList.getD x.p 0).getLsbD i = (y.buf.toList.getD x.p 0).getLsbD i

/-- The byte with the padding bit depends on the r valid bits only (R270). -/
theorem padByte_congr {r : Nat} (a b : Byte) (h : ∀ i, 8 - r ≤ i → a.getLsbD i = b.getLsbD i) :
    padByte a r = padByte b r := by
  have hmask : a &&& ((0xFF : Byte) <<< (8 - r)) = b &&& ((0xFF : Byte) <<< (8 - r)) := by
    apply BitVec.eq_of_getLsbD_eq
    intro i _
    rw [BitVec.getLsbD_and, BitVec.getLsbD_and, BitVec.getLsbD_shiftLeft]
    by_cases hi : 8 - r ≤ i
    · rw [h i hi]
    · simp [show i < 8 - r by omega]
  unfold padByte
  rw [hmask]

section Finish
variable {w : Nat} (cfg : CoreCfg w) {x y : HashState w}

theorem SameToCompression.block (h : SameToCompression x y) : Machine.block x = Machine.block y := by
  apply List.ext_getElem
  · simp [Machine.block]
  · intro i hi _
    simp only [Machine.block, List.length_take, Vector.length_toList] at hi
    simpa [Machine.block] using h.bytes i (by omega) (by omega)

/-- Compressing the block of two such contexts gives two such contexts. -/
theorem SameToCompression.compress (h : SameToCompression x y) {c d : BitVec (2 * w)} (hc : c = d) :
    SameToCompression (compress cfg x (Machine.block x) c) (Machine.compress cfg y (Machine.block y) d) where
  cv := by rw [compress_cv, compress_cv, h.cv, h.block, hc]
  ctr := by rw [compress_ctr, compress_ctr, h.ctr]
  T := h.T
  bytes := h.bytes

/-- Byte i of the padded block: message, then the padding bit's byte, then zeros. -/
theorem padBuf_getElem (x : HashState w) (i : Nat) (hi : i < 128) (hb : i < blockBytes w) :
    (padBuf x)[i] =
      if i < x.p then x.buf[i] else if i = x.p then padByte (x.buf.toList.getD x.p 0) x.r else 0 := by
  rw [padBuf, zeroFill_getElem, Vector.getElem_setIfInBounds]
  rcases Nat.lt_trichotomy i x.p with h | h | h
  · rw [if_neg (by omega), if_neg (by omega), if_pos h]
  · rw [if_neg (by omega), if_pos h.symm, if_neg (by omega), if_pos h]
  · rw [if_pos (by omega), if_neg (by omega), if_neg (by omega)]

/-- Padding forgets what is not message. -/
theorem SameMessage.pad (h : SameMessage x y) :
    SameToCompression { x with buf := padBuf x } { y with buf := padBuf y } where
  cv := h.cv
  ctr := h.ctr
  T := h.T
  bytes i hi hb := by
    have hpad : padByte (x.buf.toList.getD x.p 0) x.r = padByte (y.buf.toList.getD y.p 0) y.r := by
      rw [← h.p, ← h.r]; exact padByte_congr _ _ h.bits
    show (padBuf x)[i] = (padBuf y)[i]
    rw [padBuf_getElem x i hi hb, padBuf_getElem y i hi hb, hpad, ← h.p]
    by_cases hm : i < x.p
    · rw [if_pos hm, if_pos hm, h.bytes i hi hm]
    · rw [if_neg hm, if_neg hm]

theorem SameToCompression.zeroBlock (h : SameToCompression x y) (n : Nat) :
    SameToCompression { x with buf := zeroFill x.buf 0 n } { y with buf := zeroFill y.buf 0 n } where
  cv := h.cv
  ctr := h.ctr
  T := h.T
  bytes i hi hb := by
    show (zeroFill x.buf 0 n)[i] = (zeroFill y.buf 0 n)[i]
    rw [zeroFill_getElem, zeroFill_getElem, h.bytes i hi hb]

/-- The block that is padded, or left zeroed behind the extra block, is the same (R272). -/
theorem SameMessage.finishPad (h : SameMessage x y) :
    SameToCompression (finishPad cfg x) (Machine.finishPad cfg y) := by
  have hextra : needsExtraBlock y = needsExtraBlock x := by rw [needsExtraBlock, needsExtraBlock, h.p]
  cases hx : needsExtraBlock x
  · simp only [Machine.finishPad, hextra, hx, Bool.false_eq_true, if_false]
    exact h.pad
  · simp only [Machine.finishPad, hextra, hx, if_true]
    exact (h.pad.compress cfg h.ctr).zeroBlock (blockBytes w)

@[simp] theorem putLength_cv (x : HashState w) : (putLength x).cv = x.cv := by rw [putLength]
@[simp] theorem putLength_ctr (x : HashState w) : (putLength x).ctr = x.ctr := by rw [putLength]
@[simp] theorem putLength_T (x : HashState w) : (putLength x).T = x.T := by rw [putLength]
@[simp] theorem putLength_buf (x : HashState w) :
    (putLength x).buf = putBytes x.buf (blockBytes w - 16) (lenField x.T) := by rw [putLength]

/-- The length field goes into both blocks alike (R273). -/
theorem SameToCompression.putLength (h : SameToCompression x y) :
    SameToCompression (putLength x) (Machine.putLength y) where
  cv := by rw [putLength_cv, putLength_cv, h.cv]
  ctr := by rw [putLength_ctr, putLength_ctr, h.ctr]
  T := by rw [putLength_T, putLength_T, h.T]
  bytes i hi hb := by
    simp only [putLength_buf, putBytes_getElem, h.T, h.bytes i hi hb]

/-- FINAL's chaining value depends on the message only. -/
theorem SameMessage.finish_cv (h : SameMessage x y) : (finish cfg x).cv = (finish cfg y).cv := by
  have hlast : SameToCompression (Machine.putLength (Machine.finishPad cfg x))
      (Machine.putLength (Machine.finishPad cfg y)) := (h.finishPad cfg).putLength
  have hctr : (Machine.putLength (Machine.finishPad cfg x)).ctr ^^^ finConst cfg =
      (Machine.putLength (Machine.finishPad cfg y)).ctr ^^^ finConst cfg := by rw [hlast.ctr]
  exact (hlast.compress cfg hctr).cv

end Finish

/-- The bytes of two buffers agree below p when their first p bytes are the same list. -/
theorem getElem_eq_of_take_eq {a b : Buf} {p : Nat} (h : a.toList.take p = b.toList.take p) (i : Nat) (hi : i < 128)
    (hp : i < p) : a[i] = b[i] := by
  have hget := congrArg (·[i]?) h
  simpa [List.getElem?_take, hp, hi] using hget

/-- Equal registers and equal message bytes and bits give the same chaining value, in either class. -/
theorem finish_cv_congr {w : Nat} (cfg : CoreCfg w) {x y : HashState w} (hp : y.p = x.p) (hr : y.r = x.r)
    (hcv : y.cv = x.cv) (hctr : y.ctr = x.ctr) (hT : y.T = x.T)
    (hbuf : y.buf.toList.take x.p = x.buf.toList.take x.p)
    (hbits : ∀ i, 8 - x.r ≤ i → (y.buf.toList.getD x.p 0).getLsbD i = (x.buf.toList.getD x.p 0).getLsbD i) :
    (finish cfg y).cv = (finish cfg x).cv := by
  have hsame : SameMessage x y :=
    { cv := hcv.symm, ctr := hctr.symm, T := hT.symm, p := hp.symm, r := hr.symm
      bytes := getElem_eq_of_take_eq hbuf.symm
      bits := fun i hi => (hbits i hi).symm }
  exact (hsame.finish_cv cfg).symm

/-- Settles O37, for both width classes. -/
theorem digestIgnoresWhatIsNotMessage : Obligations.DigestIgnoresWhatIsNotMessage :=
  ⟨fun cfg _ _ _ _ => finish_cv_congr cfg, fun cfg _ _ _ _ => finish_cv_congr cfg⟩

end Sys2Proof.Machine
end

section
/-! SUPPORT. The register interface: accesses at a register, inside one and at unassigned offsets (O5, O55, O56, O57). -/

namespace Sys2Proof.Machine

section Accesses
variable (s : State)

/-- A write whose value does not fit the register is refused (R53). -/
theorem hostMove_wrReg_tooWide (r : Reg) (v : Nat) (h : 2 ^ (8 * AccessWidth.bytes (Reg.width r)) ≤ v) :
    hostMove (wrReg r v) s = .refused .valueTooWide := by
  simp only [hostMove, wrReg, hostWrite, regAt_offset, ne_eq, not_true_eq_false, if_false, h, if_true]

/-- A CMD write issues its word as a command (R46). -/
theorem hostMove_wrReg_cmd (v : BitVec 32) : hostMove (wrReg .CMD v.toNat) s = issueCmd v s := by
  rw [hostMove_wrReg .CMD v.toNat s v.isLt, writeTo, BitVec.ofNat_toNat, BitVec.setWidth_eq]

/-- An engine that is not faulted performs the command of a legal word. -/
theorem issueCmd_legal {s : State} {v : BitVec 32} {i : Instr} (hf : s.fault = false) (hd : decode v = .ok i) :
    issueCmd v s = exec i s := by
  simp [issueCmd, hf, hd]

/-- A faulted engine ignores a CMD write (R339). -/
theorem issueCmd_faulted {s : State} (v : BitVec 32) (hf : s.fault = true) : issueCmd v s = .next s := by
  simp [issueCmd, hf]

/-- A fitting write to a read-only register raises a fault (R53). -/
theorem hostMove_wrReg_readOnly {r : Reg} {v : Nat} (hr : r = .RESULT ∨ r = .STATUS ∨ r = .FAULT_INFO)
    (hv : v < 2 ^ (8 * AccessWidth.bytes (Reg.width r))) :
    hostMove (wrReg r v) s = .next (raiseFault .BAD_REG_ACCESS 0 (BitVec.ofNat 64 (Reg.offset r)) s) := by
  rw [hostMove_wrReg r v s hv]
  rcases hr with rfl | rfl | rfl <;> rfl

section Unassigned
variable {off : Addr} (width : AccessWidth) (hat : Reg.at off = none) (hin : insideReg off = false)
include hat hin

/-- A write to an unassigned offset raises a fault (R53). -/
theorem hostMove_wr_unassigned (v : Nat) :
    hostMove (.wr off width v) s = .next (raiseFault .BAD_REG_ACCESS 0 off s) := by
  simp [hostMove, hostWrite, hat, hin]

/-- A read of an unassigned offset returns no value and raises a fault (R55). -/
theorem hostMove_rd_unassigned :
    hostMove (.rd off width) s = .next (raiseFault .BAD_REG_ACCESS 0 off (logRead off none s)) := by
  simp [hostMove, hostRead, hat, hin]

end Unassigned

/-- An offset starts no register when it differs from every register's offset. -/
theorem regAt_eq_none_iff (off : Addr) : Reg.at off = none ↔ ∀ r, Reg.offset r ≠ off.toNat := by
  simp only [Reg.at, List.find?_eq_none, beq_iff_eq]
  exact ⟨fun h r => h r (by cases r <;> decide), fun h r _ => h r⟩

/-- An offset is inside a register when it lies behind the register's first byte and within its width (R55). -/
theorem insideReg_iff (off : Addr) : insideReg off = true ↔
    ∃ r, Reg.offset r < off.toNat ∧ off.toNat < Reg.offset r + AccessWidth.bytes (Reg.width r) := by
  simp only [insideReg, List.any_eq_true, Bool.and_eq_true, decide_eq_true_eq]
  exact ⟨fun ⟨r, _, h⟩ => ⟨r, h⟩, fun ⟨r, h⟩ => ⟨r, by cases r <;> decide, h⟩⟩

/-- The registers stand in slots of 8 bytes, none wider than its slot, all below 0x38 (R45). -/
theorem reg_slots (r : Reg) : Reg.offset r % 8 = 0 ∧ AccessWidth.bytes (Reg.width r) ≤ 8 ∧
    Reg.offset r + AccessWidth.bytes (Reg.width r) ≤ 0x38 ∧ Reg.offset r < 0x38 := by
  cases r <;> decide

/-- No offset inside a register starts another. -/
theorem regAt_of_insideReg {off : Addr} (h : insideReg off = true) : Reg.at off = none := by
  obtain ⟨r, hlo, hhi⟩ := (insideReg_iff off).1 h
  refine (regAt_eq_none_iff off).2 fun q hq => ?_
  have hr := reg_slots r
  have hq' := reg_slots q
  omega

/-- Offsets from 0x38 up are unassigned (log 12). -/
theorem unassigned_beyond_window {off : Addr} (h : 0x38 ≤ off.toNat) : Reg.at off = none ∧ insideReg off = false := by
  constructor
  · refine (regAt_eq_none_iff off).2 fun r hr => ?_
    have := reg_slots r
    omega
  · rw [Bool.eq_false_iff, ne_eq, insideReg_iff]
    rintro ⟨r, _, hhi⟩
    have := reg_slots r
    omega

/-- A misaligned access is refused (R55, R78). -/
theorem hostMove_misaligned {off : Addr} (width : AccessWidth) (v : Nat) (h : insideReg off = true) :
    hostMove (.rd off width) s = .refused .misalignedAccess ∧
    hostMove (.wr off width v) s = .refused .misalignedAccess := by
  simp [hostMove, hostRead, hostWrite, regAt_of_insideReg h, h]

/-- An access at another width than the register's is refused (R55, R78). -/
theorem hostMove_partialWidth (r : Reg) {width : AccessWidth} (v : Nat) (h : width ≠ Reg.width r) :
    hostMove (.rd (BitVec.ofNat 64 (Reg.offset r)) width) s = .refused .partialWidthAccess ∧
    hostMove (.wr (BitVec.ofNat 64 (Reg.offset r)) width v) s = .refused .partialWidthAccess := by
  simp [hostMove, hostRead, hostWrite, h]

/-- The register window is [P_REG_BASE, P_REG_BASE + 0x38) (R45). -/
theorem inWindow_iff (l : Launch) (a : Nat) :
    inWindow l a = true ↔ l.regBase.toNat ≤ a ∧ a < l.regBase.toNat + 0x38 := by
  simp only [inWindow, Bool.and_eq_true, decide_eq_true_eq]
  rfl

/-- A store into the register window is a byte-wide write at its offset (R83; log 11). -/
theorem hostMove_store_window {s : State} {off : Addr} (b : Byte) (hoff : off.toNat < 0x38)
    (hwrap : s.launch.regBase.toNat + off.toNat < 2 ^ 64) :
    hostMove (.store (s.launch.regBase + off) b) s = hostMove (.wr off .b8 b.toNat) s := by
  have haddr : (s.launch.regBase + off).toNat = s.launch.regBase.toNat + off.toNat := by
    rw [BitVec.toNat_add, Nat.mod_eq_of_lt hwrap]
  have hin : inWindow s.launch (s.launch.regBase + off).toNat = true := by
    rw [inWindow_iff, haddr]; omega
  have hback : s.launch.regBase + off - s.launch.regBase = off := by rw [BitVec.add_comm, BitVec.add_sub_cancel]
  simp only [hostMove, hostStore, hin, if_true, hback]

/-- A store outside the register window writes that byte of memory (R83). -/
theorem hostMove_store_memory {s : State} {addr : Addr} (b : Byte)
    (h : addr.toNat < s.launch.regBase.toNat ∨ s.launch.regBase.toNat + 0x38 ≤ addr.toNat) :
    hostMove (.store addr b) s = .next { s with mem := Memory.write s.mem addr.toNat b } := by
  have hout : inWindow s.launch addr.toNat = false := by
    rw [Bool.eq_false_iff, ne_eq, inWindow_iff]
    omega
  simp only [hostMove, hostStore, hout, Bool.false_eq_true, if_false]

end Accesses

/-- A move that raises a fault records it on an engine that is not faulted and changes nothing on a faulted one (R335,
R340). -/
theorem next_of_raiseFault {o : Host.Outcome State Fault Refusal} {c : Cause} {op : BitVec 4} {info : BitVec 64}
    {s : State} (h : o = .next (raiseFault c op info s)) :
    (s.fault = false → o = .next { s with fault := true, cause := c, faultOp := op, faultInfo := info }) ∧
    (s.fault = true → o = .next s) :=
  ⟨fun hf => by rw [h, raiseFault_clear c op info s hf], fun hf => by rw [h, raiseFault_set c op info s hf]⟩

/-- Settles O5: the move at the head of the queue is a CMD write, which issues the word as a command. -/
theorem stepRunsTheDecodedCommand : Obligations.StepRunsTheDecodedCommand := by
  have hissue : ∀ (s : State) (v : BitVec 32), step (s.withFetchWord 32 v.toNat) = issueCmd v s := by
    intro s v
    rw [step_move _ _ _ (withFetchWord_pending s 32 v.toNat), Nat.mod_eq_of_lt v.isLt, hostMove_wrReg_cmd]
    rfl
  refine ⟨fun s v i rest hf hp hd => ?_, fun s v i hf hd => ?_, fun s v hf => ?_⟩
  · rw [step_move s _ rest hp, hostMove_wrReg_cmd]
    exact issueCmd_legal hf hd
  · rw [hissue, issueCmd_legal hf hd]
  · rw [hissue, issueCmd_faulted v hf]

/-- Settles O55: the value logged is the register's, case by case. -/
theorem registerReadsReturnTheValue : Obligations.RegisterReadsReturnTheValue := by
  intro s r
  rw [hostMove_rdReg]
  cases r <;> rfl

/-- Settles O56: each clause is one rule of a register write, with the two cases of a fault. -/
theorem registerWritesFollowTheMap : Obligations.RegisterWritesFollowTheMap := by
  intro s
  refine ⟨fun r v => hostMove_wrReg_tooWide s r v, hostMove_wrReg_cmd s, fun v => ?_, fun r v hr hv => ?_,
    fun off width v hat hin => ?_⟩
  · have hfit : ∀ r, Reg.width r = .b64 → v.toNat < 2 ^ (8 * AccessWidth.bytes (Reg.width r)) := by
      intro r hr; rw [hr]; exact v.isLt
    rw [hostMove_wrReg _ _ _ (hfit .SRC_ADDR rfl), hostMove_wrReg _ _ _ (hfit .BIT_LEN rfl),
      hostMove_wrReg _ _ _ (hfit .DST_ADDR rfl)]
    simp [writeTo]
  · exact next_of_raiseFault (hostMove_wrReg_readOnly s hr hv)
  · exact next_of_raiseFault (hostMove_wr_unassigned s width hat hin v)

/-- Settles O57: each clause is one rule of an access that is not a register's own. -/
theorem badRegisterAccessesFaultOrAreRefused : Obligations.BadRegisterAccessesFaultOrAreRefused := by
  refine ⟨fun s off width hat hin hf => ?_, fun s off width v h => hostMove_misaligned s width v h,
    fun s r width v h => hostMove_partialWidth s r v h, ?_, by decide,
    fun s off b hoff hwrap => hostMove_store_window b hoff hwrap, fun s addr b h => hostMove_store_memory b h⟩
  · exact (next_of_raiseFault (hostMove_rd_unassigned s width hat hin)).1 hf
  · rintro off (rfl | rfl | rfl | h)
    · decide
    · decide
    · decide
    · exact unassigned_beyond_window h

end Sys2Proof.Machine
end

section
/-! SUPPORT. The words of RESULT and STATUS, bit by bit (O7, O58). -/

namespace Sys2Proof.Machine

/-- Settles O7: the reset state, field by field. -/
theorem resetStateIsTheSpecs : Obligations.ResetStateIsTheSpecs :=
  ⟨rfl, rfl, rfl, rfl, rfl, rfl, rfl, rfl, rfl, rfl⟩

theorem ctxStatus_code_lt (c : CtxStatus) : CtxStatus.code c < 2 ^ 3 := by cases c <;> decide

theorem cause_code_lt (c : Cause) : Cause.code c < 2 ^ 3 := by cases c <;> decide

theorem resultCode_code_lt (c : ResultCode) : ResultCode.code c < 2 ^ 2 := by cases c <;> decide

/-- A number of k bits has no bit from k on. -/
theorem testBit_eq_false_of_lt {n k j : Nat} (hn : n < 2 ^ k) (hj : k ≤ j) : n.testBit j = false :=
  Nat.testBit_lt_two_pow (Nat.lt_of_lt_of_le hn (Nat.pow_le_pow_right (by decide) hj))

/-- Bit i of the STATUS word: CTX in [2:0], FAULT in 3, CAUSE in [6:4], FAULT_OP in [11:8], all other bits 0 (R51). -/
theorem statusWord_getLsbD (s : State) (i : Nat) (hi : i < 32) :
    (statusWord s).getLsbD i =
      if i < 3 then (CtxStatus.code (Context.status s.ctx)).testBit i
      else if i = 3 then s.fault
      else if i < 7 then decide (4 ≤ i) && (Cause.code s.cause).testBit (i - 4)
      else decide (8 ≤ i) && s.faultOp.getLsbD (i - 8) := by
  have hctx : 3 ≤ i → (CtxStatus.code (Context.status s.ctx)).testBit i = false :=
    testBit_eq_false_of_lt (ctxStatus_code_lt _)
  have hcause : 7 ≤ i → (Cause.code s.cause).testBit (i - 4) = false := fun h =>
    testBit_eq_false_of_lt (cause_code_lt _) (by omega)
  simp only [statusWord, BitVec.getLsbD_or, BitVec.getLsbD_shiftLeft, BitVec.getLsbD_setWidth, BitVec.getLsbD_ofNat,
    BitVec.getLsbD_ofBool]
  by_cases h3 : i < 3
  · simp [hi, h3, show i < 4 by omega, show i < 8 by omega]
  by_cases h3' : i = 3
  · subst h3'; simp [hctx]
  by_cases h7 : i < 7
  · simp [hctx (by omega), hi, h3, h3', h7, show i - 3 ≠ 0 by omega, show 4 ≤ i by omega, show ¬ i < 4 by omega,
      show i < 8 by omega, show i - 4 < 32 by omega]
  · simp [hctx (by omega), hcause (by omega), hi, h3, h3', h7, show i - 3 ≠ 0 by omega, show i - 8 < 32 by omega,
      ← decide_not]

/-- Bit i of the RESULT word: CODE in [1:0], all other bits 0 (R50). -/
theorem resultWord_getLsbD (s : State) (i : Nat) (hi : i < 32) :
    (resultWord s).getLsbD i = (ResultCode.code s.result).testBit i := by
  rw [resultWord, BitVec.getLsbD_ofNat, decide_eq_true hi, Bool.true_and]

/-! ## The fields of the two words -/

section Fields
variable (s : State)

theorem resultWord_code : (resultWord s).extractLsb' 0 2 = BitVec.ofNat 2 (ResultCode.code s.result) := by
  apply BitVec.eq_of_getLsbD_eq
  intro i hi
  rw [BitVec.getLsbD_extractLsb', resultWord_getLsbD s _ (by omega), BitVec.getLsbD_ofNat, Nat.zero_add]

theorem resultWord_reserved : (resultWord s).extractLsb' 2 30 = 0 := by
  apply BitVec.eq_of_getLsbD_eq
  intro i hi
  rw [BitVec.getLsbD_extractLsb', resultWord_getLsbD s _ (by omega),
    testBit_eq_false_of_lt (resultCode_code_lt _) (by omega)]
  simp

theorem statusWord_ctx :
    (statusWord s).extractLsb' 0 3 = BitVec.ofNat 3 (CtxStatus.code (Context.status s.ctx)) := by
  apply BitVec.eq_of_getLsbD_eq
  intro i hi
  rw [BitVec.getLsbD_extractLsb', statusWord_getLsbD s _ (by omega), BitVec.getLsbD_ofNat, Nat.zero_add, if_pos hi]

theorem statusWord_fault : (statusWord s).getLsbD 3 = s.fault := statusWord_getLsbD s 3 (by decide)

theorem statusWord_cause : (statusWord s).extractLsb' 4 3 = BitVec.ofNat 3 (Cause.code s.cause) := by
  apply BitVec.eq_of_getLsbD_eq
  intro i hi
  rw [BitVec.getLsbD_extractLsb', statusWord_getLsbD s _ (by omega), BitVec.getLsbD_ofNat,
    if_neg (by omega), if_neg (by omega), if_pos (by omega), Nat.add_sub_cancel_left, decide_eq_true hi,
    decide_eq_true (by omega), Bool.true_and]

theorem statusWord_bit7 : (statusWord s).getLsbD 7 = false := statusWord_getLsbD s 7 (by decide)

theorem statusWord_faultOp : (statusWord s).extractLsb' 8 4 = s.faultOp := by
  apply BitVec.eq_of_getLsbD_eq
  intro i hi
  rw [BitVec.getLsbD_extractLsb', statusWord_getLsbD s _ (by omega), decide_eq_true hi, Bool.true_and,
    if_neg (by omega), if_neg (by omega), if_neg (by omega), Nat.add_sub_cancel_left, decide_eq_true (by omega),
    Bool.true_and]

theorem statusWord_reserved : (statusWord s).extractLsb' 12 20 = 0 := by
  apply BitVec.eq_of_getLsbD_eq
  intro i hi
  rw [BitVec.getLsbD_extractLsb', statusWord_getLsbD s _ (by omega), if_neg (by omega), if_neg (by omega),
    if_neg (by omega), BitVec.getLsbD_of_ge s.faultOp _ (by omega)]
  simp

end Fields

/-- Settles O58: each field by its lemma, the codes of R50 and R51 by cases. -/
theorem resultAndStatusWordsHaveTheirFields : Obligations.ResultAndStatusWordsHaveTheirFields := by
  intro s
  refine ⟨?_, resultWord_reserved s, ?_, statusWord_fault s, ?_, statusWord_bit7 s, statusWord_faultOp s,
    statusWord_reserved s⟩
  · rw [resultWord_code]; cases s.result <;> rfl
  · rw [statusWord_ctx]; cases s.ctx <;> rfl
  · rw [statusWord_cause]; cases s.cause <;> rfl

end Sys2Proof.Machine
end

section
/-! SUPPORT. What commands store in host memory, and what INIT, UPDATE, FINAL and HASH leave of the two contexts and the
fault record (20_memory.md R73; O20, O21). -/

namespace Sys2Proof.Machine

/-- HASH writes no more bytes than its digest length has. -/
theorem hashDigest_length_le (s : State) (n : DigestLen) : (hashDigest s n).length ≤ DigestLen.bytes n := by
  have hlen := digest_length_le s.launch (Session.feed s.launch
    (memRead s.mem s.srcAddr.toNat (messageBytes s.bitLen)) s.bitLen (Session.start s.launch s.draws n))
  rwa [Session.feed_n, Session.start_n] at hlen

/-- A write of at most `len` bytes leaves what lies outside [addr, addr + len) alone. -/
theorem read_memWrite_outside {m : Memory} {addr len a : Nat} {bs : List Byte} (hlen : bs.length ≤ len)
    (ha : a < addr ∨ addr + len ≤ a) : Memory.read (memWrite m addr bs) a = Memory.read m a :=
  read_memWrite_other m addr bs a (by omega)

section Stores
variable {s t : State} {i : Instr}

/-- A command stores nothing, or it is a FINAL of a session or a HASH of a supported length and stores the digest at
DST_ADDR (R73). -/
theorem CommandEffect.mem_cases (e : CommandEffect s t i) :
    t.mem = s.mem ∨
    (∃ x, i = .final ∧ s.ctx = .accepting x ∧
      t.mem = memWrite s.mem s.dstAddr.toNat (Session.digest s.launch x)) ∨
    (∃ h n, i = .hash h ∧ DigestLen.ofBits h = some n ∧
      t.mem = memWrite s.mem s.dstAddr.toNat (hashDigest s n)) := by
  cases e with
  | finalStored _ hc _ ht => exact .inr (.inl ⟨_, rfl, hc, by rw [ht, setResult_mem]⟩)
  | hashStored _ hn _ _ ht => exact .inr (.inr ⟨_, _, rfl, hn, by rw [ht, setResult_mem]⟩)
  | ignored _ ht | initUnsupported _ _ ht | initStarted _ _ ht | useAfterFail _ _ _ ht | noSession _ _ _ ht
  | updateAfterRemainder _ _ _ ht | updateBounds _ _ _ _ ht | updateFed _ _ _ _ ht | finalBounds _ _ _ ht
  | hashUnsupported _ _ ht | hashSrcBounds _ _ _ ht | hashDstBounds _ _ _ _ ht => exact .inl (by simp [ht])

/-- Only a HASH writes the scratch context (R42, R263). -/
theorem CommandEffect.hctx_of_not_hash (e : CommandEffect s t i) (hi : ∀ h, i ≠ .hash h) : t.hctx = s.hctx := by
  cases e with
  | hashUnsupported | hashSrcBounds | hashDstBounds | hashStored => exact absurd rfl (hi _)
  | ignored _ ht | initUnsupported _ _ ht | initStarted _ _ ht | useAfterFail _ _ _ ht | noSession _ _ _ ht
  | updateAfterRemainder _ _ _ ht | updateBounds _ _ _ _ ht | updateFed _ _ _ _ ht | finalBounds _ _ _ ht
  | finalStored _ _ _ ht => simp [ht]

/-- HASH leaves the persistent context as it was (R280). -/
theorem CommandEffect.ctx_of_hash {h : Nat} (e : CommandEffect s t (.hash h)) : t.ctx = s.ctx := by
  cases e with
  | useAfterFail _ hi | noSession _ hi => simp at hi
  | ignored _ ht | hashUnsupported _ _ ht | hashSrcBounds _ _ _ ht | hashDstBounds _ _ _ _ ht
  | hashStored _ _ _ _ ht => simp [ht]

/-- INIT leaves the fault record as it was (R261). -/
theorem CommandEffect.faultRecord_of_init {h : Nat} (e : CommandEffect s t (.init h)) :
    t.fault = s.fault ∧ t.cause = s.cause ∧ t.faultOp = s.faultOp ∧ t.faultInfo = s.faultInfo := by
  cases e with
  | useAfterFail _ hi | noSession _ hi => simp at hi
  | ignored _ ht | initUnsupported _ _ ht | initStarted _ _ ht => simp [ht]

/-- INIT and UPDATE keep memory. -/
theorem CommandEffect.mem_of_init_or_update (e : CommandEffect s t i) (hi : (∃ h, i = .init h) ∨ i = .update) :
    t.mem = s.mem := by
  rcases e.mem_cases with hmem | ⟨_, rfl, _⟩ | ⟨_, _, rfl, _⟩
  · exact hmem
  · simp at hi
  · simp at hi

/-- FINAL keeps memory outside the destination range of the session it finalizes, and all of it without a session. -/
theorem CommandEffect.read_of_final (e : CommandEffect s t .final) {a : Nat}
    (ha : ∀ x, s.ctx = .accepting x → a < s.dstAddr.toNat ∨ s.dstAddr.toNat + DigestLen.bytes (Session.n x) ≤ a) :
    Memory.read t.mem a = Memory.read s.mem a := by
  rcases e.mem_cases with hmem | ⟨x, _, hc, hmem⟩ | ⟨_, _, hi, _⟩
  · rw [hmem]
  · rw [hmem]
    exact read_memWrite_outside (digest_length_le s.launch x) (ha x hc)
  · cases hi

/-- HASH keeps memory outside the destination range of its length, and all of it when the length is unsupported. -/
theorem CommandEffect.read_of_hash {h : Nat} (e : CommandEffect s t (.hash h)) {a : Nat}
    (ha : ∀ n, DigestLen.ofBits h = some n → a < s.dstAddr.toNat ∨ s.dstAddr.toNat + DigestLen.bytes n ≤ a) :
    Memory.read t.mem a = Memory.read s.mem a := by
  rcases e.mem_cases with hmem | ⟨_, hi, _⟩ | ⟨_, n, hi, hn, hmem⟩
  · rw [hmem]
  · cases hi
  · cases hi
    rw [hmem]
    exact read_memWrite_outside (hashDigest_length_le s n) (ha n hn)

end Stores

/-- Settles O20: neither command is one of the two that store, and neither is a HASH. -/
theorem initAndUpdateStoreNothing : Obligations.InitAndUpdateStoreNothing := by
  refine ⟨fun h s t he => ?_, fun s t he => ?_⟩
  · have e := exec_effect he
    exact ⟨fun a => by rw [e.mem_of_init_or_update (.inl ⟨h, rfl⟩)], e.hctx_of_not_hash (by simp),
      e.faultRecord_of_init⟩
  · have e := exec_effect he
    exact ⟨fun a => by rw [e.mem_of_init_or_update (.inr rfl)], e.hctx_of_not_hash (by simp)⟩

/-- Settles O21: what FINAL and HASH store is a digest of at most ceil(n/8) bytes at DST_ADDR. -/
theorem finalAndHashStoreOnlyTheirDigest : Obligations.FinalAndHashStoreOnlyTheirDigest := by
  refine ⟨fun s t he => ?_, fun h s t he => ?_⟩
  · have e := exec_effect he
    refine ⟨fun x a hc ha => e.read_of_final fun y hy => ?_, fun hs a => e.read_of_final fun x hc => ?_,
      e.hctx_of_not_hash (by simp)⟩
    · obtain rfl : x = y := by simpa [hc] using hy
      exact ha
    · exact absurd (by rw [hc]; rfl) hs
  · have e := exec_effect he
    refine ⟨fun n a hn ha => e.read_of_hash fun k hk => ?_, fun hn a => e.read_of_hash fun k hk => ?_, e.ctx_of_hash⟩
    · obtain rfl : n = k := by simpa [hn] using hk
      exact ha
    · simp [hn] at hk

end Sys2Proof.Machine
end

section
/-! SUPPORT. The fixed values of the admission predicate (20_memory.md R72; O59). -/

namespace Sys2Proof.Machine

section Admission
variable (l : Launch) (addr : Addr)

/-- An empty range is admitted (R72 (a)). -/
@[simp] theorem memAdmits_empty : memAdmits l addr 0 = true := by simp [memAdmits]

variable {l addr} {len : Nat}

/-- A range that wraps is not admitted (R72 (b)). -/
theorem memAdmits_eq_false_of_wraps (h : 2 ^ 64 < addr.toNat + len) : memAdmits l addr len = false :=
  Bool.eq_false_iff.2 fun hadm => Nat.not_lt.2 (memAdmits_bound hadm) h

/-- A nonempty range that overlaps the register window is not admitted (R72 (c)). -/
theorem memAdmits_eq_false_of_overlapsWindow (hlen : 0 < len) (h : overlapsWindow l addr.toNat len = true) :
    memAdmits l addr len = false := by
  simp [memAdmits, h, Nat.ne_of_gt hlen]

/-- A range with an address of the register window overlaps the window. -/
theorem overlapsWindow_of_inWindow {start a : Nat} (hlo : start ≤ a) (hhi : a < start + len)
    (ha : inWindow l a = true) : overlapsWindow l start len = true := by
  obtain ⟨hbase, htop⟩ := (inWindow_iff l a).1 ha
  simp only [overlapsWindow, Bool.and_eq_true, decide_eq_true_eq]
  exact ⟨Nat.lt_of_le_of_lt hlo htop, Nat.lt_of_le_of_lt hbase hhi⟩

end Admission

/-- Settles O59: one rule for each of the three values. -/
theorem admissionHasItsThreeFixedValues : Obligations.AdmissionHasItsThreeFixedValues := by
  intro l addr len
  refine ⟨memAdmits_empty l addr, fun _ hwrap => memAdmits_eq_false_of_wraps hwrap, ?_⟩
  rintro ⟨a, hlo, hhi, hwin⟩
  exact memAdmits_eq_false_of_overlapsWindow (by omega)
    (overlapsWindow_of_inWindow hlo hhi ((inWindow_iff l a).2 hwin))

end Sys2Proof.Machine
end

section
/-! SUPPORT. The command word: its three fields, what decodes to what, and which words are Illegal (O1, O2, O3, O4). -/

namespace Sys2Proof.Machine

/-! ## Fields of a word -/

/-- A command word is its three fields (30_encoding.md R100). -/
theorem cmdWord_eq_append (v : BitVec 32) : v = cmdHbl v ++ cmdRsvd v ++ cmdOp v := by
  apply BitVec.eq_of_getLsbD_eq
  intro i hi
  simp only [cmdHbl, cmdRsvd, cmdOp, BitVec.getLsbD_append, BitVec.getLsbD_extractLsb']
  by_cases hop : i < 4
  · simp [hop]
  · by_cases hrsvd : i < 16
    · simp [hop, show i - 4 < 12 by omega, show 4 + (i - 4) = i by omega]
    · simp [hop, show ¬ i - 4 < 12 by omega, show i - 4 - 12 < 16 by omega, show 16 + (i - 4 - 12) = i by omega]

/-- Two words with the same fields are one word. -/
theorem cmdWord_ext {u v : BitVec 32} (hhbl : cmdHbl u = cmdHbl v) (hrsvd : cmdRsvd u = cmdRsvd v)
    (hop : cmdOp u = cmdOp v) : u = v := by
  rw [cmdWord_eq_append u, cmdWord_eq_append v, hhbl, hrsvd, hop]

/-- The low half of every command's word (R101, R102). -/
theorem encode_opField (i : Instr) : Laws.OpField.Statement i := by
  cases i with
  | init h => exact Laws.OpField.init h
  | update => exact Laws.OpField.update
  | final => exact Laws.OpField.final
  | hash h => exact Laws.OpField.hash h

@[simp] theorem cmdOp_encode (i : Instr) : cmdOp (encode i) = i.op := (encode_opField i).1

@[simp] theorem cmdRsvd_encode (i : Instr) : cmdRsvd (encode i) = 0 := (encode_opField i).2

/-- A command's word carries the low 16 bits of its HBL value (R103). -/
@[simp] theorem cmdHbl_encode (i : Instr) : cmdHbl (encode i) = BitVec.ofNat 16 i.hbl := by
  apply BitVec.eq_of_getLsbD_eq
  intro j hj
  have hop : i.op.getLsbD (16 + j) = false := BitVec.getLsbD_of_ge _ _ (by omega)
  simp only [cmdHbl, encode, BitVec.getLsbD_extractLsb', BitVec.getLsbD_or, BitVec.getLsbD_shiftLeft,
    BitVec.getLsbD_setWidth, BitVec.getLsbD_ofNat, hop]
  simp [hj, show j < 32 by omega, show 16 + j < 32 by omega]

/-- A command is well-formed when its HBL value fits the field (R103). -/
theorem wf_iff_hbl_lt (i : Instr) : i.wf = true ↔ i.hbl < 2 ^ 16 := by
  cases i <;> simp [Instr.wf, Instr.hblFits, Instr.hbl]

/-! ## What decodes to what -/

/-- The decoder reads a command off a word exactly when RSVD is 0, OP is the command's and HBL its HBL value (R108). -/
theorem decode_eq_ok_iff (v : BitVec 32) (i : Instr) :
    decode v = .ok i ↔ cmdRsvd v = 0 ∧ cmdOp v = i.op ∧ (cmdHbl v).toNat = i.hbl := by
  have hzero : cmdHbl v = 0 ↔ (cmdHbl v).toNat = 0 := (BitVec.toNat_inj (y := 0)).symm
  constructor
  · intro hd
    unfold decode at hd
    split at hd
    · cases hd
    · next hrsvd =>
      refine ⟨Decidable.of_not_not hrsvd, ?_⟩
      split at hd
      · next hop => cases hd; exact ⟨hop, rfl⟩
      · split at hd
        · next hop =>
          split at hd
          · next hhbl => cases hd; exact ⟨hop, hzero.1 hhbl⟩
          · cases hd
        · split at hd
          · next hop =>
            split at hd
            · next hhbl => cases hd; exact ⟨hop, hzero.1 hhbl⟩
            · cases hd
          · split at hd
            · next hop => cases hd; exact ⟨hop, rfl⟩
            · cases hd
  · rintro ⟨hrsvd, hop, hhbl⟩
    cases i <;> simp_all [decode, Instr.op, Instr.hbl]

/-- Settles O1: the encoder's word has the three fields that `decode_eq_ok_iff` asks for. -/
theorem decodeOfEncodeIsTheCommand : Obligations.DecodeOfEncodeIsTheCommand := by
  intro i hwf
  have hhbl : (BitVec.ofNat 16 i.hbl).toNat = i.hbl := by
    rw [BitVec.toNat_ofNat, Nat.mod_eq_of_lt ((wf_iff_hbl_lt i).1 hwf)]
  exact (decode_eq_ok_iff _ i).2 ⟨cmdRsvd_encode i, cmdOp_encode i, by rw [cmdHbl_encode, hhbl]⟩

/-- Settles O2: the three fields of a word that decodes are those of the command's word, and a word is its fields. -/
theorem encodeOfDecodeIsTheWord : Obligations.EncodeOfDecodeIsTheWord := by
  intro v i hd
  obtain ⟨hrsvd, hop, hhbl⟩ := (decode_eq_ok_iff v i).1 hd
  refine ⟨(wf_iff_hbl_lt i).2 (hhbl ▸ (cmdHbl v).isLt), cmdWord_ext ?_ ?_ ?_⟩
  · rw [cmdHbl_encode, ← hhbl, BitVec.ofNat_toNat, BitVec.setWidth_eq]
  · rw [cmdRsvd_encode, hrsvd]
  · rw [cmdOp_encode, hop]

/-! ## Illegal words -/

/-- The legal words: RSVD is 0, and OP is INIT's or HASH's, or UPDATE's or FINAL's with HBL 0 (R101, R102, R103). -/
theorem decode_isOk_iff (v : BitVec 32) : (∃ i, decode v = .ok i) ↔
    cmdRsvd v = 0 ∧ ((cmdOp v = 1 ∨ cmdOp v = 4) ∨ (cmdOp v = 2 ∨ cmdOp v = 3) ∧ cmdHbl v = 0) := by
  simp only [decode_eq_ok_iff]
  constructor
  · rintro ⟨i, hrsvd, hop, hhbl⟩
    have hzero : i.hbl = 0 → cmdHbl v = 0 := fun h => BitVec.eq_of_toNat_eq (hhbl.trans h)
    cases i with
    | init h => exact ⟨hrsvd, .inl (.inl hop)⟩
    | update => exact ⟨hrsvd, .inr ⟨.inl hop, hzero rfl⟩⟩
    | final => exact ⟨hrsvd, .inr ⟨.inr hop, hzero rfl⟩⟩
    | hash h => exact ⟨hrsvd, .inl (.inr hop)⟩
  · rintro ⟨hrsvd, (hop | hop) | ⟨hop | hop, hhbl⟩⟩
    · exact ⟨.init (cmdHbl v).toNat, hrsvd, hop, rfl⟩
    · exact ⟨.hash (cmdHbl v).toNat, hrsvd, hop, rfl⟩
    · exact ⟨.update, hrsvd, hop, by rw [hhbl]; rfl⟩
    · exact ⟨.final, hrsvd, hop, by rw [hhbl]; rfl⟩

/-- The OP values that are not reserved are 1 to 4 (R101). -/
theorem op_reserved_iff (op : BitVec 4) : op = 0 ∨ 5 ≤ op.toNat ↔ ¬ (op = 1 ∨ op = 2 ∨ op = 3 ∨ op = 4) := by
  revert op; decide

/-- Decoding answers a command or a reason. -/
theorem decode_error_iff_not_ok (v : BitVec 32) : (∃ e, decode v = .error e) ↔ ¬ ∃ i, decode v = .ok i := by
  cases decode v <;> simp

/-- An engine that is not faulted records an Illegal word (R105). -/
theorem issueCmd_illegal {s : State} {v : BitVec 32} {e : Illegal} (hf : s.fault = false) (hd : decode v = .error e) :
    issueCmd v s = .next { s with
      fault := true, cause := .ILLEGAL_CMD, faultOp := cmdOp v, faultInfo := v.setWidth 64 } := by
  simp [issueCmd, hf, hd, raiseFault_clear]

/-- Settles O3: the Illegal words are those outside `decode_isOk_iff`. -/
theorem illegalWordsAreExactlyTheseAndFault : Obligations.IllegalWordsAreExactlyTheseAndFault := by
  refine ⟨fun v => ?_, fun v e s hf hd => ?_⟩
  · rw [decode_error_iff_not_ok, decode_isOk_iff, op_reserved_iff]
    by_cases hnoHbl : cmdOp v = 2 ∨ cmdOp v = 3
    · have hop : ¬ (cmdOp v = 1 ∨ cmdOp v = 4) := by rcases hnoHbl with h | h <;> rw [h] <;> decide
      have hlegal : cmdOp v = 1 ∨ cmdOp v = 2 ∨ cmdOp v = 3 ∨ cmdOp v = 4 :=
        .inr (hnoHbl.imp_right .inl)
      simp only [hnoHbl, hop, hlegal, true_and, false_or, not_true_eq_false, ne_eq]
      exact Decidable.not_and_iff_not_or_not
    · have hlegal : (cmdOp v = 1 ∨ cmdOp v = 2 ∨ cmdOp v = 3 ∨ cmdOp v = 4) ↔ cmdOp v = 1 ∨ cmdOp v = 4 := by
        rw [← or_assoc (a := cmdOp v = 2)]
        simp only [hnoHbl, false_or]
      simp only [hnoHbl, hlegal, false_and, or_false, ne_eq]
      exact Decidable.not_and_iff_not_or_not.trans or_comm
  · rw [hostMove_wrReg_cmd, issueCmd_illegal hf hd]

/-- Settles O4: the decoder, evaluated on each of the words. -/
theorem specWordsDecodeAsWritten : Obligations.SpecWordsDecodeAsWritten :=
  ⟨rfl, rfl, rfl, rfl, rfl, rfl, rfl, rfl, rfl⟩

end Sys2Proof.Machine
end

section
/-! SUPPORT. The assembly forms: what they expand to, and what running their moves does (O60). -/

namespace Sys2Proof.Machine

/-- The value a command's form writes, as a sum (R110). -/
theorem cmdValue_eq (i : Instr) : cmdValue i = i.hbl * 2 ^ 16 + i.op.toNat := by
  have hop : i.op.toNat < 2 ^ 16 := Nat.lt_trans i.op.isLt (by decide)
  rw [cmdValue, ← Nat.shiftLeft_add_eq_or_of_lt hop, Nat.shiftLeft_eq]

/-- A command's form is one CMD write. -/
theorem expand_cmd (i : Instr) : Asm.expand (.cmd i) = [wrReg .CMD (i.hbl * 2 ^ 16 + i.op.toNat)] := by
  rw [← cmdValue_eq]; rfl

/-- The CMD write of a well-formed command's form performs that command. -/
theorem hostMove_wrCmd {s : State} {i : Instr} (hwf : i.wf = true) (hf : s.fault = false) :
    hostMove (wrCmd i) s = exec i s := by
  rw [wrCmd, cmdValue_eq_encode i hwf, hostMove_wrReg_cmd]
  exact issueCmd_legal hf (decodeOfEncodeIsTheCommand i hwf)

/-- The CMD write of a command whose HBL value does not fit its field is refused (R15, R53). -/
theorem hostMove_wrCmd_tooWide (s : State) {i : Instr} (h : 2 ^ 16 ≤ i.hbl) :
    hostMove (wrCmd i) s = .refused .valueTooWide :=
  hostMove_wrReg_tooWide s .CMD _ (cmdValue_too_wide i h)

/-! ## Running the host's moves -/

section Run
variable {s : State} {m : HostMove} {rest : List HostMove} {v : BitVec 64} {k : Nat}

/-- A run of one step is the step. -/
theorem core_run_one (M : Host.Core) (s : M.State) : M.run 1 s = M.step s := by
  simp only [Host.Core.run]
  cases M.step s <;> rfl

/-- A run goes on from the next state. -/
theorem core_run_next {M : Host.Core} {s t : M.State} (h : M.step s = .next t) : M.run (k + 1) s = M.run k t := by
  simp only [Host.Core.run, h]

/-- A run of the one move that is left. -/
theorem run_lastMove (hp : s.pending = [m]) : Host.Core.run core 1 s = hostMove m { s with pending := [] } := by
  exact (core_run_one core s).trans (step_move s m [] hp)

/-- A run goes on after a move that answers a next state. -/
theorem run_move {t : State} (hp : s.pending = m :: rest) (hm : hostMove m { s with pending := rest } = .next t) :
    Host.Core.run core (k + 1) s = Host.Core.run core k t :=
  core_run_next (M := core) ((step_move s m rest hp).trans hm)

/-- The three operand writes, from the map of register writes (R53). -/
theorem hostMove_operands (s : State) (v : BitVec 64) :
    hostMove (wrReg .SRC_ADDR v.toNat) s = .next { s with srcAddr := v } ∧
    hostMove (wrReg .BIT_LEN v.toNat) s = .next { s with bitLen := v } ∧
    hostMove (wrReg .DST_ADDR v.toNat) s = .next { s with dstAddr := v } := by
  obtain ⟨_, _, hoperand, _⟩ := registerWritesFollowTheMap s
  exact hoperand v

theorem run_srcAddr (hp : s.pending = wrReg .SRC_ADDR v.toNat :: rest) :
    Host.Core.run core (k + 1) s = Host.Core.run core k { s with srcAddr := v, pending := rest } := by
  obtain ⟨hsrc, _, _⟩ := hostMove_operands { s with pending := rest } v
  exact run_move hp hsrc

theorem run_bitLen (hp : s.pending = wrReg .BIT_LEN v.toNat :: rest) :
    Host.Core.run core (k + 1) s = Host.Core.run core k { s with bitLen := v, pending := rest } := by
  obtain ⟨_, hlen, _⟩ := hostMove_operands { s with pending := rest } v
  exact run_move hp hlen

theorem run_dstAddr (hp : s.pending = wrReg .DST_ADDR v.toNat :: rest) :
    Host.Core.run core (k + 1) s = Host.Core.run core k { s with dstAddr := v, pending := rest } := by
  obtain ⟨_, _, hdst⟩ := hostMove_operands { s with pending := rest } v
  exact run_move hp hdst

/-- A run that ends in the CMD write of a well-formed command's form ends with that command. -/
theorem run_wrCmd {i : Instr} (hwf : i.wf = true) (hp : s.pending = [wrCmd i]) (hf : s.fault = false) :
    Host.Core.run core 1 s = exec i { s with pending := [] } :=
  (run_lastMove hp).trans (hostMove_wrCmd hwf hf)

/-- A run that comes to the CMD write of a command too wide for its word is refused there. -/
theorem run_wrCmd_tooWide {i : Instr} (hw : 2 ^ 16 ≤ i.hbl) (hp : s.pending = [wrCmd i]) :
    Host.Core.run core 1 s = .refused .valueTooWide :=
  (run_lastMove hp).trans (hostMove_wrCmd_tooWide _ hw)

/-- HASH's form writes its three operands, and its CMD write is left. -/
theorem run_hashOperands (s : State) (src bitLen dst : BitVec 64) (hbl : Nat) :
    Host.Core.run core 4 { s with pending := Asm.expand (.hashOf hbl src.toNat bitLen.toNat dst.toNat) } =
      Host.Core.run core 1
        { s with srcAddr := src, bitLen := bitLen, dstAddr := dst, pending := [wrCmd (.hash hbl)] } :=
  (run_srcAddr rfl).trans ((run_bitLen rfl).trans (run_dstAddr rfl))

/-- UPDATE's form writes its two operands, and its CMD write is left. -/
theorem run_updateOperands (s : State) (src bitLen : BitVec 64) :
    Host.Core.run core 3 { s with pending := Asm.expand (.updateOf src.toNat bitLen.toNat) } =
      Host.Core.run core 1 { s with srcAddr := src, bitLen := bitLen, pending := [wrCmd .update] } :=
  (run_srcAddr rfl).trans (run_bitLen rfl)

/-- FINAL's form writes its operand, and its CMD write is left. -/
theorem run_finalOperand (s : State) (dst : BitVec 64) :
    Host.Core.run core 2 { s with pending := Asm.expand (.finalTo dst.toNat) } =
      Host.Core.run core 1 { s with dstAddr := dst, pending := [wrCmd .final] } :=
  run_dstAddr rfl

end Run

/-- Settles O60: the operand writes one by one, then the CMD write, which is performed or refused. -/
theorem assemblyFormsExpandToTheirCommands : Obligations.AssemblyFormsExpandToTheirCommands := by
  intro s src bitLen dst hbl hf
  refine ⟨⟨expand_cmd (.init hbl), expand_cmd .update, expand_cmd .final, expand_cmd (.hash hbl)⟩,
    fun hfits => ⟨?_, ?_⟩, fun hwide => ⟨?_, ?_⟩, ?_, ?_⟩
  · exact run_wrCmd ((wf_iff_hbl_lt (.init hbl)).2 hfits) rfl hf
  · rw [run_hashOperands]
    exact run_wrCmd ((wf_iff_hbl_lt (.hash hbl)).2 hfits) rfl hf
  · exact run_wrCmd_tooWide (i := .init hbl) hwide rfl
  · rw [run_hashOperands]
    exact run_wrCmd_tooWide (i := .hash hbl) hwide rfl
  · rw [run_updateOperands]
    exact run_wrCmd rfl rfl hf
  · rw [run_finalOperand]
    exact run_wrCmd rfl rfl hf

end Sys2Proof.Machine
end

section
/-! SUPPORT. The field GF(2^8) of 40_constant_tables.md R141 (O43). `xtime` and the loop of `gmul` respect XOR, and
every byte is a sum of doublings of 1, so a ring law needs only be looked at for 1. The powers of the
generator 0x03 of R142 are all the bytes but 0, so each has an inverse among them. -/

namespace Sys2Proof.Machine

/-! ## Doubling -/

theorem xtime_eq (a : Byte) : xtime a = (a <<< 1) ^^^ (if a.getLsbD 7 then 0x1B else 0) := by
  unfold xtime
  rw [BitVec.msb_eq_getLsbD_last]
  split <;> simp

@[simp] theorem xtime_xor (a b : Byte) : xtime (a ^^^ b) = xtime a ^^^ xtime b := by
  have hreduce : (if (a ^^^ b).getLsbD 7 then (0x1B : Byte) else 0) =
      (if a.getLsbD 7 then 0x1B else 0) ^^^ (if b.getLsbD 7 then 0x1B else 0) := by
    rw [BitVec.getLsbD_xor]
    cases a.getLsbD 7 <;> cases b.getLsbD 7 <;> rfl
  simp only [xtime_eq, hreduce, BitVec.shiftLeft_xor_distrib]
  ac_rfl

/-- Horner's step: a byte is the double of its upper seven bits, plus its bit 0. -/
theorem xtime_ushiftRight_xor_bit (b : Byte) : xtime (b >>> 1) ^^^ (if b.getLsbD 0 then 1 else 0) = b := by
  revert b; decide +kernel

/-- The bytes are spanned by 1 under doubling and XOR. -/
theorem byte_induction {P : Byte → Prop} (one : P 1) (double : ∀ a, P a → P (xtime a))
    (xor : ∀ a b, P a → P b → P (a ^^^ b)) (a : Byte) : P a := by
  have zero : P 0 := xor 1 1 one one
  induction h : a.toNat using Nat.strongRecOn generalizing a with
  | ind n ih =>
    by_cases ha : a = 0
    · exact ha ▸ zero
    · have hlt : (a >>> 1).toNat < n := by
        have : a.toNat ≠ 0 := fun h0 => ha (BitVec.eq_of_toNat_eq h0)
        rw [BitVec.toNat_ushiftRight, Nat.shiftRight_eq_div_pow]
        omega
      have hbit : P (if a.getLsbD 0 then 1 else 0) := by split <;> assumption
      exact xtime_ushiftRight_xor_bit a ▸ xor _ _ (double _ (ih _ hlt _ rfl)) hbit

/-! ## Multiplication -/

theorem gmulLoop_xor (n : Nat) (a a' b r r' : Byte) :
    gmulLoop n (a ^^^ a') b (r ^^^ r') = gmulLoop n a b r ^^^ gmulLoop n a' b r' := by
  induction n generalizing a a' b r r' with
  | zero => rfl
  | succ n ih =>
    simp only [gmulLoop, xtime_xor, ← ih]
    split
    · congr 1; ac_rfl
    · rfl

theorem gmulLoop_xtime (n : Nat) (a b r : Byte) :
    gmulLoop n (xtime a) b (xtime r) = xtime (gmulLoop n a b r) := by
  induction n generalizing a b r with
  | zero => rfl
  | succ n ih =>
    simp only [gmulLoop, ← ih]
    split
    · rw [xtime_xor]
    · rfl

theorem gmul_xor_left (a a' b : Byte) : gmul (a ^^^ a') b = gmul a b ^^^ gmul a' b :=
  gmulLoop_xor 8 a a' b 0 0

@[simp] theorem gmul_xtime_left (a b : Byte) : gmul (xtime a) b = xtime (gmul a b) :=
  gmulLoop_xtime 8 a b 0

theorem gmul_zero_left (b : Byte) : gmul 0 b = 0 := by
  simpa using gmul_xor_left 0 0 b

theorem gmul_one_left (b : Byte) : gmul 1 b = b := by
  revert b; decide +kernel

theorem gmul_one_right (a : Byte) : gmul a 1 = a :=
  (Mds.gmulLoop_zero 7 (xtime a) (0 ^^^ a)).trans BitVec.zero_xor

theorem gmul_xor_right (a b c : Byte) : gmul a (b ^^^ c) = gmul a b ^^^ gmul a c := by
  induction a using byte_induction with
  | one => simp only [gmul_one_left]
  | double a ih => simp [ih]
  | xor a a' ih ih' => simp only [gmul_xor_left, ih, ih']; ac_rfl

@[simp] theorem gmul_xtime_right (a b : Byte) : gmul a (xtime b) = xtime (gmul a b) := by
  induction a using byte_induction with
  | one => simp only [gmul_one_left]
  | double a ih => simp [ih]
  | xor a a' ih ih' => simp [gmul_xor_left, ih, ih']

theorem gmul_comm (a b : Byte) : gmul a b = gmul b a := by
  induction a using byte_induction with
  | one => rw [gmul_one_left, gmul_one_right]
  | double a ih => simp [ih]
  | xor a a' ih ih' => rw [gmul_xor_left, gmul_xor_right, ih, ih']

theorem gmul_assoc (a b c : Byte) : gmul (gmul a b) c = gmul a (gmul b c) := by
  induction a using byte_induction with
  | one => simp only [gmul_one_left]
  | double a ih => simp [ih]
  | xor a a' ih ih' => simp only [gmul_xor_left, ih, ih']

theorem gmul_two_left (a : Byte) : gmul 0x02 a = xtime a := by
  rw [show (0x02 : Byte) = xtime 1 from rfl, gmul_xtime_left, gmul_one_left]

/-! ## Powers of the generator -/

theorem gmul_gexp_gexp (m n : Nat) : gmul (gexp m) (gexp n) = gexp (m + n) := by
  induction m with
  | zero => rw [gexp, gmul_one_left, Nat.zero_add]
  | succ m ih => rw [gexp, gmul_assoc, ih, Nat.succ_add, gexp]

theorem gexp_255 : gexp 255 = 1 := by decide +kernel

theorem gmul_gexp_compl {i : Nat} (hi : i ≤ 255) : gmul (gexp i) (gexp (255 - i)) = 1 := by
  rw [gmul_gexp_gexp, Nat.add_sub_cancel' hi, gexp_255]

/-- The set of the byte `a` and its next n - 1 products with the generator, as a number whose bit b stands for byte b. -/
def powersMask : Nat → Byte → Nat
  | 0, _ => 0
  | n + 1, a => 2 ^ a.toNat ||| powersMask n (gmul 0x03 a)

theorem exists_gexp_of_powersMask {n k : Nat} {b : Byte} (h : (powersMask n (gexp k)).testBit b.toNat = true) :
    ∃ i < k + n, gexp i = b := by
  induction n generalizing k with
  | zero => simp [powersMask] at h
  | succ n ih =>
    rw [powersMask, Nat.testBit_or, Bool.or_eq_true, Nat.testBit_two_pow, decide_eq_true_eq] at h
    rcases h with hhead | htail
    · exact ⟨k, by omega, BitVec.eq_of_toNat_eq hhead⟩
    · obtain ⟨i, hi, hexp⟩ := ih (k := k + 1) htail
      exact ⟨i, by omega, hexp⟩

/-- The first 255 powers are all the bytes but 0. -/
theorem powersMask_255 : powersMask 255 (gexp 0) = 2 ^ 256 - (2 ^ 0 + 1) := by decide +kernel

theorem exists_gexp_eq {a : Byte} (ha : a ≠ 0) : ∃ i < 255, gexp i = a := by
  have hpos : 0 ≠ a.toNat := fun h0 => ha (BitVec.eq_of_toNat_eq h0.symm)
  have hmask : (powersMask 255 (gexp 0)).testBit a.toNat = true := by
    rw [powersMask_255, Nat.testBit_two_pow_sub_succ (by decide), Nat.testBit_two_pow, decide_eq_false hpos,
      decide_eq_true (show a.toNat < 256 from a.isLt)]
    rfl
  obtain ⟨i, hi, hexp⟩ := exists_gexp_of_powersMask hmask
  exact ⟨i, by omega, hexp⟩

theorem exists_gmul_eq_one {a : Byte} (ha : a ≠ 0) : ∃ d, gmul a d = 1 := by
  obtain ⟨i, hi, rfl⟩ := exists_gexp_eq ha
  exact ⟨gexp (255 - i), gmul_gexp_compl (Nat.le_of_lt hi)⟩

/-- Settles O43: the laws by linearity, the inverses by the powers of the generator. -/
theorem gmulIsFieldMultiplication : Obligations.GmulIsFieldMultiplication := fun a b c =>
  ⟨gmul_zero_left b, gmul_one_left b, gmul_comm a b, gmul_assoc a b c, gmul_xor_right a b c,
    exists_gmul_eq_one, (gmul_two_left a).trans (xtime_eq a), gmul_two_left 0x80⟩

end Sys2Proof.Machine
end

section
/-! SUPPORT. The inverse of R142, by search and by log and antilog, and the S-box of R143 to R145 (O44, O45, O46):
what the affine step of R143 turns into a ROM entry is the inverse. -/

namespace Sys2Proof.Machine

/-! ## Inverses -/

/-- A search that can succeed answers with something it searched for. -/
theorem find?_getD_spec {α : Type} {p : α → Bool} {l : List α} (d : α) (h : ∃ a ∈ l, p a = true) :
    (l.find? p).getD d ∈ l ∧ p ((l.find? p).getD d) = true := by
  obtain ⟨a, ha⟩ := Option.isSome_iff_exists.1 (List.find?_isSome.2 h)
  rw [ha, Option.getD_some]
  exact ⟨List.mem_of_find?_eq_some ha, List.find?_some ha⟩

theorem glog_spec {a : Byte} (ha : a ≠ 0) : glog a < 255 ∧ gexp (glog a) = a := by
  obtain ⟨i, hi, hexp⟩ := exists_gexp_eq ha
  obtain ⟨hmem, hfound⟩ := find?_getD_spec (p := fun i => gexp i = a) 0
    ⟨i, List.mem_range.2 hi, decide_eq_true hexp⟩
  exact ⟨List.mem_range.1 hmem, of_decide_eq_true hfound⟩

theorem gmul_ginvTables {a : Byte} (ha : a ≠ 0) : gmul a (ginvTables a) = 1 := by
  obtain ⟨hlt, hexp⟩ := glog_spec ha
  have hexps : gmul a (ginvTables a) = gmul (gexp (glog a)) (gexp ((255 - glog a) % 255)) := by
    rw [ginvTables, if_neg ha, hexp]
  rw [hexps]
  by_cases h0 : glog a = 0
  · rw [h0]; rfl
  · rw [Nat.mod_eq_of_lt (by omega), gmul_gexp_compl (Nat.le_of_lt hlt)]

theorem ginv_zero : ginv 0 = 0 := if_pos rfl

theorem gmul_ginv {a : Byte} (ha : a ≠ 0) : gmul a (ginv a) = 1 := by
  obtain ⟨d, hd⟩ := exists_gmul_eq_one ha
  have hmem : d ∈ (List.range 256).map (BitVec.ofNat 8) :=
    List.mem_map.2 ⟨d.toNat, List.mem_range.2 d.isLt, BitVec.ofNat_toNat ..⟩
  obtain ⟨_, hfound⟩ := find?_getD_spec (p := fun b => gmul a b = 1) 0 ⟨d, hmem, decide_eq_true hd⟩
  rw [ginv, if_neg ha]
  exact of_decide_eq_true hfound

theorem eq_of_gmul_eq_one {a b c : Byte} (hb : gmul a b = 1) (hc : gmul a c = 1) : b = c :=
  calc b = gmul b (gmul a c) := by rw [hc, gmul_one_right]
    _ = gmul (gmul a b) c := by rw [← gmul_assoc, gmul_comm b a]
    _ = c := by rw [hb, gmul_one_left]

theorem ne_zero_of_gmul_eq_one {a b : Byte} (h : gmul a b = 1) : a ≠ 0 := by
  rintro rfl
  rw [gmul_zero_left] at h
  exact absurd h (by decide)

theorem eq_ginv {a b : Byte} (h : gmul a b = 1) : b = ginv a :=
  eq_of_gmul_eq_one h (gmul_ginv (ne_zero_of_gmul_eq_one h))

@[simp] theorem ginv_ginv (a : Byte) : ginv (ginv a) = a := by
  by_cases ha : a = 0
  · rw [ha, ginv_zero, ginv_zero]
  · exact (eq_ginv ((gmul_comm _ _).trans (gmul_ginv ha))).symm

/-- Settles O44: both constructions give an inverse, and there is only one. -/
theorem ginvIsTheUniqueInverse : Obligations.GinvIsTheUniqueInverse := by
  refine ⟨ginv_zero, fun a => ⟨?_, fun ha => ⟨gmul_ginv ha, fun b => eq_ginv⟩⟩⟩
  by_cases ha : a = 0
  · rw [ha, ginv_zero]; rfl
  · exact eq_ginv (gmul_ginvTables ha)

/-! ## The S-box -/

/-- The affine step of R143 backwards. -/
def unaffine (y : Byte) : Byte := rotl y 1 ^^^ rotl y 3 ^^^ rotl y 6 ^^^ 0x05

@[simp] theorem affine_unaffine (y : Byte) : affine (unaffine y) = y := by
  revert y; decide +kernel

@[simp] theorem unaffine_affine (s : Byte) : unaffine (affine s) = s := by
  revert s; decide +kernel

theorem gmul_unaffine_SBOX {b : Byte} : b ≠ 0 → gmul b (unaffine (SBOX b)) = 1 := by
  revert b; decide +kernel

theorem unaffine_SBOX (b : Byte) : unaffine (SBOX b) = ginv b := by
  by_cases hb : b = 0
  · rw [hb, ginv_zero]; rfl
  · exact eq_ginv (gmul_unaffine_SBOX hb)

/-- Settles O45: a ROM entry, taken back through the affine step, is the one inverse. -/
theorem sboxRomIsTheFormula : Obligations.SboxRomIsTheFormula := fun b => by
  rw [sboxFormula, ← unaffine_SBOX, affine_unaffine]

theorem SBOX_eq_iff (b c : Byte) : SBOX b = c ↔ b = ginv (unaffine c) := by
  rw [sboxRomIsTheFormula, sboxFormula]
  constructor
  · rintro rfl; simp
  · rintro rfl; simp

theorem SBOX_ne_self (b : Byte) : SBOX b ≠ b := by
  revert b; decide +kernel

/-- Settles O46: both steps of the formula can be undone, and no entry of the ROM stands at its own index. -/
theorem sboxIsAPermutationWithoutFixedPoints : Obligations.SboxIsAPermutationWithoutFixedPoints :=
  ⟨fun c => ⟨ginv (unaffine c), (SBOX_eq_iff _ c).2 rfl, fun a => (SBOX_eq_iff a c).1⟩, SBOX_ne_self⟩

end Sys2Proof.Machine
end

section
/-! SUPPORT. Big-endian packing bit by bit, and G (O47): packing respects XOR, so packing the matrix product is the XOR
of the packed columns, which are the table entries. -/

namespace Sys2Proof.Machine

/-! ## Packing bytes -/

theorem getLsbD_foldl_or {w : Nat} (f : Nat → BitVec w) (l : List Nat) (x : BitVec w) (n : Nat) :
    (l.foldl (fun acc i => acc ||| f i) x).getLsbD n = (x.getLsbD n || l.any fun i => (f i).getLsbD n) := by
  induction l generalizing x with
  | nil => simp
  | cons i l ih => rw [List.foldl_cons, ih, BitVec.getLsbD_or, List.any_cons, Bool.or_assoc]

/-- Bit n of a big-endian word is in the byte n/8 places before the last. -/
theorem BE_getLsbD (w : Nat) (bs : List Byte) (n : Nat) : (BE w bs).getLsbD n =
    (decide (n / 8 < wordBytes w) && (bs.getD (wordBytes w - 1 - n / 8) 0).getLsbD (n % 8)) := by
  have hw : 8 * wordBytes w ≤ w := Nat.mul_div_le w 8
  rw [BE, getLsbD_foldl_or, Bool.eq_iff_iff]
  simp only [BitVec.ofNat_eq_ofNat, BitVec.getLsbD_zero, Bool.false_or, List.any_eq_true, List.mem_range,
    BitVec.getLsbD_shiftLeft, BitVec.getLsbD_setWidth, Bool.and_eq_true, decide_eq_true_eq, Bool.not_eq_true',
    decide_eq_false_iff_not]
  constructor
  · rintro ⟨i, hi, ⟨hn, hle⟩, _, hbit⟩
    have hlt := BitVec.lt_of_getLsbD hbit
    rw [show wordBytes w - 1 - n / 8 = i by omega, show n % 8 = n - 8 * (wordBytes w - 1 - i) by omega]
    exact ⟨by omega, hbit⟩
  · rintro ⟨hn, hbit⟩
    refine ⟨wordBytes w - 1 - n / 8, by omega, by omega, by omega, ?_⟩
    rw [show n - 8 * (wordBytes w - 1 - (wordBytes w - 1 - n / 8)) = n % 8 by omega]
    exact hbit

theorem getD_map_range (f : Nat → Byte) {i n : Nat} (hi : i < n) : ((List.range n).map f).getD i 0 = f i := by
  rw [List.getD_eq_getElem?_getD, List.getElem?_map, List.getElem?_range hi, Option.map_some, Option.getD_some]

/-- The word whose byte j, counted from the most significant, is `f j`. -/
def wordOf (w : Nat) (f : Nat → Byte) : BitVec w := BE w ((List.range (wordBytes w)).map f)

theorem wordOf_getLsbD (w : Nat) (f : Nat → Byte) (n : Nat) : (wordOf w f).getLsbD n =
    (decide (n / 8 < wordBytes w) && (f (wordBytes w - 1 - n / 8)).getLsbD (n % 8)) := by
  rw [wordOf, BE_getLsbD]
  by_cases hn : n / 8 < wordBytes w
  · rw [getD_map_range f (by omega)]
  · rw [decide_eq_false hn, Bool.false_and, Bool.false_and]

theorem wordOf_zero (w : Nat) : wordOf w (fun _ => 0) = 0 := by
  apply BitVec.eq_of_getLsbD_eq
  intro n _
  simp [wordOf_getLsbD]

theorem wordOf_xor (w : Nat) (f g : Nat → Byte) :
    wordOf w (fun j => f j ^^^ g j) = wordOf w f ^^^ wordOf w g := by
  apply BitVec.eq_of_getLsbD_eq
  intro n _
  simp only [wordOf_getLsbD, BitVec.getLsbD_xor, Bool.and_xor_distrib_left]

theorem wordOf_foldl_xor (w : Nat) (f : Nat → Nat → Byte) (z : Nat → Byte) (l : List Nat) :
    wordOf w (fun j => l.foldl (fun acc i => acc ^^^ f j i) (z j)) =
      l.foldl (fun acc i => acc ^^^ wordOf w (f · i)) (wordOf w z) := by
  induction l generalizing z with
  | nil => rfl
  | cons i l ih => simp only [List.foldl_cons, ih, wordOf_xor]

/-! ## The two forms of G -/

section Forms
variable {w : Nat} (cfg : CoreCfg w)

theorem mdsTable_eq_wordOf (i : Nat) (b : Byte) :
    mdsTable cfg i b = wordOf w fun j => gmul (mdsEntry cfg j i) (SBOX b) := rfl

/-- The matrix product, column by column. -/
theorem diffuse_eq_foldl_wordOf (s : List Byte) : diffuse cfg s =
    (List.range (wordBytes w)).foldl
      (fun acc i => acc ^^^ wordOf w fun j => gmul (mdsEntry cfg j i) (s.getD i 0)) 0 := by
  rw [← wordOf_zero w, ← wordOf_foldl_xor]
  rfl

theorem toBE_map_getD (f : Byte → Byte) (x : BitVec w) {i : Nat} (hi : i < wordBytes w) :
    ((toBE x).map f).getD i 0 = f (byteAt x i) := by
  rw [toBE, List.map_map, getD_map_range _ hi, Function.comp_apply]

theorem G_eq_GMatrix (x : BitVec w) : G cfg x = GMatrix cfg x := by
  have hcolumns : (List.range (wordBytes w)).map (fun i => mdsTable cfg i (byteAt x i)) =
      (List.range (wordBytes w)).map
        (fun i => wordOf w fun j => gmul (mdsEntry cfg j i) (((toBE x).map SBOX).getD i 0)) := by
    refine List.map_congr_left fun i hi => ?_
    rw [mdsTable_eq_wordOf, toBE_map_getD SBOX x (List.mem_range.1 hi)]
  rw [G, GMatrix, diffuse_eq_foldl_wordOf]
  simpa only [List.foldl_map] using congrArg (List.foldl (· ^^^ ·) 0) hcolumns

end Forms

/-- Settles O47, in both classes at once. -/
theorem tableFormOfGEqualsMatrixForm : Obligations.TableFormOfGEqualsMatrixForm :=
  ⟨G_eq_GMatrix, G_eq_GMatrix⟩

end Sys2Proof.Machine
end

section
/-! SUPPORT. The WordCodec laws of R174 (O39): packing and unpacking big-endian undo each other bit by bit, and the
little-endian pair is the big-endian one with the bytes reversed. -/

namespace Sys2Proof.Machine

/-! ## Reversing the bytes -/

theorem reverse_map_range {α : Type} (f : Nat → α) (n : Nat) :
    ((List.range n).map f).reverse = (List.range n).map fun i => f (n - 1 - i) := by
  rw [← List.map_reverse, List.range_eq_range', List.reverse_range', List.map_map, ← List.range_eq_range']
  simp only [Function.comp_def, Nat.zero_add]

theorem any_range_reflect (q : Nat → Bool) (n : Nat) :
    ((List.range n).any fun i => q (n - 1 - i)) = (List.range n).any q := by
  simpa using (congrArg (List.any · id) (reverse_map_range q n)).symm

theorem getD_reverse_of_lt (bs : List Byte) {i : Nat} (hi : i < bs.length) :
    bs.reverse.getD i 0 = bs.getD (bs.length - 1 - i) 0 := by
  rw [List.getD_eq_getElem?_getD, List.getElem?_reverse hi, List.getD_eq_getElem?_getD]

theorem foldl_or_congr {w : Nat} {f g : Nat → BitVec w} {l : List Nat} (h : ∀ i ∈ l, f i = g i) (x : BitVec w) :
    l.foldl (fun acc i => acc ||| f i) x = l.foldl (fun acc i => acc ||| g i) x := by
  rw [← List.foldl_map (f := f) (g := (· ||| ·)), List.map_congr_left h, List.foldl_map]

/-- Byte i of the list is shifted by 8i on one side, and comes as byte wb - 1 - i, with the same shift, on the other. -/
theorem LE_eq_BE_reverse {w : Nat} {bs : List Byte} (hlen : bs.length = wordBytes w) : LE w bs = BE w bs.reverse := by
  have hreversed : BE w bs.reverse = (List.range (wordBytes w)).foldl (fun acc i => acc |||
      ((bs.getD (wordBytes w - 1 - i) 0).setWidth w <<< (8 * (wordBytes w - 1 - i)))) 0 := by
    refine foldl_or_congr (fun i hi => ?_) 0
    rw [getD_reverse_of_lt bs (hlen ▸ List.mem_range.1 hi), hlen]
  apply BitVec.eq_of_getLsbD_eq
  intro n _
  rw [hreversed, LE, getLsbD_foldl_or, getLsbD_foldl_or, ← any_range_reflect]

theorem LE_replicate (w : Nat) (b : Byte) :
    LE w (List.replicate (wordBytes w) b) = BE w (List.replicate (wordBytes w) b) := by
  rw [LE_eq_BE_reverse List.length_replicate, List.reverse_replicate]

@[simp] theorem toBE_length {w : Nat} (v : BitVec w) : (toBE v).length = wordBytes w := by
  rw [toBE, List.length_map, List.length_range]

/-! ## The inverses, for a width of whole bytes -/

section WholeBytes
variable {w : Nat} (hw : 8 * wordBytes w = w)
include hw

theorem toLE_eq_reverse_toBE (v : BitVec w) : toLE v = (toBE v).reverse := by
  rw [toLE, toBE, reverse_map_range]
  refine List.map_congr_left fun i hi => ?_
  have hlt := List.mem_range.1 hi
  rw [byteAt, show w - 8 - 8 * (wordBytes w - 1 - i) = 8 * i by omega]

theorem BE_toBE (v : BitVec w) : BE w (toBE v) = v := by
  apply BitVec.eq_of_getLsbD_eq
  intro n hn
  have hword : BE w (toBE v) = wordOf w (byteAt v) := rfl
  have hpos : w - 8 - 8 * (wordBytes w - 1 - n / 8) + n % 8 = n := by omega
  rw [hword, wordOf_getLsbD, decide_eq_true (show n / 8 < wordBytes w by omega), Bool.true_and, byteAt,
    BitVec.getLsbD_extractLsb', decide_eq_true (Nat.mod_lt n (by decide)), Bool.true_and, hpos]

theorem byteAt_BE (bs : List Byte) {i : Nat} (hi : i < wordBytes w) : byteAt (BE w bs) i = bs.getD i 0 := by
  apply BitVec.eq_of_getLsbD_eq
  intro j hj
  have hbyte : (w - 8 - 8 * i + j) / 8 = wordBytes w - 1 - i := by omega
  have hbit : (w - 8 - 8 * i + j) % 8 = j := by omega
  rw [byteAt, BitVec.getLsbD_extractLsb', BE_getLsbD, hbyte, hbit, decide_eq_true hj,
    decide_eq_true (show wordBytes w - 1 - i < wordBytes w by omega), Bool.true_and, Bool.true_and,
    show wordBytes w - 1 - (wordBytes w - 1 - i) = i by omega]

theorem toBE_BE {bs : List Byte} (hlen : bs.length = wordBytes w) : toBE (BE w bs) = bs := by
  refine List.ext_getElem ((toBE_length _).trans hlen.symm) fun i hi hi' => ?_
  simp only [toBE, List.getElem_map, List.getElem_range]
  rw [byteAt_BE hw bs (hlen ▸ hi'), List.getD_eq_getElem?_getD, List.getElem?_eq_getElem hi', Option.getD_some]

theorem LE_toLE (v : BitVec w) : LE w (toLE v) = v := by
  rw [toLE_eq_reverse_toBE hw, LE_eq_BE_reverse (by simp), List.reverse_reverse, BE_toBE hw]

theorem toLE_LE {bs : List Byte} (hlen : bs.length = wordBytes w) : toLE (LE w bs) = bs := by
  rw [LE_eq_BE_reverse hlen, toLE_eq_reverse_toBE hw, toBE_BE hw (List.length_reverse.trans hlen), List.reverse_reverse]

end WholeBytes

/-- Settles O39: the big-endian inverses carry over to little-endian, and a constant list is its own reversal. -/
theorem wordCodecLaws : Obligations.WordCodecLaws := fun w hclass => by
  have hw : 8 * wordBytes w = w := by rcases hclass with rfl | rfl <;> rfl
  exact ⟨fun v => ⟨BE_toBE hw v, LE_toLE hw v⟩,
    fun bs hlen => ⟨toBE_BE hw hlen, toLE_LE hw hlen, LE_eq_BE_reverse hlen⟩,
    (LE_replicate w 0).symm, (LE_replicate w 0xFF).symm⟩

end Sys2Proof.Machine
end

section
/-! SUPPORT. The checks of a configuration record, each as the property it decides, and the launch that rests on them
(O9). -/

namespace Sys2Proof.Machine

theorem mem_sublistsOf {l l' : List Nat} : l ∈ sublistsOf l' ↔ l.Sublist l' := by
  induction l' generalizing l with
  | nil => rw [sublistsOf, List.mem_singleton, List.sublist_nil]
  | cons x l' ih =>
    have hhead : (∃ r, r ∈ sublistsOf l' ∧ x :: r = l) ↔ ∃ r, l = x :: r ∧ r.Sublist l' :=
      exists_congr fun r => by rw [ih, and_comm, eq_comm]
    rw [sublistsOf, List.mem_append, List.mem_map, List.sublist_cons_iff, ih, hhead]

/-- The MDS property of R146, submatrix by submatrix. -/
theorem mdsOk_iff {w : Nat} (cfg : CoreCfg w) : CoreCfg.mdsOk cfg = true ↔
    ∀ rows cols : List Nat, rows.Sublist (List.range (w / 8)) → cols.Sublist (List.range (w / 8)) →
      rows.length = cols.length → minor cfg rows cols ≠ 0 := by
  simp only [CoreCfg.mdsOk, wordBytes, List.all_eq_true, mem_sublistsOf, Bool.or_eq_true, bne_iff_ne, ne_eq,
    ← Decidable.imp_iff_not_or]
  exact ⟨fun h rows cols hr hc => h rows hr cols hc, fun h rows hr cols hc => h rows cols hr hc⟩

theorem toList_all_iff {α : Type} {n : Nat} (v : Vector α n) (p : α → Bool) :
    v.toList.all p = true ↔ ∀ k : Fin n, p v[k] = true := by
  rw [Vector.all_toList, Vector.all_iff_forall]
  exact ⟨fun h k => h k k.isLt, fun h k hk => h ⟨k, hk⟩⟩

/-- Three slots are pairwise distinct. -/
theorem slots_pairwise_ne_iff (inj : Vector Inj 3) :
    (inj[0].slot ≠ inj[1].slot ∧ inj[0].slot ≠ inj[2].slot ∧ inj[1].slot ≠ inj[2].slot) ↔
      ∀ k l : Fin 3, k ≠ l → inj[k].slot ≠ inj[l].slot := by
  constructor
  · rintro ⟨h01, h02, h12⟩ k l hkl
    match k, l with
    | 0, 0 | 1, 1 | 2, 2 => exact absurd rfl hkl
    | 0, 1 => exact h01
    | 0, 2 => exact h02
    | 1, 2 => exact h12
    | 1, 0 => exact h01.symm
    | 2, 0 => exact h02.symm
    | 2, 1 => exact h12.symm
  · exact fun h => ⟨h 0 1 (by decide), h 0 2 (by decide), h 1 2 (by decide)⟩

theorem injOk_iff (w : Nat) (avoid : Fin 8) (inj : Vector Inj 3) : injOk w avoid inj = true ↔
    (∀ k l : Fin 3, k ≠ l → inj[k].slot ≠ inj[l].slot) ∧
      ∀ k : Fin 3, inj[k].slot ≠ avoid ∧ inj[k].rot < w := by
  rw [← slots_pairwise_ne_iff]
  simp only [injOk, toList_all_iff, Bool.and_eq_true, bne_iff_ne, ne_eq, decide_eq_true_eq, and_assoc]

/-- Every row of R12's table but MDS, as propositions. -/
theorem fieldsOk_iff {w : Nat} (cfg : CoreCfg w) : CoreCfg.fieldsOk cfg = true ↔
    cfg.schedRot.toList.all (· < w) = true ∧ cfg.sa.val < 4 ∧ 4 ≤ cfg.se.val ∧
    injOk w cfg.sa cfg.inj1 = true ∧ injOk w cfg.se cfg.inj2 = true ∧ cfg.regRot ≠ 0 ∧
    cfg.ctrSlot0 ≠ cfg.ctrSlot1 := by
  simp only [CoreCfg.fieldsOk, Bool.and_eq_true, decide_eq_true_eq, bne_iff_ne, ne_eq, and_assoc]

theorem boot_eq (l : Launch) (mem : Memory) (moves : List HostMove) : State.boot l mem moves =
    if CoreCfg.wf l.cfg32 = true ∧ CoreCfg.wf l.cfg64 = true then
      .next { State.reset with launch := l, mem := mem, pending := moves }
    else .refused .illFormedConfig := by
  simp only [State.boot, Launch.wf, Bool.and_eq_true]

/-- Settles O9: each check of R12's table as the property it decides. -/
theorem bootRefusesIllFormedConfigurations : Obligations.BootRefusesIllFormedConfigurations := by
  refine ⟨fun w cfg => ?_, boot_eq⟩
  rw [CoreCfg.wf, Bool.and_eq_true, fieldsOk_iff, mdsOk_iff, injOk_iff, injOk_iff, toList_all_iff]
  simp only [decide_eq_true_eq]
  constructor
  · rintro ⟨⟨hrot, hsa, hse, ⟨hd1, hi1⟩, ⟨hd2, hi2⟩, hreg, hctr⟩, hmds⟩
    exact ⟨hrot, by omega, hse, fun k => ⟨(hi1 k).1, (hi1 k).2, hi2 k⟩,
      fun k l h => ⟨hd1 k l h, hd2 k l h⟩, Fin.pos_iff_ne_zero.2 hreg, hctr, hmds⟩
  · rintro ⟨hrot, hsa, hse, hi, hd, hreg, hctr, hmds⟩
    exact ⟨⟨hrot, by omega, hse,
      ⟨fun k l h => (hd k l h).1, fun k => ⟨(hi k).1, (hi k).2.1⟩⟩,
      ⟨fun k l h => (hd k l h).2, fun k => (hi k).2.2⟩, Fin.pos_iff_ne_zero.1 hreg, hctr⟩, hmds⟩

end Sys2Proof.Machine
end

section
/-! SUPPORT. The laws of the eight-word register: what each of its operations does to one word. The steps of
CompressionCore that are stated by word follow from them (O49, O51). -/

namespace Sys2Proof.Machine

section Register
variable {w : Nat}

/-- Two registers with the same words are one register. -/
theorem Words.ext_getElem {a b : Words w} (h : ∀ i : Fin 8, a[i] = b[i]) : a = b :=
  Vector.ext fun i hi => h ⟨i, hi⟩

theorem Words.tabulate_getElem (f : Fin 8 → BitVec w) (i : Fin 8) : (Words.tabulate f)[i] = f i := by
  match i with
  | 0 | 1 | 2 | 3 | 4 | 5 | 6 | 7 => rfl

theorem Words.xor_getElem (a b : Words w) (i : Fin 8) : (Words.xor a b)[i] = a[i] ^^^ b[i] :=
  Words.tabulate_getElem _ i

theorem Words.xorAt_getElem (a : Words w) (i j : Fin 8) (v : BitVec w) :
    (Words.xorAt a i v)[j] = a[j] ^^^ if i = j then v else 0 := by
  rw [Words.xorAt, Fin.getElem_fin, Vector.getElem_set]
  by_cases h : i = j
  · rw [if_pos (congrArg Fin.val h), if_pos h, h]
  · rw [if_neg (Fin.val_ne_of_ne h), if_neg h, BitVec.ofNat_eq_ofNat, BitVec.xor_zero]; rfl

theorem Words.xorAt_getElem_self (a : Words w) (i : Fin 8) (v : BitVec w) :
    (Words.xorAt a i v)[i] = a[i] ^^^ v := by
  rw [Words.xorAt_getElem, if_pos rfl]

theorem Words.xorAt_getElem_of_ne (a : Words w) {i j : Fin 8} (v : BitVec w) (h : j ≠ i) :
    (Words.xorAt a i v)[j] = a[j] := by
  rw [Words.xorAt_getElem, if_neg h.symm]
  exact BitVec.xor_zero

theorem Words.xorAt_zero (a : Words w) (i : Fin 8) : Words.xorAt a i 0 = a := by
  refine Words.ext_getElem fun j => ?_
  rw [Words.xorAt_getElem, ite_self]
  exact BitVec.xor_zero

/-- XORs into words commute, also into the same word. -/
theorem Words.xorAt_right_comm (a : Words w) (i j : Fin 8) (u v : BitVec w) :
    Words.xorAt (Words.xorAt a i u) j v = Words.xorAt (Words.xorAt a j v) i u := by
  refine Words.ext_getElem fun k => ?_
  simp only [Words.xorAt_getElem, BitVec.xor_assoc]
  rw [BitVec.xor_comm (if i = k then u else 0)]

/-- XORs into two different words: the first gets `u`, the second `v`, and no other word changes. -/
theorem Words.xorAt_xorAt_getElem (a : Words w) {i j : Fin 8} (u v : BitVec w) (hij : i ≠ j) :
    (Words.xorAt (Words.xorAt a i u) j v)[i] = a[i] ^^^ u ∧
    (Words.xorAt (Words.xorAt a i u) j v)[j] = a[j] ^^^ v ∧
    ∀ k : Fin 8, k ≠ i → k ≠ j → (Words.xorAt (Words.xorAt a i u) j v)[k] = a[k] := by
  refine ⟨?_, ?_, fun k hi hj => ?_⟩
  · rw [Words.xorAt_getElem_of_ne _ _ hij, Words.xorAt_getElem_self]
  · rw [Words.xorAt_getElem_self, Words.xorAt_getElem_of_ne _ _ hij.symm]
  · rw [Words.xorAt_getElem_of_ne _ _ hj, Words.xorAt_getElem_of_ne _ _ hi]

theorem fin8_add_sub_cancel : ∀ i m : Fin 8, i + m - m = i := by decide

theorem rot8_getElem (a : Words w) (m i : Fin 8) : (rot8 a m)[i + m] = a[i] := by
  have hback : i + m - m = i := fin8_add_sub_cancel i m
  rw [rot8, Words.tabulate_getElem]
  simp only [hback]

end Register

/-! ## The parts of a step that are stated by word -/

/-- Settles O51: a step is a register rotation of what its injections give. -/
theorem registerRotationMovesEachWord : Obligations.RegisterRotationMovesEachWord :=
  ⟨fun _ => rot8_getElem, fun _ cfg _ _ _ i => rot8_getElem _ cfg.regRot i⟩

/-- Settles O49: the slots stand in different halves, so they are two different words. -/
theorem messageWordsEnterTwoDisjointHalves : Obligations.MessageWordsEnterTwoDisjointHalves := by
  intro w cfg W t R hok
  obtain ⟨-, hsa, hse, -⟩ := (fieldsOk_iff cfg).1 hok
  have hne : cfg.sa ≠ cfg.se := fun h => by rw [h] at hsa; omega
  exact ⟨hsa, hse, Words.xorAt_xorAt_getElem R _ _ hne⟩

end Sys2Proof.Machine
end

section
/-! SUPPORT. The schedule words (O48): the block's words stand first, so the expanded words find their sources there. -/

namespace Sys2Proof.Machine

theorem getD_map_range_of_lt {α : Type} (f : Nat → α) (d : α) {i n : Nat} (hi : i < n) :
    ((List.range n).map f).getD i d = f i := by
  rw [List.getD_eq_getElem?_getD, List.getElem?_map, List.getElem?_range hi, Option.map_some, Option.getD_some]

section Schedule
variable {w : Nat} (cfg : CoreCfg w) {blk : List Byte}

@[simp] theorem BEseq_length (w : Nat) (bs : List Byte) : (BEseq w bs).length = bs.length / wordBytes w := by
  rw [BEseq, List.length_map, List.length_range]

theorem BEseq_getD (bs : List Byte) {i : Nat} (hi : i < bs.length / wordBytes w) :
    (BEseq w bs).getD i 0 = BE w ((bs.drop (i * wordBytes w)).take (wordBytes w)) := by
  rw [BEseq, getD_map_range_of_lt _ _ hi]

variable (h16 : (BEseq w blk).length = 16)
include h16

theorem schedule_length : (schedule cfg blk).length = 32 := by
  rw [schedule, List.length_append, h16, List.length_map, List.length_range]

theorem schedule_getD_message {i : Nat} (hi : i < 16) : (schedule cfg blk).getD i 0 = (BEseq w blk).getD i 0 := by
  rw [schedule, List.getD_eq_getElem?_getD, List.getElem?_append_left (h16 ▸ hi), List.getD_eq_getElem?_getD]

theorem schedule_getD_expanded (j : Fin 16) :
    (schedule cfg blk).getD (16 + j) 0 = expandWord cfg (BEseq w blk) j := by
  have hpast : (BEseq w blk).length ≤ 16 + j := by omega
  rw [schedule, List.getD_eq_getElem?_getD, List.getElem?_append_right hpast, h16, Nat.add_sub_cancel_left,
    ← List.getD_eq_getElem?_getD, getD_map_range_of_lt _ _ j.isLt, Fin.ofNat_val_eq_self]

end Schedule

/-- Settles O48: the sources of an expanded word are message words, which the schedule holds as they are. -/
theorem scheduleWordsAreTheSpecs : Obligations.ScheduleWordsAreTheSpecs := by
  intro w hclass cfg blk hlen
  have hblocks : blockBytes w / wordBytes w = 16 := by rcases hclass with rfl | rfl <;> rfl
  have h16 : (BEseq w blk).length = 16 := by rw [BEseq_length, hlen, hblocks]
  refine ⟨schedule_length cfg h16, fun i hi => ?_, fun j => ?_⟩
  · rw [schedule_getD_message cfg h16 hi, BEseq_getD blk (by rw [hlen, hblocks]; exact hi)]
  · simp only [schedule_getD_message cfg h16 (Fin.isLt _)]
    exact schedule_getD_expanded cfg h16 j

end Sys2Proof.Machine
end

section
/-! SUPPORT. The order of the injections (O50), which are XORs and so commute, and the halves of the round network
(O52), of which only step 20 looks at S0. -/

namespace Sys2Proof.Machine

/-! ## The injections of a step -/

/-- The XORs of one (slot, word) list, one after the other. -/
def xorAll {w : Nat} (R : Words w) (l : List (Fin 8 × BitVec w)) : Words w :=
  l.foldl (fun X q => Words.xorAt X q.1 q.2) R

theorem xorAll_perm {w : Nat} (R : Words w) {l l' : List (Fin 8 × BitVec w)} (h : l.Perm l') :
    xorAll R l = xorAll R l' :=
  h.foldl_eq' (fun _ _ _ _ X => Words.xorAt_right_comm X ..) R

/-- The XORs of an injection list: its copies of `T`, each rotated, into their slots (R201). -/
def injections {w : Nat} (T : BitVec w) (inj : List Inj) : List (Fin 8 × BitVec w) :=
  inj.map fun p => (p.slot, rotl T p.rot)

/-- Injecting pair by pair is injecting the copies of T1 and T2 by turns, so also all of T1 before all of T2. -/
theorem foldl_injectPair {w : Nat} (T1 T2 : BitVec w) (a b : List Inj) (hlen : a.length = b.length) (R : Words w) :
    (a.zip b).foldl (injectPair T1 T2) R = xorAll R (injections T1 a ++ injections T2 b) := by
  induction a generalizing b R with
  | nil => cases b with
    | nil => rfl
    | cons q b => cases hlen
  | cons p a ih => cases b with
    | nil => cases hlen
    | cons q b =>
      have hturn : (injections T1 (p :: a) ++ injections T2 (q :: b)).Perm
          ((p.slot, rotl T1 p.rot) :: (q.slot, rotl T2 q.rot) :: (injections T1 a ++ injections T2 b)) :=
        List.perm_middle.cons _
      rw [List.zip_cons_cons, List.foldl_cons, ih b (Nat.succ.inj hlen), xorAll_perm R hturn]
      rfl

/-- Settles O50: a step's injections are one permutation of the six XORs, and all permutations agree. -/
theorem injectionOrderDoesNotMatter : Obligations.InjectionOrderDoesNotMatter := by
  intro w cfg R order hperm
  have hlen : cfg.inj1.toList.length = cfg.inj2.toList.length := by rw [Vector.length_toList, Vector.length_toList]
  exact (xorAll_perm R hperm).trans (foldl_injectPair _ _ _ _ hlen R).symm

/-! ## The round network -/

theorem foldl_congr_of_mem {α β : Type} {f g : β → α → β} {l : List α} (h : ∀ a ∈ l, ∀ b, f b a = g b a) (b : β) :
    l.foldl f b = l.foldl g b := by
  induction l generalizing b with
  | nil => rfl
  | cons a l ih =>
    rw [List.foldl_cons, List.foldl_cons, h a List.mem_cons_self]
    exact ih (fun a' ha' => h a' (List.mem_cons_of_mem a ha')) _

section Network
variable {w : Nat} (cfg : CoreCfg w) (W : List (BitVec w)) (S0 R : Words w)

theorem networkStep_of_ne {t : Nat} (h : t ≠ 20) :
    networkStep cfg W S0 R t = roundStep cfg W (Fin.ofNat 40 t) R := by
  rw [networkStep, if_neg h]

theorem networkStep_20 : networkStep cfg W S0 R 20 = roundStep cfg W (Fin.ofNat 40 20) (Words.xor R S0) := by
  rw [networkStep, if_pos rfl]

/-- Away from step 20 the network only runs its steps. -/
theorem foldl_networkStep {l : List Nat} (h : ∀ t ∈ l, t ≠ 20) :
    l.foldl (networkStep cfg W S0) R = l.foldl (fun X t => roundStep cfg W (Fin.ofNat 40 t) X) R :=
  foldl_congr_of_mem (fun t ht X => networkStep_of_ne cfg W S0 X (h t ht)) R

/-- The second half, its first step apart. -/
theorem foldl_networkStep_secondHalf :
    (List.range' 20 20).foldl (networkStep cfg W S0) R =
      (List.range' 20 20).foldl (fun X t => roundStep cfg W (Fin.ofNat 40 t) X) (Words.xor R S0) := by
  have hrest : ∀ t ∈ List.range' 21 19, t ≠ 20 := fun t ht => by rw [List.mem_range'_1] at ht; omega
  rw [List.range'_succ, List.foldl_cons, List.foldl_cons, networkStep_20, foldl_networkStep cfg W S0 _ hrest]

end Network

/-- Settles O52: the 40 steps are those before step 20 and those from step 20 on. -/
theorem firstFeedForwardStandsBetweenTheHalves : Obligations.FirstFeedForwardStandsBetweenTheHalves := by
  intro w cfg W S0
  have hfirst : ∀ t ∈ List.range 20, t ≠ 20 := fun t ht => by rw [List.mem_range] at ht; omega
  have hhalves : List.range 40 = List.range 20 ++ List.range' 20 20 := rfl
  have hsecond : List.range' 20 20 = (List.range 20).map (20 + ·) := rfl
  rw [network, hhalves, List.foldl_append, foldl_networkStep cfg W S0 _ hfirst, foldl_networkStep_secondHalf,
    hsecond, List.foldl_map]

end Sys2Proof.Machine
end

section
/-! SUPPORT. The counter words, which are the digits of the counter to the base 2^w (O42), the counter-mutated state and
the second feed-forward (O53, O54). -/

namespace Sys2Proof.Machine

/-! ## The block counter and its words -/

section Counter
variable {w : Nat} (c : BitVec (2 * w))

theorem ctrWord0_eq_ofNat : ctrWord0 c = BitVec.ofNat w c.toNat := (BitVec.ofNat_toNat ..).symm

theorem ctrWord1_eq_ofNat : ctrWord1 c = BitVec.ofNat w (c.toNat / 2 ^ w) := by
  rw [ctrWord1, ← BitVec.ofNat_toNat, BitVec.toNat_ushiftRight, Nat.shiftRight_eq_div_pow]

theorem ctr_succ_toNat : (c + 1).toNat = (c.toNat + 1) % 2 ^ (2 * w) := by
  rw [BitVec.toNat_add, BitVec.ofNat_eq_ofNat, BitVec.toNat_ofNat, Nat.add_mod_mod]

/-- Word 0 counts modulo 2^w. -/
theorem ctrWord0_succ_eq_ofNat : ctrWord0 (c + 1) = BitVec.ofNat w (c.toNat + 1) := by
  have hdvd : 2 ^ w ∣ 2 ^ (2 * w) := Nat.pow_dvd_pow 2 (by omega)
  apply BitVec.eq_of_toNat_eq
  rw [ctrWord0_eq_ofNat, ctr_succ_toNat, BitVec.toNat_ofNat, BitVec.toNat_ofNat, Nat.mod_mod_of_dvd _ hdvd]

/-- Word 1 counts the multiples of 2^w. -/
theorem ctrWord1_succ_eq_ofNat : ctrWord1 (c + 1) = BitVec.ofNat w ((c.toNat + 1) / 2 ^ w) := by
  have hsquare : 2 ^ (2 * w) = 2 ^ w * 2 ^ w := by rw [Nat.two_mul, Nat.pow_add]
  apply BitVec.eq_of_toNat_eq
  rw [ctrWord1_eq_ofNat, ctr_succ_toNat, BitVec.toNat_ofNat, BitVec.toNat_ofNat, hsquare,
    Nat.mod_mul_right_div_self, Nat.mod_mod]

theorem ctrWord0_succ : ctrWord0 (c + 1) = ctrWord0 c + 1 := by
  rw [ctrWord0_succ_eq_ofNat, BitVec.ofNat_add, ← ctrWord0_eq_ofNat, BitVec.ofNat_eq_ofNat]

/-- Word 0 becomes 0 exactly when a multiple of 2^w is reached. -/
theorem ctrWord0_succ_eq_zero_iff : ctrWord0 (c + 1) = 0 ↔ 2 ^ w ∣ c.toNat + 1 := by
  rw [ctrWord0_succ_eq_ofNat, ← BitVec.toNat_inj, BitVec.toNat_ofNat, BitVec.ofNat_eq_ofNat, BitVec.toNat_ofNat,
    Nat.zero_mod, Nat.dvd_iff_mod_eq_zero]

theorem ctrWord1_succ : ctrWord1 (c + 1) = if ctrWord0 (c + 1) = 0 then ctrWord1 c + 1 else ctrWord1 c := by
  simp only [ctrWord0_succ_eq_zero_iff, ctrWord1_succ_eq_ofNat, Nat.succ_div, ctrWord1_eq_ofNat c]
  split
  · rw [BitVec.ofNat_add]; rfl
  · rfl

theorem ctrWords_succ : (ctrWord0 (c + 1), ctrWord1 (c + 1)) = ctrIncWords (ctrWord0 c) (ctrWord1 c) := by
  rw [ctrIncWords, ctrWord1_succ, ctrWord0_succ]

end Counter

/-- Settles O42: a compression adds 1 to the counter, whose words then follow the carry rule. -/
theorem blockCounterCarries : Obligations.BlockCounterCarries := by
  intro w cfg x blk c _
  have hwrap : x.ctr = BitVec.allOnes (2 * w) → x.ctr + 1 = 0 := fun hones => by
    rw [hones, ← BitVec.neg_one_eq_allOnes]
    exact BitVec.add_left_neg _
  exact ⟨ctr_succ_toNat _, ctrWord0_succ _, ctrWord1_succ _, ctrWords_succ _, hwrap, rfl, rfl, rfl, rfl, rfl⟩

/-! ## The counter-mutated state -/

theorem injectCtr_getElem {w : Nat} (cfg : CoreCfg w) (cv : Words w) (c : BitVec (2 * w))
    (hne : cfg.ctrSlot0 ≠ cfg.ctrSlot1) :
    (injectCtr cfg cv c)[cfg.ctrSlot0] = cv[cfg.ctrSlot0] ^^^ BitVec.ofNat w c.toNat ∧
    (injectCtr cfg cv c)[cfg.ctrSlot1] = cv[cfg.ctrSlot1] ^^^ BitVec.ofNat w (c.toNat / 2 ^ w) ∧
    ∀ i : Fin 8, i ≠ cfg.ctrSlot0 → i ≠ cfg.ctrSlot1 → (injectCtr cfg cv c)[i] = cv[i] := by
  rw [← ctrWord0_eq_ofNat, ← ctrWord1_eq_ofNat]
  exact Words.xorAt_xorAt_getElem cv _ _ hne

/-- A counter of 0 leaves the chaining value as it is. -/
theorem injectCtr_zero {w : Nat} (cfg : CoreCfg w) (cv : Words w) : injectCtr cfg cv 0 = cv := by
  have h0 : ctrWord0 (0 : BitVec (2 * w)) = 0 := by rw [ctrWord0, BitVec.ofNat_eq_ofNat, BitVec.setWidth_zero]; rfl
  have h1 : ctrWord1 (0 : BitVec (2 * w)) = 0 := by
    rw [ctrWord1, BitVec.ofNat_eq_ofNat, BitVec.zero_ushiftRight, BitVec.setWidth_zero]; rfl
  rw [injectCtr, h0, h1, Words.xorAt_zero, Words.xorAt_zero]

/-! ## The second feed-forward -/

section FeedForward
variable {w : Nat} (cfg : CoreCfg w) (cv : Words w) (blk : List Byte) (c : BitVec (2 * w))

theorem CF_getElem (i : Fin 8) : (CF cfg cv blk c)[i] =
    (ff2 cfg (injectCtr cfg cv c) cv)[i] ^^^ (network cfg (schedule cfg blk) (injectCtr cfg cv c))[i] :=
  Words.xor_getElem _ _ i

/-- Only the second feed-forward looks at FF2_BASE. -/
theorem CF_mutated_getElem (i : Fin 8) : (CF { cfg with ff2Base := .mutated } cv blk c)[i] =
    (injectCtr cfg cv c)[i] ^^^ (network cfg (schedule cfg blk) (injectCtr cfg cv c))[i] :=
  CF_getElem { cfg with ff2Base := .mutated } cv blk c i

theorem CF_original_getElem (i : Fin 8) : (CF { cfg with ff2Base := .original } cv blk c)[i] =
    cv[i] ^^^ (network cfg (schedule cfg blk) (injectCtr cfg cv c))[i] :=
  CF_getElem { cfg with ff2Base := .original } cv blk c i

end FeedForward

/-- Settles O54: S0 is the counter-mutated state. -/
theorem compressionIsBaseXorNetwork : Obligations.CompressionIsBaseXorNetwork := by
  intro w cfg cv blk c hne
  obtain ⟨h0, h1, hother⟩ := injectCtr_getElem cfg cv c hne
  refine ⟨injectCtr cfg cv c, h0, h1, hother, fun i => ?_⟩
  rw [CF_getElem, ff2]
  cases cfg.ff2Base <;> rfl

/-- Settles O53: the network's register is the same in both readings, so they differ as S0 and the chaining value do. -/
theorem secondFeedForwardReadingsDifferOnlyInCounterSlots :
    Obligations.SecondFeedForwardReadingsDifferOnlyInCounterSlots := by
  intro w cfg cv blk c hne
  obtain ⟨h0, h1, hother⟩ := injectCtr_getElem cfg cv c hne
  dsimp only
  refine ⟨?_, ?_, fun i hi0 hi1 => ?_, fun hc => Words.ext_getElem fun i => ?_⟩
  · rw [CF_mutated_getElem, CF_original_getElem, h0]
    ac_rfl
  · rw [CF_mutated_getElem, CF_original_getElem, h1]
    ac_rfl
  · rw [CF_mutated_getElem, CF_original_getElem, hother i hi0 hi1]
  · rw [CF_mutated_getElem, CF_original_getElem, hc, injectCtr_zero]

end Sys2Proof.Machine
end

section
/-! SUPPORT. The length counter: its sum (O40), and the carry chain over its words (O41), which adds the way one adds
numbers digit by digit to the base 2^w. -/

namespace Sys2Proof.Machine

/-- The 128-bit counter is its own residue. -/
theorem lenAdd_toNat (T : BitVec 128) (L : BitVec 64) : (lenAdd T L).toNat = (T.toNat + L.toNat) % 2 ^ 128 := by
  rw [← lenAdd_toNat_mod, Nat.mod_eq_of_lt (lenAdd T L).isLt]

/-- Settles O40. -/
theorem lengthCounterAddsExactly : Obligations.LengthCounterAddsExactly := lenAdd_toNat

/-! ## The low words of a number -/

/-- The m low words of N, word 0 first: what `lenWords` shows of the counter (R241), for a number of any size. -/
def lowWords (w m N : Nat) : List Nat := (List.range m).map fun k => (N >>> (w * k)) % 2 ^ w

theorem lenWords_eq_lowWords (w : Nat) (T : BitVec 128) : lenWords w T = lowWords w (128 / w) T.toNat := rfl

theorem lowWords_succ (w m N : Nat) : lowWords w (m + 1) N = N % 2 ^ w :: lowWords w m (N >>> w) := by
  have hshift (k : Nat) : N >>> (w * (k + 1)) = N >>> w >>> (w * k) := by
    rw [← Nat.shiftRight_add, Nat.mul_succ, Nat.add_comm]
  simp only [lowWords, List.range_succ_eq_map, List.map_cons, List.map_map, Function.comp_def, Nat.succ_eq_add_one,
    hshift, Nat.mul_zero, Nat.shiftRight_zero]

/-- The m low words are those of the number modulo 2^(wm). -/
theorem lowWords_mod (w m N : Nat) : lowWords w m (N % 2 ^ (w * m)) = lowWords w m N := by
  induction m generalizing N with
  | zero => rfl
  | succ m ih =>
    have hpow : 2 ^ (w * (m + 1)) = 2 ^ w * 2 ^ (w * m) := by rw [Nat.mul_succ, Nat.add_comm, Nat.pow_add]
    have hhigh : (N % 2 ^ (w * (m + 1))) >>> w = N >>> w % 2 ^ (w * m) := by
      rw [Nat.shiftRight_eq_div_pow, Nat.shiftRight_eq_div_pow, hpow, Nat.mod_mul_right_div_self]
    rw [lowWords_succ, lowWords_succ, hhigh, ih, hpow, Nat.mod_mul_right_mod]

/-! ## The carry chain -/

/-- Adding two low digits and a carry leaves the low digit of the sum. -/
theorem add_digits_mod (t a c b : Nat) : (t % b + a % b + c) % b = (t + a + c) % b := by
  rw [Nat.add_mod, ← Nat.add_mod t a b, ← Nat.add_mod]

/-- The carry of the two low digits, added to the rest of the numbers, gives the rest of the sum. -/
theorem add_digits_div {b : Nat} (hb : 0 < b) (t a c : Nat) :
    t / b + a / b + (t % b + a % b + c) / b = (t + a + c) / b := by
  have hsplit : t + a + c = (t % b + a % b + c) + b * (t / b + a / b) := by
    rw [Nat.mul_add]
    have ht := Nat.mod_add_div t b
    have ha := Nat.mod_add_div a b
    omega
  rw [hsplit, Nat.add_mul_div_left _ _ hb, Nat.add_comm]

/-- From word k on, the chain adds what is left of L, and the carry, to the number whose words it is given. -/
theorem lenCarryFrom_lowWords (w L k c m N : Nat) :
    lenCarryFrom w L k c (lowWords w m N) = lowWords w m (N + L >>> (w * k) + c) := by
  induction m generalizing k c N with
  | zero => rfl
  | succ m ih =>
    have hrest : N >>> w + L >>> (w * (k + 1)) + (N % 2 ^ w + (L >>> (w * k)) % 2 ^ w + c) >>> w =
        (N + L >>> (w * k) + c) >>> w := by
      rw [Nat.mul_succ, Nat.shiftRight_add]
      simp only [Nat.shiftRight_eq_div_pow _ w]
      exact add_digits_div (Nat.two_pow_pos w) ..
    rw [lowWords_succ, lowWords_succ, lenCarryFrom, ih, hrest, add_digits_mod]

/-- Settles O41: the chain gives the low words of T + L, and 128 bits of the sum hold all of them. -/
theorem lengthCarryChainIsExact : Obligations.LengthCarryChainIsExact := by
  intro w T L hclass
  have hbits : w * (128 / w) = 128 := by rcases hclass with rfl | rfl <;> rfl
  calc lenAddWords w (lenWords w T) L
      = lowWords w (128 / w) (T.toNat + L.toNat) := by
        rw [lenAddWords, lenWords_eq_lowWords, lenCarryFrom_lowWords, Nat.mul_zero, Nat.shiftRight_zero, Nat.add_zero]
    _ = lowWords w (128 / w) (lenAdd T L).toNat := by
        rw [lenAdd_toNat, ← lowWords_mod, hbits]
    _ = lenWords w (lenAdd T L) := (lenWords_eq_lowWords ..).symm

end Sys2Proof.Machine
end

section
/-! SUPPORT. Absorbing many bytes at once (44_engine_commands.md R265, R268): up to a full buffer they are only stored,
a full buffer is one compression, so the source's UPDATE procedure does what absorbing byte by byte does (O33), and the
compressions can be counted (O34; 70_reset_and_hazards.md R378). -/

namespace Sys2Proof.Machine

/-- The first n bytes of a buffer into which bytes were stored from `a` on, up to and past byte n. -/
theorem take_putBytes (buf : Buf) {a n : Nat} {bs : List Byte} (ha : a ≤ n) (hn : n ≤ a + bs.length) (hn' : n ≤ 128) :
    (putBytes buf a bs).toList.take n = buf.toList.take a ++ bs.take (n - a) := by
  apply List.ext_getElem
  · simp only [List.length_take, List.length_append, Vector.length_toList]
    omega
  · intro i hi _
    simp only [List.length_take, Vector.length_toList] at hi
    rw [List.getElem_take, Vector.getElem_toList, putBytes_getElem, List.getElem_append]
    simp only [List.length_take, Vector.length_toList, show min a 128 = a by omega]
    by_cases hia : i < a
    · rw [if_neg (by omega), dif_pos hia, List.getElem_take, Vector.getElem_toList]
    · rw [if_pos (by omega), dif_neg hia, List.getElem_take, List.getD_eq_getElem?_getD,
        List.getElem?_eq_getElem (by omega), Option.getD_some]

/-- Bytes stored at the start of the buffer stand there. -/
theorem take_putBytes_zero (buf : Buf) {bs : List Byte} (hlen : bs.length ≤ 128) :
    (putBytes buf 0 bs).toList.take bs.length = bs := by
  rw [take_putBytes buf (Nat.zero_le _) (by omega) hlen, List.take_zero, List.nil_append, Nat.sub_zero,
    List.take_length]

/-- A zero fill from the start of the buffer leaves zeros there. -/
theorem take_zeroFill (buf : Buf) {n B : Nat} (hn : n ≤ B) (hB : B ≤ 128) :
    (zeroFill buf 0 B).toList.take n = List.replicate n 0 := by
  rw [zeroFill, take_putBytes _ (Nat.zero_le _) (by rw [List.length_replicate]; omega) (by omega), List.take_zero,
    List.nil_append, List.take_replicate, Nat.sub_zero, Nat.sub_zero, Nat.min_eq_left hn]

section Absorb
variable {w : Nat} (cfg : CoreCfg w)

/-- Bytes that do not fill the buffer are only stored. -/
theorem absorb_of_fits {x : HashState w} {bs : List Byte} (h : x.p + bs.length < blockBytes w) :
    absorb cfg x bs = { x with buf := putBytes x.buf x.p bs, p := x.p + bs.length } := by
  induction bs generalizing x with
  | nil => rfl
  | cons b bs ih =>
    rw [List.length_cons] at h
    rcases absorbByte_cases cfg x b with ⟨_, hstored⟩ | ⟨hfull, _⟩
    · have hlen : x.p + 1 + bs.length = x.p + (b :: bs).length := by rw [List.length_cons]; omega
      rw [absorb_cons, hstored, ih (by show x.p + 1 + bs.length < blockBytes w; omega), ← hlen]
      rfl
    · omega

/-- The context with a full buffer compressed and the buffer empty again. -/
def compressFull (x : HashState w) (buf : Buf) : HashState w :=
  { compress cfg { x with buf := buf } (block { x with buf := buf }) x.ctr with p := 0 }

/-- Bytes that exactly fill the buffer are stored, then the buffer is compressed. -/
theorem absorb_of_fills {x : HashState w} {bs : List Byte} (hp : x.p < blockBytes w)
    (h : x.p + bs.length = blockBytes w) : absorb cfg x bs = compressFull cfg x (putBytes x.buf x.p bs) := by
  induction bs generalizing x with
  | nil => exact absurd h (Nat.ne_of_lt hp)
  | cons b bs ih =>
    rw [List.length_cons] at h
    rcases absorbByte_cases cfg x b with ⟨hne, hstored⟩ | ⟨hfull, hstored⟩
    · rw [absorb_cons, hstored, ih (by show x.p + 1 < blockBytes w; omega)
        (by show x.p + 1 + bs.length = blockBytes w; omega)]
      rfl
    · obtain rfl : bs = [] := List.eq_nil_of_length_eq_zero (by omega)
      rw [absorb_cons, hstored]
      rfl

/-- A whole block into an empty buffer: one compression of the block, whatever bytes the buffer held. -/
theorem absorb_block {y : HashState w} (buf : Buf) {blk : List Byte} (hp : y.p = 0) (hB : blockBytes w ≤ 128)
    (hpos : 0 < blockBytes w) (hlen : blk.length = blockBytes w) :
    absorb cfg { y with buf := buf } blk = { compress cfg y blk y.ctr with buf := putBytes buf 0 blk } := by
  have hblk : block { y with buf := putBytes buf 0 blk, p := 0 } = blk := by
    rw [block, ← hlen]
    exact take_putBytes_zero buf (by omega)
  rw [absorb_of_fills cfg (by show y.p < blockBytes w; omega) (by show y.p + blk.length = blockBytes w; omega)]
  simp only [compressFull, compress, hp, hblk]

/-! ## The source's UPDATE procedure -/

/-- Two contexts that stand for the same message so far: equal but for the buffer from p on (R268). -/
structure SameHeld (x y : HashState w) : Prop where
  cv : x.cv = y.cv
  ctr : x.ctr = y.ctr
  T : x.T = y.T
  r : x.r = y.r
  p : x.p = y.p
  held : x.buf.toList.take x.p = y.buf.toList.take y.p

theorem SameHeld.fields {x y : HashState w} (h : SameHeld x y) :
    x.cv = y.cv ∧ x.ctr = y.ctr ∧ x.T = y.T ∧ x.r = y.r ∧ x.p = y.p ∧
      x.buf.toList.take x.p = y.buf.toList.take y.p :=
  ⟨h.cv, h.ctr, h.T, h.r, h.p, h.held⟩

/-- Compressing whole blocks "directly from the input" and buffering the rest is absorbing, from an empty buffer. -/
theorem absorb_sameHeld_absorbBlocks (hB : blockBytes w ≤ 128) (hpos : 0 < blockBytes w) {k : Nat} {y : HashState w}
    {rest : List Byte} (buf : Buf) (hp : y.p = 0) (hk : rest.length / blockBytes w = k) :
    SameHeld (absorb cfg { y with buf := buf } rest) (absorbBlocks cfg k y rest) := by
  induction k generalizing y rest buf with
  | zero =>
    have hlt : rest.length < blockBytes w := (Nat.div_eq_zero_iff_lt hpos).1 hk
    rw [absorb_of_fits cfg (by show y.p + rest.length < blockBytes w; omega)]
    simp only [hp, Nat.zero_add]
    refine ⟨rfl, rfl, rfl, rfl, rfl, ?_⟩
    show (putBytes buf 0 rest).toList.take rest.length = (putBytes y.buf 0 rest).toList.take rest.length
    rw [take_putBytes_zero _ (by omega), take_putBytes_zero _ (by omega)]
  | succ k ih =>
    have hle : blockBytes w ≤ rest.length := (Nat.div_pos_iff.1 (by omega)).2
    have hrest : (rest.drop (blockBytes w)).length / blockBytes w = k := by
      rw [List.length_drop]
      exact Nat.succ.inj ((Nat.div_eq_sub_div hpos hle).symm.trans hk)
    have hsplit : absorb cfg { y with buf := buf } rest =
        absorb cfg (absorb cfg { y with buf := buf } (rest.take (blockBytes w))) (rest.drop (blockBytes w)) := by
      rw [← absorb_append, List.take_append_drop]
    rw [hsplit, absorb_block cfg buf hp hB hpos (List.length_take_of_le hle)]
    exact ih _ hp hrest

/-- The source's UPDATE procedure, in either class (R268). -/
theorem absorb_sameHeld_absorbBySource {x : HashState w} (bs : List Byte) (hB : blockBytes w ≤ 128)
    (hp : x.p < blockBytes w) : SameHeld (absorb cfg x bs) (absorbBySource cfg x bs) := by
  unfold absorbBySource
  by_cases hfits : bs.length < blockBytes w - x.p
  · rw [if_pos hfits, absorb_of_fits cfg (by omega)]
    exact ⟨rfl, rfl, rfl, rfl, rfl, rfl⟩
  · have hneed : (bs.take (blockBytes w - x.p)).length = blockBytes w - x.p := List.length_take_of_le (by omega)
    have hsplit : absorb cfg x bs = absorb cfg (compressFull cfg x (putBytes x.buf x.p (bs.take (blockBytes w - x.p))))
        (bs.drop (blockBytes w - x.p)) := by
      rw [← absorb_of_fills cfg hp (by omega), ← absorb_append, List.take_append_drop]
    rw [if_neg hfits, hsplit]
    exact absorb_sameHeld_absorbBlocks cfg hB (by omega)
      (y := compressFull cfg x (putBytes x.buf x.p (bs.take (blockBytes w - x.p)))) _ rfl
      (by rw [List.length_drop])

/-! ## Counting compressions -/

/-- Absorbing makes one compression for each block that fills, and leaves the rest in the buffer. -/
theorem absorb_count {x : HashState w} (bs : List Byte) (hp : x.p < blockBytes w) :
    (absorb cfg x bs).ctr = x.ctr + BitVec.ofNat (2 * w) ((x.p + bs.length) / blockBytes w) ∧
    (absorb cfg x bs).p = (x.p + bs.length) % blockBytes w := by
  induction bs generalizing x with
  | nil =>
    rw [List.length_nil, Nat.add_zero, Nat.div_eq_of_lt hp, Nat.mod_eq_of_lt hp]
    exact ⟨(BitVec.add_zero x.ctr).symm, rfl⟩
  | cons b bs ih =>
    obtain ⟨hctr, hpos⟩ := ih (absorbByte_p_lt cfg x b hp)
    rw [absorb_cons, hctr, hpos]
    rcases absorbByte_cases cfg x b with ⟨_, h⟩ | ⟨hfull, h⟩ <;> rw [h]
    · have hlen : x.p + (b :: bs).length = x.p + 1 + bs.length := by rw [List.length_cons]; omega
      rw [hlen]
      exact ⟨rfl, rfl⟩
    · have hlen : x.p + (b :: bs).length = bs.length + blockBytes w := by rw [List.length_cons]; omega
      rw [hlen, Nat.add_div_right _ (by omega), Nat.add_mod_right, Nat.zero_add,
        Nat.add_comm (bs.length / _) 1, BitVec.ofNat_add, ← BitVec.add_assoc]
      exact ⟨rfl, rfl⟩

end Absorb

/-- Settles O33, for both width classes. -/
theorem sourceProcedureEqualsAbsorb : Obligations.SourceProcedureEqualsAbsorb :=
  ⟨fun cfg _ bs hp => (absorb_sameHeld_absorbBySource cfg bs (by decide) hp).fields,
    fun cfg _ bs hp => (absorb_sameHeld_absorbBySource cfg bs (by decide) hp).fields⟩

/-! ## Padding -/

section Finish
variable {w : Nat} (cfg : CoreCfg w) {x : HashState w}

/-- With room for the length field the padded block waits for it (R272). -/
theorem finishPad_of_room (h : x.p < blockBytes w - 16) : finishPad cfg x = { x with buf := padBuf x } := by
  have hroom : needsExtraBlock x = false := decide_eq_false (by omega)
  simp only [finishPad, hroom, Bool.false_eq_true, if_false]

/-- Without it the padded block is compressed with the plain counter, and a zeroed block waits (R272). -/
theorem finishPad_of_no_room (h : ¬ x.p < blockBytes w - 16) :
    finishPad cfg x = { compress cfg x (block { x with buf := padBuf x }) x.ctr with
      buf := zeroFill (padBuf x) 0 (blockBytes w) } := by
  have hextra : needsExtraBlock x = true := decide_eq_true (by omega)
  simp only [finishPad, hextra, if_true, compress]

/-- The length-bearing block is compressed with ctr ⊕ fin (R274). -/
theorem finish_cv : (finish cfg x).cv =
    CF cfg (finishPad cfg x).cv (block (putLength (finishPad cfg x))) ((finishPad cfg x).ctr ^^^ finConst cfg) := by
  rw [finish, compress_cv, putLength_cv, putLength_ctr]

theorem finish_ctr : (finish cfg x).ctr = (finishPad cfg x).ctr + 1 := by
  rw [finish, compress_ctr, putLength_ctr]

theorem finish_count :
    (finish cfg x).ctr = x.ctr + BitVec.ofNat (2 * w) (finalCFCount (blockBytes w) x.p) := by
  rw [finish_ctr, finalCFCount]
  by_cases h : x.p < blockBytes w - 16
  · rw [finishPad_of_room cfg h, if_pos h]
    rfl
  · rw [finishPad_of_no_room cfg h, if_neg h, BitVec.ofNat_add (x := 1) (y := 1), ← BitVec.add_assoc]
    rfl

/-- The work table's rows for UPDATE and FINAL (R378). -/
theorem compression_counts (bs : List Byte) (hp : x.p < blockBytes w) :
    (absorb cfg x bs).ctr =
      x.ctr + BitVec.ofNat (2 * w) (updateCFCount (blockBytes w) x.p (8 * bs.length)) ∧
    (absorb cfg x bs).p = (x.p + bs.length) % blockBytes w ∧
    (finish cfg x).ctr = x.ctr + BitVec.ofNat (2 * w) (finalCFCount (blockBytes w) x.p) := by
  obtain ⟨hctr, hpos⟩ := absorb_count cfg bs hp
  rw [updateCFCount, Nat.mul_div_cancel_left _ (by decide)]
  exact ⟨hctr, hpos, finish_count cfg⟩

end Finish

/-- Settles O34, for both width classes. -/
theorem compressionCountsFollowTheTable : Obligations.CompressionCountsFollowTheTable :=
  ⟨fun cfg _ => compression_counts cfg, fun cfg _ => compression_counts cfg⟩

end Sys2Proof.Machine
end

section
/-! SUPPORT. The four commands as their pseudocode states them (O14 to O18; 44_engine_commands.md R261, R264, R269,
R280): the equations of Laws/Commands.lean with every record update written out. -/

namespace Sys2Proof.Machine

/-! ## INIT -/

/-- Settles O18: the supported lengths are the bits of the four digest lengths. -/
theorem supportedLengthsAndTheirSizes : Obligations.SupportedLengthsAndTheirSizes := by
  intro h
  refine ⟨by rw [← Option.isSome_iff_exists]; exact ofBits_isSome_iff h, fun n hn => ?_⟩
  rw [ofBits_eq_some hn]
  rcases n with n | n <;> cases n <;> decide

/-- INIT's block is zeroed (R261). -/
theorem block_initHash {w : Nat} (iv : Words w) (draw : Nat) (hB : blockBytes w ≤ 128) :
    block (initHash iv draw) = List.replicate (blockBytes w) 0 :=
  take_zeroFill _ (Nat.le_refl _) hB

section Init
variable {s : State} (hf : FaultFree s)
include hf

theorem init_starts_w32 (n : Len32) : ∃ x : HashState 32,
    exec (.init (DigestLen.bits (.w32 n))) s = .next { s with
      ctx := .accepting (.w32 n x), result := .SUCCESS, draws := s.draws + 1 } ∧
    x.cv = iv32 s.launch.cfg32 n ∧ x.ctr = 0 ∧ x.T = 0 ∧ block x = List.replicate 64 0 ∧ x.p = 0 ∧ x.r = 0 :=
  ⟨initHash (iv32 s.launch.cfg32 n) s.draws, execInit_supported hf (ofBits_bits (.w32 n)), rfl, rfl, rfl,
    block_initHash _ _ (by decide), rfl, rfl⟩

theorem init_starts_w64 (n : Len64) : ∃ x : HashState 64,
    exec (.init (DigestLen.bits (.w64 n))) s = .next { s with
      ctx := .accepting (.w64 n x), result := .SUCCESS, draws := s.draws + 1 } ∧
    x.cv = iv64 s.launch.cfg64 n ∧ x.ctr = 0 ∧ x.T = 0 ∧ block x = List.replicate 128 0 ∧ x.p = 0 ∧ x.r = 0 :=
  ⟨initHash (iv64 s.launch.cfg64 n) s.draws, execInit_supported hf (ofBits_bits (.w64 n)), rfl, rfl, rfl,
    block_initHash _ _ (by decide), rfl, rfl⟩

end Init

/-- Settles O14: one session for each of the four lengths, and none for the others. -/
theorem initFollowsItsPseudocode : Obligations.InitFollowsItsPseudocode := by
  intro s h hf
  refine ⟨?_, ?_, fun h224 h256 h384 h512 => ?_⟩
  · rintro (rfl | rfl)
    · exact init_starts_w32 hf .d224
    · exact init_starts_w32 hf .d256
  · rintro (rfl | rfl)
    · exact init_starts_w64 hf .d384
    · exact init_starts_w64 hf .d512
  · exact execInit_unsupported hf (by simp [DigestLen.ofBits, h224, h256, h384, h512])

/-! ## UPDATE, FINAL and HASH -/

/-- A context that is neither accepting nor UNSPECIFIED has no session in progress (R33). -/
theorem status_of_no_session {c : Context} (ha : Context.status c ≠ .ACCEPTING)
    (hu : Context.status c ≠ .UNSPECIFIED) :
    Context.status c = .UNINIT ∨ Context.status c = .FINALIZED ∨ Context.status c = .INVALID := by
  rcases Context.session_cases c with ⟨x, rfl⟩ | ⟨x, rfl⟩ | h
  · exact absurd rfl ha
  · exact absurd rfl hu
  · exact h

/-- Feeding L bits to a context without a remainder: the whole bytes are absorbed, and the last L mod 8 bits stand in
the partial byte (R264, R266). -/
theorem feed_eq_of_no_remainder {w : Nat} (cfg : CoreCfg w) {x : HashState w} (data : List Byte) (L : BitVec 64)
    (hr : x.r = 0) :
    feed cfg x data L = { absorb cfg x (data.take (L.toNat / 8)) with
      buf := if L.toNat % 8 = 0 then (absorb cfg x (data.take (L.toNat / 8))).buf
        else (absorb cfg x (data.take (L.toNat / 8))).buf.setIfInBounds
          (absorb cfg x (data.take (L.toNat / 8))).p (data.getD (L.toNat / 8) 0)
      r := L.toNat % 8
      T := lenAdd x.T L } := by
  have habsorbed := absorb_r cfg x (data.take (L.toNat / 8))
  rw [hr] at habsorbed
  by_cases h : L.toNat % 8 = 0
  · simp only [feed, h, ne_eq, not_true_eq_false, if_false, if_true, absorb_T, ← habsorbed]
  · simp only [feed, h, ne_eq, not_false_eq_true, if_true, if_false, absorb_T]

/-- Settles O15: the equation of each branch, with the fault and the fed context written out. -/
theorem updateFollowsItsPseudocode : Obligations.UpdateFollowsItsPseudocode := by
  intro s hf
  refine ⟨fun x hc => ?_, fun ha hu => execUpdate_fail hf (status_of_no_session ha hu),
    fun x hc hr => execUpdate_remainder hf hc hr, fun x hc hr hadm => ?_, fun n x hc hr hadm => ?_,
    fun n x hc hr hadm => ?_⟩
  · rw [← raiseFault_clear _ _ _ s hf]
    exact execUpdate_unspecified hf hc
  · rw [← raiseFault_clear _ _ _ s hf]
    exact execUpdate_bounds hf hc hr (Bool.not_eq_true _ ▸ hadm)
  all_goals
    have hfed := execUpdate_success hf hc hr hadm
    simp only [Session.feed, feed_eq_of_no_remainder _ _ _ hr] at hfed
    exact hfed

/-- Settles O16: the equation of each branch, with the fault written out. -/
theorem finalFollowsItsPseudocode : Obligations.FinalFollowsItsPseudocode := by
  intro s hf
  refine ⟨fun x hc => ?_, fun ha hu => execFinal_fail hf (status_of_no_session ha hu), fun x hc hadm => ?_,
    fun x hc hadm => ⟨Session.afterFinal s.draws x, Session.afterFinal_n _ x, execFinal_success hf hc hadm⟩⟩
  · rw [← raiseFault_clear _ _ _ s hf]
    exact execFinal_unspecified hf hc
  · rw [← raiseFault_clear _ _ _ s hf]
    exact execFinal_bounds hf hc (Bool.not_eq_true _ ▸ hadm)

/-- Settles O17: the equation of each branch, with the fault written out. -/
theorem hashFollowsItsPseudocode : Obligations.HashFollowsItsPseudocode := by
  intro s h hf
  refine ⟨fun hn => execHash_unsupported hf hn, fun n hn => ⟨fun hsrc => ?_, fun hsrc hdst => ?_,
    fun hsrc hdst => ⟨freeContext s.draws, execHash_success hf hn hsrc hdst⟩⟩⟩
  · rw [← raiseFault_clear _ _ _ s hf]
    exact execHash_srcBounds hf hn (Bool.not_eq_true _ ▸ hsrc)
  · rw [← raiseFault_clear _ _ _ s hf]
    exact execHash_dstBounds hf hn hsrc (Bool.not_eq_true _ ▸ hdst)

end Sys2Proof.Machine
end

section
/-! SUPPORT. The digest and who writes it: its words and its length (O38, O29; 44_engine_commands.md R275, R286), the
context after FINAL (O28; R287), and what HASH does not look at (O32; R283). -/

namespace Sys2Proof.Machine

/-! ## The digest's bytes -/

section Words
variable {w : Nat}

theorem toBEseq_cons (v : BitVec w) (vs : List (BitVec w)) : toBEseq (v :: vs) = toBE v ++ toBEseq vs := rfl

theorem toBEseq_length (vs : List (BitVec w)) : (toBEseq vs).length = vs.length * wordBytes w := by
  induction vs with
  | nil => exact (Nat.zero_mul _).symm
  | cons v vs ih => rw [toBEseq_cons, List.length_append, toBE_length, ih, List.length_cons, Nat.succ_mul, Nat.add_comm]

/-- The first k words' bytes are the bytes of the first k words. -/
theorem toBEseq_take (vs : List (BitVec w)) (k : Nat) :
    (toBEseq vs).take (k * wordBytes w) = toBEseq (vs.take k) := by
  induction vs generalizing k with
  | nil => rw [List.take_nil]; exact List.take_nil
  | cons v vs ih =>
    cases k with
    | zero => rw [Nat.zero_mul]; rfl
    | succ k =>
      have hk : (k + 1) * wordBytes w = (toBE v).length + k * wordBytes w := by
        rw [toBE_length, Nat.succ_mul, Nat.add_comm]
      rw [List.take_succ_cons, toBEseq_cons, toBEseq_cons, hk, List.take_length_add_append, ih]

end Words

/-- Settles O38: each digest length is a whole number of words. -/
theorem digestIsTheLeadingWords : Obligations.DigestIsTheLeadingWords := by
  refine ⟨fun l n x => ?_, fun l n x => ?_⟩
  · cases n with
    | d224 => exact toBEseq_take (w := 32) _ 7
    | d256 => exact toBEseq_take (w := 32) _ 8
  · cases n with
    | d384 => exact toBEseq_take (w := 64) _ 6
    | d512 => exact toBEseq_take (w := 64) _ 8

/-- A digest has all its ceil(n/8) bytes: the chaining value has enough words. -/
theorem digest_length (l : Launch) (x : Session) : (Session.digest l x).length = DigestLen.bytes (Session.n x) := by
  cases x with
  | w32 n x =>
    rw [Session.digest, trunc, List.length_take, toBEseq_length, Vector.length_toList]
    cases n <;> rfl
  | w64 n x =>
    rw [Session.digest, trunc, List.length_take, toBEseq_length, Vector.length_toList]
    cases n <;> rfl

theorem hashDigest_length (s : State) (n : DigestLen) : (hashDigest s n).length = DigestLen.bytes n := by
  rw [hashDigest, digest_length, Session.feed_n, Session.start_n]

/-! ## Who writes a digest -/

section Effects
variable {s t : State} {i : Instr}

/-- A FINAL or HASH that returns SUCCESS has stored its digest at DST_ADDR (R286). -/
theorem CommandEffect.digest_of_success (e : CommandEffect s t i) (hi : i = .final ∨ ∃ h, i = .hash h)
    (hf : t.fault = false) (hr : t.result = .SUCCESS) :
    ∃ n digest, ((i = .final ∧ ∃ x, s.ctx = .accepting x ∧ Session.n x = n ∧ digest = Session.digest s.launch x) ∨
        (i = .hash (DigestLen.bits n) ∧ digest = hashDigest s n)) ∧
      digest.length = DigestLen.bytes n ∧ t.mem = memWrite s.mem s.dstAddr.toNat digest := by
  cases e with
  | @finalStored x _ hc _ ht =>
    exact ⟨Session.n x, _, .inl ⟨rfl, x, hc, rfl, rfl⟩, digest_length s.launch x, by rw [ht, setResult_mem]⟩
  | @hashStored h n _ hn _ _ ht =>
    exact ⟨n, _, .inr ⟨by rw [ofBits_eq_some hn], rfl⟩, hashDigest_length s n, by rw [ht, setResult_mem]⟩
  | ignored hs ht => exact absurd (hs.symm.trans (ht ▸ hf)) (by decide)
  | useAfterFail _ _ _ ht | finalBounds _ _ _ ht | hashSrcBounds _ _ _ ht | hashDstBounds _ _ _ _ ht =>
    simp [ht] at hf
  | noSession _ _ _ ht | hashUnsupported _ _ ht => simp [ht] at hr
  | initUnsupported | initStarted | updateAfterRemainder | updateBounds | updateFed => simp at hi

/-- A command that faults or returns anything but SUCCESS stores nothing (R286, R335). -/
theorem CommandEffect.mem_of_no_success (e : CommandEffect s t i) (hs : FaultFree s)
    (h : t.fault = true ∨ t.result = .FAIL ∨ t.result = .BAD_HASHBITLEN) : t.mem = s.mem := by
  cases e with
  | finalStored _ _ _ ht | hashStored _ _ _ _ ht => simp [ht, show s.fault = false from hs] at h
  | ignored _ ht | initUnsupported _ _ ht | initStarted _ _ ht | useAfterFail _ _ _ ht | noSession _ _ _ ht
  | updateAfterRemainder _ _ _ ht | updateBounds _ _ _ _ ht | updateFed _ _ _ _ ht | finalBounds _ _ _ ht
  | hashUnsupported _ _ ht | hashSrcBounds _ _ _ ht | hashDstBounds _ _ _ _ ht => simp [ht]

/-- A FINAL that returns SUCCESS leaves a FINALIZED context (R276). -/
theorem CommandEffect.finalized_of_success (e : CommandEffect s t .final) (hf : t.fault = false)
    (hr : t.result = .SUCCESS) : ∃ x, t.ctx = .finalized x := by
  cases e with
  | finalStored _ _ _ ht => exact ⟨_, by rw [ht, setResult_ctx]⟩
  | ignored hs ht => exact absurd (hs.symm.trans (ht ▸ hf)) (by decide)
  | useAfterFail _ _ _ ht | finalBounds _ _ _ ht => simp [ht] at hf
  | noSession _ _ _ ht => simp [ht] at hr

end Effects

/-- Settles O29: what a SUCCESS stores is a digest of exactly its length; nothing else is stored. -/
theorem digestsHaveExactlyTheirLength : Obligations.DigestsHaveExactlyTheirLength := by
  intro i s t hwf hs he hi
  have e := exec_effect he
  refine ⟨fun hf hr => ?_, e.mem_of_no_success hs⟩
  obtain ⟨n, digest, hdigest, hlen, hmem⟩ := e.digest_of_success hi hf hr
  refine ⟨n, digest, hdigest, hlen, ?_, fun a ha => ?_⟩
  · have hback := memRead_memWrite s.mem s.dstAddr.toNat digest hwf.1
    rw [hlen, ← hmem] at hback
    exact hback
  · rw [hmem]
    exact read_memWrite_outside (Nat.le_of_eq hlen) ha

/-! ## After FINAL -/

/-- A FINALIZED context rejects UPDATE and FINAL, which change nothing but RESULT (R287, R332). -/
theorem exec_finalized {u : State} {x : Session} {c : Instr} (hc : u.ctx = .finalized x) (hf : FaultFree u)
    (hi : c = .update ∨ c = .final) : exec c u = .next { u with result := .FAIL } := by
  have hstatus : Context.status u.ctx = .FINALIZED := by rw [hc]; rfl
  rcases hi with rfl | rfl
  · exact execUpdate_fail hf (.inr (.inl hstatus))
  · exact execFinal_fail hf (.inr (.inl hstatus))

/-- However many UPDATEs and FINALs follow, RESULT is FAIL from the first on, and nothing else changes. -/
theorem execAll_finalized {u : State} {x : Session} {cs : List Instr} (hc : u.ctx = .finalized x)
    (hf : FaultFree u) (hcs : ∀ c ∈ cs, c = .update ∨ c = .final) :
    execAll cs u = .next { u with result := if cs = [] then u.result else .FAIL } := by
  induction cs generalizing u with
  | nil => rfl
  | cons c cs ih =>
    obtain ⟨hhead, htail⟩ := List.forall_mem_cons.1 hcs
    have hnext : execAll (c :: cs) u = execAll cs { u with result := .FAIL } := by
      simp only [execAll, exec_finalized hc hf hhead]
    rw [hnext, ih (u := { u with result := .FAIL }) hc hf htail]
    simp

/-- Settles O28: the context stays FINALIZED, so every one of the commands is rejected. -/
theorem finalizedContextRejectsForEver : Obligations.FinalizedContextRejectsForEver := by
  intro s t he hf hr
  obtain ⟨x, hx⟩ := (exec_effect he).finalized_of_success hf hr
  refine ⟨fun cs hcs => ?_, fun u c hu hfu hi => exec_finalized (hu.trans hx) hfu hi⟩
  rw [execAll_finalized hx hf hcs, hr]

/-! ## What HASH does not look at -/

/-- Entering a fault neither reads nor writes the contexts. -/
theorem raiseFault_setContexts (cause : Cause) (op : BitVec 4) (info : BitVec 64) (s : State) (c : Context)
    (k : Option Context) :
    raiseFault cause op info { s with ctx := c, hctx := k } =
      { raiseFault cause op info s with ctx := c, hctx := k } := by
  simp only [raiseFault]
  split <;> rfl

/-- Settles O32: in each case of HASH the checks and the digest are the same for the two states. -/
theorem hashIgnoresTheContext : Obligations.HashIgnoresTheContext := by
  intro h s t c k he
  cases exec_effect he with
  | ignored hf ht => exact ⟨k, by rw [ht]; exact exec_faulted _ _ hf⟩
  | hashUnsupported hf hn ht => exact ⟨k, by rw [ht]; exact execHash_unsupported hf hn⟩
  | hashSrcBounds hf hn hs ht =>
    exact ⟨k, by rw [ht, ← raiseFault_setContexts]; exact execHash_srcBounds hf hn hs⟩
  | hashDstBounds hf hn hs hd ht =>
    exact ⟨k, by rw [ht, ← raiseFault_setContexts]; exact execHash_dstBounds hf hn hs hd⟩
  | hashStored hf hn hs hd ht =>
    exact ⟨some (freeContext s.draws), by rw [ht]; exact execHash_success hf hn hs hd⟩
  | useAfterFail _ hi | noSession _ hi => simp at hi

end Sys2Proof.Machine
end

section
/-! SUPPORT. FINAL's padding and length field byte for byte (O35, O36; 44_engine_commands.md R270 to R274,
43_length_counter.md R245). -/

namespace Sys2Proof.Machine

/-! ## The byte with the padding bit -/

/-- The mask of R270 has all ones from its lowest bit up, the padding bit stands at 7. -/
theorem padMask_getLsbD : ∀ j, j < 8 → (0xFF : Byte).getLsbD j = true := by decide

theorem padBit_getLsbD : ∀ j, j < 16 → (0x80 : Byte).getLsbD j = decide (j = 7) := by decide

theorem padByte_getLsbD (b : Byte) {r i : Nat} (hr : 0 < r) (hr' : r < 8) (hi : i < 8) :
    (padByte b r).getLsbD i = if 8 - r ≤ i then b.getLsbD i else decide (i = 7 - r) := by
  rw [padByte, if_pos hr, BitVec.getLsbD_or, BitVec.getLsbD_and, BitVec.getLsbD_shiftLeft, BitVec.getLsbD_ushiftRight,
    padMask_getLsbD _ (by omega), padBit_getLsbD _ (by omega)]
  by_cases h : 8 - r ≤ i
  · simp [h, hi, show ¬ i < 8 - r by omega, show r + i ≠ 7 by omega]
  · simp [h, hi, show i < 8 - r by omega, show r + i = 7 ↔ i = 7 - r by omega]

/-- Settles O35. -/
theorem paddingBitFollowsTheLastMessageBit : Obligations.PaddingBitFollowsTheLastMessageBit :=
  fun b _ hr => ⟨rfl, fun hpos _ hi => padByte_getLsbD b hpos hr hi⟩

/-! ## The length field -/

theorem lenField_length (T : BitVec 128) : (lenField T).length = 16 := toBE_length T

/-- Byte i of the length field, the most significant first (R245). -/
theorem lenField_getD_toNat (T : BitVec 128) {i : Nat} (hi : i < 16) :
    ((lenField T).getD i 0).toNat = T.toNat / 2 ^ (120 - 8 * i) % 256 := by
  have hbyte : (lenField T).getD i 0 = byteAt T i := getD_map_range (byteAt T) hi
  rw [hbyte, byteAt, BitVec.extractLsb'_toNat, Nat.shiftRight_eq_div_pow]

/-! ## The blocks -/

section Blocks
variable {w : Nat} (cfg : CoreCfg w) {x : HashState w} (hB : blockBytes w ≤ 128)

/-- The message bytes in the buffer and the byte with the padding bit: how the padded block begins (R270). -/
def paddedHead (x : HashState w) : List Byte :=
  x.buf.toList.take x.p ++ [padByte (x.buf.toList.getD x.p 0) x.r]

/-- The constant of R274 as one number. -/
theorem finConst_eq :
    finConst cfg = BitVec.ofNat (2 * w) (cfg.finCtr0.toNat + cfg.finCtr1.toNat * 2 ^ w) := by
  apply BitVec.eq_of_toNat_eq
  simp [finConst, Nat.shiftLeft_eq]

include hB

/-- The padded buffer up to byte n: its head, then zeros (R270, R271). -/
theorem take_padBuf {n : Nat} (hp : x.p < n) (hn : n ≤ blockBytes w) :
    (padBuf x).toList.take n = paddedHead x ++ List.replicate (n - 1 - x.p) 0 := by
  have hstored : padBuf x = putBytes x.buf x.p (padByte (x.buf.toList.getD x.p 0) x.r ::
      List.replicate (blockBytes w - (x.p + 1)) 0) := rfl
  have hpad : n - x.p = n - 1 - x.p + 1 := by omega
  rw [hstored, take_putBytes _ (by omega) (by rw [List.length_cons, List.length_replicate]; omega) (by omega), hpad,
    List.take_succ_cons, List.take_replicate, Nat.min_eq_left (by omega), paddedHead, List.append_assoc,
    List.singleton_append]

/-- The block with the length field: the buffer as it was, then the 16 bytes (R273). -/
theorem block_putLength (h16 : 16 ≤ blockBytes w) (y : HashState w) :
    block (putLength y) = y.buf.toList.take (blockBytes w - 16) ++ lenField y.T := by
  have hlen := lenField_length y.T
  rw [block, putLength_buf, take_putBytes _ (by omega) (by omega) hB,
    List.take_of_length_le (l := lenField y.T) (by omega)]

/-- With room for the length field FINAL compresses one block (R272, R274). -/
theorem finish_of_room (hp : x.p + 1 ≤ blockBytes w - 16) :
    (finish cfg x).cv = CF cfg x.cv
        (paddedHead x ++ List.replicate (blockBytes w - 16 - 1 - x.p) 0 ++ lenField x.T)
        (x.ctr ^^^ BitVec.ofNat (2 * w) (cfg.finCtr0.toNat + cfg.finCtr1.toNat * 2 ^ w)) ∧
      (finish cfg x).ctr = x.ctr + 1 := by
  rw [finish_cv, finish_ctr, finishPad_of_room cfg hp, block_putLength hB (by omega),
    take_padBuf hB hp (Nat.sub_le _ _), finConst_eq]
  exact ⟨rfl, rfl⟩

/-- Without it FINAL compresses the padded block, then zeros and the length field (R272, R274). -/
theorem finish_of_no_room (hp : x.p < blockBytes w) (h16 : 16 ≤ blockBytes w)
    (hroom : ¬ x.p + 1 ≤ blockBytes w - 16) :
    (finish cfg x).cv = CF cfg
        (CF cfg x.cv (paddedHead x ++ List.replicate (blockBytes w - 1 - x.p) 0) x.ctr)
        (List.replicate (blockBytes w - 16) 0 ++ lenField x.T)
        ((x.ctr + 1) ^^^ BitVec.ofNat (2 * w) (cfg.finCtr0.toNat + cfg.finCtr1.toNat * 2 ^ w)) ∧
      (finish cfg x).ctr = x.ctr + 2 := by
  have hblock : block { x with buf := padBuf x } =
      paddedHead x ++ List.replicate (blockBytes w - 1 - x.p) 0 := take_padBuf hB hp (Nat.le_refl _)
  have htwo : x.ctr + 2 = x.ctr + 1 + 1 := by
    rw [BitVec.add_assoc]
    exact congrArg (x.ctr + ·) (BitVec.ofNat_add 1 1)
  rw [finish_cv, finish_ctr, finishPad_of_no_room cfg hroom, block_putLength hB h16, hblock,
    take_zeroFill _ (Nat.sub_le _ _) hB, finConst_eq, htwo]
  exact ⟨rfl, rfl⟩

end Blocks

/-- Settles O36, for both width classes, by whether the length field has room. -/
theorem finalBlocksAreLaidOutAsPadded : Obligations.FinalBlocksAreLaidOutAsPadded := by
  refine ⟨fun T => ⟨lenField_length T, BE_toBE rfl T, fun i => lenField_getD_toNat T⟩,
    fun cfg x hp => ?_, fun cfg x hp => ?_⟩
  all_goals
    intro head fin
    split
    · next hroom => exact finish_of_room cfg (by decide) hroom
    · next hroom => exact finish_of_no_room cfg (by decide) hp (by decide) hroom

end Sys2Proof.Machine
end

section
/-! SUPPORT. Whole sessions (O30, O31; 44_engine_commands.md R282, R285): feeding a message in two parts is feeding the
whole, and a host program of INIT, UPDATEs and FINAL, run move by move, feeds its chunks one after the other. -/

namespace Sys2Proof.Machine

/-! ## Feeding in two parts -/

section Feed
variable {w : Nat} (cfg : CoreCfg w)

/-- Absorbing does not look at the length counter. -/
theorem absorb_setT (x : HashState w) (T : BitVec 128) (bs : List Byte) :
    absorb cfg { x with T := T } bs = { absorb cfg x bs with T := T } := by
  have hbyte (x : HashState w) (b : Byte) :
      absorbByte cfg { x with T := T } b = { absorbByte cfg x b with T := T } := by
    simp only [absorbByte]
    split <;> rfl
  induction bs generalizing x with
  | nil => rfl
  | cons b bs ih => rw [absorb_cons, absorb_cons, hbyte, ih]

theorem feed_setT (x : HashState w) (T : BitVec 128) (data : List Byte) (L : BitVec 64) :
    feed cfg { x with T := T } data L = { feed cfg x data L with T := lenAdd T L } := by
  simp only [feed, absorb_setT]
  split <;> rfl

/-- Feeding whole bytes is absorbing them, and counting their bits. -/
theorem feed_wholeBytes (x : HashState w) {data : List Byte} {L : BitVec 64} (hL : L.toNat = 8 * data.length) :
    feed cfg x data L = { absorb cfg x data with T := lenAdd x.T L } := by
  have hdiv : L.toNat / 8 = data.length := by omega
  simp only [feed, hdiv, show L.toNat % 8 = 0 by omega, ne_eq, not_true_eq_false, if_false, List.take_length, absorb_T]

theorem lenAdd_lenAdd (T : BitVec 128) {L M : BitVec 64} (h : L.toNat + M.toNat < 2 ^ 64) :
    lenAdd (lenAdd T L) M = lenAdd T (L + M) := by
  have hsum : (L + M).toNat = L.toNat + M.toNat := by rw [BitVec.toNat_add, Nat.mod_eq_of_lt h]
  apply BitVec.eq_of_toNat_eq
  rw [lenAdd_toNat, lenAdd_toNat, lenAdd_toNat, hsum, Nat.mod_add_mod, Nat.add_assoc]

/-- Feeding whole bytes first and the rest of the message then is feeding the message (R285). -/
theorem feed_append (x : HashState w) {as bs : List Byte} {L M : BitVec 64} (hL : L.toNat = 8 * as.length)
    (hsum : L.toNat + M.toNat < 2 ^ 64) :
    feed cfg (feed cfg x as L) bs M = feed cfg x (as ++ bs) (L + M) := by
  have hnat : (L + M).toNat = L.toNat + M.toNat := by rw [BitVec.toNat_add, Nat.mod_eq_of_lt hsum]
  have hdiv : (L + M).toNat / 8 = as.length + M.toNat / 8 := by omega
  have hmod : (L + M).toNat % 8 = M.toNat % 8 := by omega
  have hlast : (as ++ bs).getD (as.length + M.toNat / 8) 0 = bs.getD (M.toNat / 8) 0 := by
    rw [List.getD_eq_getElem?_getD, List.getElem?_append_right (Nat.le_add_right _ _), Nat.add_sub_cancel_left,
      List.getD_eq_getElem?_getD]
  rw [feed_wholeBytes cfg x hL, feed_setT, lenAdd_lenAdd _ hsum]
  simp only [feed, hdiv, hmod, List.take_length_add_append, absorb_append, hlast]
  split <;> simp only [absorb_T]

end Feed

/-! ## Messages in host memory -/

section Messages
variable (l : Launch) (m : Memory)

/-- What an UPDATE of L bits from address `src` makes of a session under launch `l` and memory `m`. -/
def Session.feedFrom (src L : Nat) (x : Session) : Session :=
  Session.feed l (memRead m src (bytesForBits L)) (BitVec.ofNat 64 L) x

theorem Session.feed_append (x : Session) {as bs : List Byte} {L M : BitVec 64} (hL : L.toNat = 8 * as.length)
    (hsum : L.toNat + M.toNat < 2 ^ 64) :
    Session.feed l bs M (Session.feed l as L x) = Session.feed l (as ++ bs) (L + M) x := by
  cases x with
  | w32 n x => exact congrArg (Session.w32 n) (Machine.feed_append l.cfg32 x hL hsum)
  | w64 n x => exact congrArg (Session.w64 n) (Machine.feed_append l.cfg64 x hL hsum)

/-- Two messages that lie one behind the other, the first of whole bytes, are one message. -/
theorem Session.feedFrom_feedFrom (x : Session) {src L M : Nat} (hL : L % 8 = 0) (hsum : L + M < 2 ^ 64) :
    Session.feedFrom l m (src + L / 8) M (Session.feedFrom l m src L x) = Session.feedFrom l m src (L + M) x := by
  have hbytes : bytesForBits L = L / 8 := by unfold bytesForBits; omega
  have hboth : bytesForBits (L + M) = L / 8 + bytesForBits M := by unfold bytesForBits; omega
  have hLnat : (BitVec.ofNat 64 L).toNat = L := by rw [BitVec.toNat_ofNat, Nat.mod_eq_of_lt (by omega)]
  have hMnat : (BitVec.ofNat 64 M).toNat = M := by rw [BitVec.toNat_ofNat, Nat.mod_eq_of_lt (by omega)]
  simp only [Session.feedFrom, hboth, hbytes, memRead_append, BitVec.ofNat_add]
  exact Session.feed_append l x (by rw [hLnat, memRead_length]; omega) (by rw [hLnat, hMnat]; exact hsum)

/-- An empty message changes nothing. -/
theorem Session.feedFrom_zero (src : Nat) (x : Session) : Session.feedFrom l m src 0 x = x := by
  have hempty {w : Nat} (cfg : CoreCfg w) (y : HashState w) : Machine.feed cfg y [] 0 = y := by
    rw [feed_wholeBytes cfg y (data := []) (L := 0) rfl, absorb_nil, lenAdd]
    simp
  cases x with
  | w32 n x => exact congrArg (Session.w32 n) (hempty l.cfg32 x)
  | w64 n x => exact congrArg (Session.w64 n) (hempty l.cfg64 x)

@[simp] theorem Session.feedFrom_n (src L : Nat) (x : Session) :
    Session.n (Session.feedFrom l m src L x) = Session.n x :=
  Session.feed_n ..

/-- Whole bytes leave no remainder (R266). -/
theorem Session.feedFrom_r {src L : Nat} {x : Session} (hr : Session.r x = 0) (hL : L % 8 = 0) (hlt : L < 2 ^ 64) :
    Session.r (Session.feedFrom l m src L x) = 0 := by
  have hmod : (BitVec.ofNat 64 L).toNat % 8 = 0 := by rw [BitVec.toNat_ofNat, Nat.mod_eq_of_lt hlt, hL]
  cases x with
  | w32 n x => exact (feed_r ..).trans (by rw [if_neg (by omega)]; exact hr)
  | w64 n x => exact (feed_r ..).trans (by rw [if_neg (by omega)]; exact hr)

end Messages

/-- INIT starts without a remainder. -/
theorem Session.start_r (l : Launch) (draw : Nat) (n : DigestLen) : Session.r (Session.start l draw n) = 0 := by
  cases n <;> rfl

/-- Settles O30: HASH's digest is that of the session the three commands run. -/
theorem hashEqualsInitUpdateFinal : Obligations.HashEqualsInitUpdateFinal := by
  intro s n hf hsrc hdst
  have hinit := execInit_supported hf (ofBits_bits n)
  have hupdate := execUpdate_success (s := setResult .SUCCESS
    { s with ctx := .accepting (Session.start s.launch s.draws n), draws := s.draws + 1 }) hf rfl
    (Session.start_r _ _ n) hsrc
  refine ⟨_, _, _, _, hinit, hupdate, execFinal_success hf rfl ?_, execHash_success hf (ofBits_bits n) hsrc hdst,
    hf, rfl, hf, rfl, rfl⟩
  rw [Session.feed_n, Session.start_n]
  exact hdst

/-! ## Running a session's program -/

/-- The machine gets from `t` to `u` in `c` steps, and goes on from there. -/
def RunsTo (c : Nat) (t u : State) : Prop :=
  ∀ k, Host.Core.run core (k + c) t = Host.Core.run core k u

theorem RunsTo.trans {a b : Nat} {t u v : State} (h : RunsTo a t u) (h' : RunsTo b u v) : RunsTo (a + b) t v := by
  intro k
  rw [Nat.add_comm a b, ← Nat.add_assoc, h, h']

/-- The state `t` of a run under launch `l` and memory `m`: the engine is not faulted, the session `x` is in progress,
and the moves `rest` are still to come. -/
structure InSession (l : Launch) (m : Memory) (x : Session) (rest : List HostMove) (t : State) : Prop where
  launch : t.launch = l
  mem : t.mem = m
  fault : t.fault = false
  ctx : t.ctx = .accepting x
  pending : t.pending = rest

section Run
variable {l : Launch} {m : Memory} {x : Session} {rest : List HostMove} {t : State}

/-- The CMD write of a well-formed command's form is one step of the run, the command's. -/
theorem run_command {s u : State} {i : Instr} (hwf : i.wf = true) (hf : FaultFree s)
    (hp : s.pending = wrCmd i :: rest) (he : exec i { s with pending := rest } = .next u) : RunsTo 1 s u := by
  have hmove := hostMove_wrCmd (s := { s with pending := rest }) hwf hf
  exact fun _ => run_move hp (hmove.trans he)

theorem run_init {s : State} {n : DigestLen} (hf : FaultFree s)
    (hp : s.pending = wrCmd (.init (DigestLen.bits n)) :: rest) :
    ∃ u, RunsTo 1 s u ∧ InSession s.launch s.mem (Session.start s.launch s.draws n) rest u := by
  have hwf : (Instr.init (DigestLen.bits n)).wf = true := by rcases n with n | n <;> cases n <;> rfl
  have hinit := execInit_supported (s := { s with pending := rest }) hf (ofBits_bits n)
  exact ⟨_, run_command hwf hf hp hinit, ⟨rfl, rfl, hf, rfl, rfl⟩⟩

/-- UPDATE's form, in a session without a remainder and from an admitted range. -/
theorem InSession.run_update {src L : BitVec 64}
    (h : InSession l m x (Asm.expand (.updateOf src.toNat L.toNat) ++ rest) t) (hr : Session.r x = 0)
    (hadm : memAdmits l src (bytesForBits L.toNat) = true) :
    ∃ u, RunsTo 3 t u ∧ InSession l m (Session.feedFrom l m src.toNat L.toNat x) rest u := by
  obtain ⟨rfl, rfl, hf, hctx, hp⟩ := h
  have hupdate := execUpdate_success (s := { t with srcAddr := src, bitLen := L, pending := rest }) hf hctx hr hadm
  have hoperands : RunsTo 2 t { t with srcAddr := src, bitLen := L, pending := wrCmd .update :: rest } :=
    fun _ => (run_srcAddr hp).trans (run_bitLen rfl)
  refine ⟨_, hoperands.trans (run_command (i := .update) rfl hf rfl hupdate), ⟨rfl, rfl, hf, ?_, rfl⟩⟩
  rw [Session.feedFrom, BitVec.ofNat_toNat, BitVec.setWidth_eq]
  rfl

/-- UPDATEs of chunks that lie one behind the other feed the message that the chunks make up (R285). -/
theorem InSession.run_chunks {src : Nat} {Ls : List Nat}
    (h : InSession l m x (assemble (chunkUpdates src Ls) ++ rest) t) (hr : Session.r x = 0)
    (hsum : Ls.sum < 2 ^ 64) (hok : chunksOk l src Ls) :
    ∃ u, RunsTo (assemble (chunkUpdates src Ls)).length t u ∧
      InSession l m (Session.feedFrom l m src Ls.sum x) rest u := by
  induction Ls generalizing src x t with
  | nil =>
    rw [List.sum_nil, Session.feedFrom_zero]
    exact ⟨t, fun _ => rfl, h⟩
  | cons L Ls ih =>
    obtain ⟨hsrc, hadm, hwhole, hrest⟩ := hok
    rw [List.sum_cons] at hsum ⊢
    have hsrcNat : (BitVec.ofNat 64 src).toNat = src := by rw [BitVec.toNat_ofNat, Nat.mod_eq_of_lt hsrc]
    have hLnat : (BitVec.ofNat 64 L).toNat = L := by rw [BitVec.toNat_ofNat, Nat.mod_eq_of_lt (by omega)]
    have hmoves : assemble (chunkUpdates src (L :: Ls)) =
        Asm.expand (.updateOf src L) ++ assemble (chunkUpdates (src + L / 8) Ls) := List.flatMap_cons ..
    rw [hmoves, List.append_assoc, ← hsrcNat, ← hLnat] at h
    obtain ⟨u, hrun, hu⟩ := h.run_update hr (by rw [hLnat]; exact hadm)
    rw [hsrcNat, hLnat] at hu
    rw [hmoves, List.length_append]
    cases Ls with
    | nil => exact ⟨u, hrun, hu⟩
    | cons L' Ls =>
      have hL : L % 8 = 0 := hwhole (List.cons_ne_nil _ _)
      obtain ⟨v, hrun', hv⟩ := ih hu (Session.feedFrom_r l m hr hL (by omega)) (by omega) hrest
      rw [Session.feedFrom_feedFrom l m x hL hsum] at hv
      exact ⟨v, hrun.trans hrun', hv⟩

/-- FINAL's form, at the end of a program and to an admitted range. -/
theorem InSession.run_final {dst : BitVec 64} (h : InSession l m x (Asm.expand (.finalTo dst.toNat)) t)
    (hadm : memAdmits l dst (DigestLen.bytes (Session.n x)) = true) :
    ∃ u, Host.Core.run core 2 t = .next u ∧ u.fault = false ∧ u.result = .SUCCESS ∧
      u.mem = memWrite m dst.toNat (Session.digest l x) := by
  obtain ⟨rfl, rfl, hf, hctx, hp⟩ := h
  have hfinal := execFinal_success (s := { t with dstAddr := dst, pending := [] }) hf hctx hadm
  have hcmd := run_wrCmd (s := { t with dstAddr := dst, pending := [wrCmd .final] }) (i := .final) rfl rfl hf
  exact ⟨_, (run_dstAddr hp).trans (hcmd.trans hfinal), hf, rfl, rfl⟩

end Run

/-- A session's program is INIT's CMD write, the moves of its updates and FINAL's form. -/
theorem sessionProgram_eq (n : DigestLen) (updates : List Asm) (dst : Nat) :
    sessionProgram n updates dst =
      wrCmd (.init (DigestLen.bits n)) :: (assemble updates ++ Asm.expand (.finalTo dst)) := by
  simp [sessionProgram, assemble, Asm.expand]

/-- A session over chunks stores the digest of the message that the chunks make up. -/
theorem run_sessionProgram {s : State} {n : DigestLen} {src dst : Nat} {Ls : List Nat} (hf : FaultFree s)
    (hdst : dst < 2 ^ 64) (hsum : Ls.sum < 2 ^ 64) (hok : chunksOk s.launch src Ls)
    (hadm : memAdmits s.launch (BitVec.ofNat 64 dst) (DigestLen.bytes n) = true) :
    ∃ t, Host.Core.run core (sessionProgram n (chunkUpdates src Ls) dst).length
        { s with pending := sessionProgram n (chunkUpdates src Ls) dst } = .next t ∧
      t.fault = false ∧ t.result = .SUCCESS ∧
      t.mem = memWrite s.mem dst (Session.digest s.launch
        (Session.feedFrom s.launch s.mem src Ls.sum (Session.start s.launch s.draws n))) := by
  have hdstNat : (BitVec.ofNat 64 dst).toNat = dst := by rw [BitVec.toNat_ofNat, Nat.mod_eq_of_lt hdst]
  obtain ⟨t, hrun, ht⟩ := run_init (s := { s with pending := sessionProgram n (chunkUpdates src Ls) dst }) hf
    (sessionProgram_eq n _ dst)
  obtain ⟨u, hrun', hu⟩ := ht.run_chunks (Session.start_r _ _ n) hsum hok
  rw [← hdstNat] at hu
  obtain ⟨v, hfinal, hv⟩ := hu.run_final (by rw [Session.feedFrom_n, Session.start_n]; exact hadm)
  rw [hdstNat] at hv
  refine ⟨v, ?_, hv⟩
  have hlen : (sessionProgram n (chunkUpdates src Ls) dst).length =
      2 + (1 + (assemble (chunkUpdates src Ls)).length) := by
    have hform : (Asm.expand (.finalTo dst)).length = 2 := rfl
    rw [sessionProgram_eq, List.length_cons, List.length_append, hform]
    omega
  rw [hlen, (hrun.trans hrun') 2, hfinal]

/-- Settles O31: one UPDATE of the whole is a session with one chunk, so both programs store the same digest. -/
theorem chunkedUpdatesGiveTheSameDigest : Obligations.ChunkedUpdatesGiveTheSameDigest := by
  intro s n src dst Ls hf hsrc hdst hsum hok hsrcAdm hdstAdm
  have hwhole : chunksOk s.launch src [Ls.sum] := ⟨hsrc, hsrcAdm, fun h => absurd rfl h, trivial⟩
  obtain ⟨t, hrun, htf, htr, htm⟩ := run_sessionProgram hf hdst hsum hok hdstAdm
  obtain ⟨u, hrun', huf, hur, hum⟩ := run_sessionProgram hf hdst (by rwa [List.sum_singleton]) hwhole hdstAdm
  rw [List.sum_singleton] at hum
  exact ⟨t, u, hrun, hrun', htf, htr, huf, hur, htm.trans hum.symm⟩

end Sys2Proof.Machine
end

section
/-! SUPPORT. Results, faults and the faulted engine (60_exceptions.md): when a command answers FAIL or enters a fault
(O23, O24), that each completes (O13), and what a host move can do while STATUS.FAULT = 1 (O25, O26, O27) or with no
move left (O6). -/

namespace Sys2Proof.Machine

/-! ## The outcome of a command -/

/-- Settles O13: each command issues one effect, and issuing answers a next state whether the engine is faulted or not. -/
theorem everyCommandCompletes : Obligations.EveryCommandCompletes := by
  intro i s
  cases i with
  | init h => exact ⟨_, rfl⟩
  | update => exact ⟨_, rfl⟩
  | final => exact ⟨_, rfl⟩
  | hash h => exact ⟨_, rfl⟩

section Effects
variable {s t : State} {i : Instr}

/-- A command that returns FAIL is an UPDATE or FINAL without a session, or an UPDATE after a remainder; each changes
what R332 says and nothing else. -/
theorem CommandEffect.fail_cases (e : CommandEffect s t i) (hs : FaultFree s) (hf : t.fault = false)
    (hr : t.result = .FAIL) :
    ((i = .update ∨ i = .final) ∧
      (Context.status s.ctx = .UNINIT ∨ Context.status s.ctx = .FINALIZED ∨ Context.status s.ctx = .INVALID) ∧
      t = { s with result := .FAIL }) ∨
    (i = .update ∧ ∃ x, s.ctx = .accepting x ∧ Session.r x ≠ 0 ∧
      t = { s with ctx := .unspecified x, result := .FAIL }) := by
  cases e with
  | noSession _ hi hc ht => exact .inl ⟨hi, hc, ht⟩
  | @updateAfterRemainder x _ hc hx ht => exact .inr ⟨rfl, x, hc, hx, ht⟩
  | ignored hfs _ => exact absurd (hs.symm.trans hfs) (by decide)
  | useAfterFail _ _ _ ht | updateBounds _ _ _ _ ht | finalBounds _ _ _ ht | hashSrcBounds _ _ _ ht
  | hashDstBounds _ _ _ _ ht => simp [ht] at hf
  | initUnsupported _ _ ht | initStarted _ _ ht | updateFed _ _ _ _ ht | finalStored _ _ _ ht
  | hashUnsupported _ _ ht | hashStored _ _ _ _ ht => simp [ht] at hr

/-- UPDATE and FINAL without a session return FAIL (R332). -/
theorem exec_noSession (hs : FaultFree s) (hi : i = .update ∨ i = .final)
    (hc : Context.status s.ctx = .UNINIT ∨ Context.status s.ctx = .FINALIZED ∨ Context.status s.ctx = .INVALID) :
    exec i s = .next (setResult .FAIL s) := by
  rcases hi with rfl | rfl
  · exact execUpdate_fail hs hc
  · exact execFinal_fail hs hc

end Effects

/-- Settles O23: the two causes are the two cases of a FAIL; an ACCEPTING context tells them apart. -/
theorem failHasExactlyTheseCauses : Obligations.FailHasExactlyTheseCauses := by
  intro i s t hs he hf
  have hfail := (exec_effect he).fail_cases hs hf
  refine ⟨⟨fun hr => ?_, ?_⟩, fun hr hstatus => ?_, fun hr x hx => ?_⟩
  · rcases hfail hr with ⟨hi, hc, _⟩ | ⟨hi, x, hx, hrem, _⟩
    · exact .inl ⟨hi, hc⟩
    · exact .inr ⟨hi, x, hx, hrem⟩
  · rintro (⟨hi, hc⟩ | ⟨rfl, x, hx, hrem⟩)
    · rw [eq_of_next he (exec_noSession hs hi hc), setResult_result]
    · rw [eq_of_next he (execUpdate_remainder hs hx hrem), setResult_result]
  · rcases hfail hr with ⟨_, _, ht⟩ | ⟨_, x, hx, _, _⟩
    · exact ht
    · simp [hx, Context.status] at hstatus
  · rcases hfail hr with ⟨_, hc, _⟩ | ⟨_, y, hy, _, ht⟩
    · simp [hx, Context.status] at hc
    · obtain rfl : x = y := by simpa [hx] using hy
      exact ht

/-- Settles O24: each check that raises a fault records its own cause and info, and a command that completes raises
none. -/
theorem commandFaultsArePrecise : Obligations.CommandFaultsArePrecise := by
  intro i s t hs he hf
  have hrecord : ∀ {cause op info}, t = raiseFault cause op info s →
      t = { s with fault := true, cause := cause, faultOp := op, faultInfo := info } :=
    fun ht => ht.trans (raiseFault_clear _ _ _ s hs)
  cases exec_effect he with
  | useAfterFail _ hi hc ht =>
    refine ⟨_, _, hrecord ht, .inl ⟨rfl, by rw [hc]; rfl, ?_⟩⟩
    rcases hi with rfl | rfl
    · exact .inl ⟨rfl, rfl⟩
    · exact .inr ⟨rfl, rfl⟩
  | updateBounds _ hc _ ha ht =>
    exact ⟨_, _, hrecord ht, .inr (.inl ⟨rfl, rfl, by rw [hc]; rfl, Bool.eq_false_iff.2 ha, rfl⟩)⟩
  | finalBounds _ hc ha ht =>
    exact ⟨_, _, hrecord ht, .inr (.inr (.inl ⟨rfl, rfl, rfl, _, hc, Bool.eq_false_iff.2 ha⟩))⟩
  | @hashSrcBounds _ n _ hn ha ht =>
    refine ⟨_, _, hrecord ht, .inr (.inr (.inr ⟨rfl, n, by rw [ofBits_eq_some hn], ?_⟩))⟩
    exact .inl ⟨Bool.eq_false_iff.2 ha, rfl⟩
  | @hashDstBounds _ n _ hn hsrc ha ht =>
    refine ⟨_, _, hrecord ht, .inr (.inr (.inr ⟨rfl, n, by rw [ofBits_eq_some hn], ?_⟩))⟩
    exact .inr ⟨hsrc, Bool.eq_false_iff.2 ha, rfl⟩
  | ignored hfs _ => exact absurd (hs.symm.trans hfs) (by decide)
  | initUnsupported _ _ ht | initStarted _ _ ht | noSession _ _ _ ht | updateAfterRemainder _ _ _ ht
  | updateFed _ _ _ _ ht | finalStored _ _ _ ht | hashUnsupported _ _ ht | hashStored _ _ _ _ ht =>
    simp [ht, hs] at hf

/-! ## The faulted engine -/

section Faulted
variable {s : State} (hf : s.fault = true)
include hf

/-- A faulted engine ignores a CMD write (R339). -/
theorem hostMove_wrReg_cmd_faulted {v : Nat} (hv : v < 2 ^ 32) : hostMove (wrReg .CMD v) s = .next s :=
  (hostMove_wrReg .CMD v s hv).trans (issueCmd_faulted _ hf)

/-- A fitting write to a read-only register of a faulted engine changes nothing (R340). -/
theorem hostMove_wrReg_readOnly_faulted {r : Reg} {v : Nat} (hr : r = .RESULT ∨ r = .STATUS ∨ r = .FAULT_INFO)
    (hv : v < 2 ^ (8 * AccessWidth.bytes (Reg.width r))) : hostMove (wrReg r v) s = .next s :=
  (next_of_raiseFault (hostMove_wrReg_readOnly s hr hv)).2 hf

/-- A fitting write to a register of a faulted engine changes at most an operand register (R339, R340). -/
theorem writeTo_faulted (r : Reg) (v : Nat) :
    ∃ src len dst, writeTo r v s = .next { s with srcAddr := src, bitLen := len, dstAddr := dst } := by
  cases r with
  | CMD => exact ⟨s.srcAddr, s.bitLen, s.dstAddr, issueCmd_faulted _ hf⟩
  | SRC_ADDR => exact ⟨BitVec.ofNat 64 v, s.bitLen, s.dstAddr, rfl⟩
  | BIT_LEN => exact ⟨s.srcAddr, BitVec.ofNat 64 v, s.dstAddr, rfl⟩
  | DST_ADDR => exact ⟨s.srcAddr, s.bitLen, BitVec.ofNat 64 v, rfl⟩
  | RESULT | STATUS | FAULT_INFO =>
    exact ⟨s.srcAddr, s.bitLen, s.dstAddr, by rw [writeTo, raiseFault_set _ _ _ s hf]⟩

/-- A write at any offset of a faulted engine changes at most an operand register, if it is not refused. -/
theorem hostWrite_faulted {off : Addr} {width : AccessWidth} {v : Nat} {t : State}
    (h : hostWrite off width v s = .next t) :
    ∃ src len dst, t = { s with srcAddr := src, bitLen := len, dstAddr := dst } := by
  unfold hostWrite at h
  split at h
  · split at h
    · cases h
    · split at h
      · cases h
      · obtain ⟨src, len, dst, hw⟩ := writeTo_faulted hf _ v
        exact ⟨src, len, dst, eq_of_next h hw⟩
  · split at h
    · cases h
    · exact ⟨s.srcAddr, s.bitLen, s.dstAddr, (eq_of_next h rfl).trans (raiseFault_set _ _ _ s hf)⟩

/-- A read at any offset of a faulted engine changes at most what the host has read, if it is not refused. -/
theorem hostRead_faulted {off : Addr} {width : AccessWidth} {t : State} (h : hostRead off width s = .next t) :
    ∃ log, t = { s with readLog := log } := by
  unfold hostRead at h
  split at h
  · split at h
    · cases h
    · exact ⟨_, eq_of_next h rfl⟩
  · split at h
    · cases h
    · exact ⟨_, (eq_of_next h rfl).trans (raiseFault_set _ _ _ (logRead off none s) hf)⟩

/-- Everything a host move other than reset can do to a faulted engine: it changes the operand registers, what the host
has read, and the byte of memory that the host itself stores (R339, R340). -/
theorem hostMove_faulted {m : HostMove} {t : State} (hm : m ≠ .reset) (h : hostMove m s = .next t) :
    ∃ src len dst log mem,
      t = { s with srcAddr := src, bitLen := len, dstAddr := dst, readLog := log, mem := mem } ∧
      (mem = s.mem ∨ ∃ addr b, m = .store addr b ∧ mem = Memory.write s.mem addr.toNat b) := by
  cases m with
  | wr off width v =>
    obtain ⟨src, len, dst, ht⟩ := hostWrite_faulted hf h
    exact ⟨src, len, dst, s.readLog, s.mem, ht, .inl rfl⟩
  | rd off width =>
    obtain ⟨log, ht⟩ := hostRead_faulted hf h
    exact ⟨s.srcAddr, s.bitLen, s.dstAddr, log, s.mem, ht, .inl rfl⟩
  | store addr b =>
    simp only [hostMove, hostStore] at h
    split at h
    · obtain ⟨src, len, dst, ht⟩ := hostWrite_faulted hf h
      exact ⟨src, len, dst, s.readLog, s.mem, ht, .inl rfl⟩
    · exact ⟨s.srcAddr, s.bitLen, s.dstAddr, s.readLog, _, eq_of_next h rfl, .inr ⟨addr, b, rfl, rfl⟩⟩
  | reset => exact absurd rfl hm

end Faulted

/-- Settles O25: a rule for each kind of access, and the frame of a move to a faulted engine. -/
theorem faultsAreStickyUntilReset : Obligations.FaultsAreStickyUntilReset := by
  intro s hf
  refine ⟨fun v hv => hostMove_wrReg_cmd_faulted hf hv, hostMove_operands s, fun r => ⟨_, hostMove_rdReg r s, rfl⟩,
    fun m t hm h => ?_, resetEngine s, rfl, rfl, rfl, rfl, rfl⟩
  obtain ⟨src, len, dst, log, mem, rfl, _⟩ := hostMove_faulted hf hm h
  exact ⟨hf, rfl, rfl, rfl⟩

/-- Settles O26: by the frame of a move to a faulted engine, only a byte the host stores can change. -/
theorem faultedEngineTouchesNothing : Obligations.FaultedEngineTouchesNothing := by
  intro m s t hf hm h
  obtain ⟨src, len, dst, log, mem, rfl, hmem⟩ := hostMove_faulted hf hm h
  refine ⟨rfl, rfl, rfl, fun a ha => ?_⟩
  rcases hmem with rfl | ⟨addr, b, rfl, rfl⟩
  · rfl
  · have hne : a ≠ addr.toNat := by
      rintro rfl
      exact ha b (by rw [BitVec.ofNat_toNat, BitVec.setWidth_eq])
    exact Memory.read_write_other s.mem addr.toNat a b hne

/-- Settles O27: each of these accesses raises a fault, which changes nothing on a faulted engine. -/
theorem firstFaultWins : Obligations.FirstFaultWins := by
  intro s hf
  refine ⟨fun off width hat hin => ?_, fun off width v hat hin => ?_, fun v hv => ⟨?_, ?_⟩, fun v hv => ?_⟩
  · rw [hostMove_rd_unassigned s width hat hin, raiseFault_set _ _ _ (logRead off none s) hf]
    rfl
  · exact (next_of_raiseFault (hostMove_wr_unassigned s width hat hin v)).2 hf
  · exact hostMove_wrReg_readOnly_faulted hf (.inl rfl) hv
  · exact hostMove_wrReg_readOnly_faulted hf (.inr (.inl rfl)) hv
  · exact hostMove_wrReg_readOnly_faulted hf (.inr (.inr rfl)) hv

/-! ## Between host moves -/

/-- Settles O6: the step of an empty queue. -/
theorem engineIdlesWithoutAHostMove : Obligations.EngineIdlesWithoutAHostMove := step_idle

end Sys2Proof.Machine
end

section
/-! SUPPORT. The move reset() (70_reset_and_hazards.md R370): its effect, the word of STATUS after it, and O8. -/

namespace Sys2Proof.Machine

/-- `reset()` is always answered: no fault and no length of the queue holds it off. -/
theorem hostMove_reset (s : State) : hostMove .reset s = .next (resetEngine s) := rfl

/-- Every field of STATUS is engine state, so after `reset()` the word is the one of the reset state (R51, R58). -/
@[simp] theorem resetEngine_statusWord (s : State) : statusWord (resetEngine s) = 0 := by
  obtain ⟨_, _, _, _, _, _, _, hstatus, _, _⟩ := resetStateIsTheSpecs
  calc statusWord (resetEngine s) = statusWord State.reset := by simp [statusWord]
    _ = 0 := hstatus

/-- Settles O8: the move ends in `resetEngine s`, whose fields the rules of `resetEngine` give. -/
theorem resetEventClearsTheEngineOnly : Obligations.ResetEventClearsTheEngineOnly := by
  intro s
  have hctx : (resetEngine s).ctx = State.reset.ctx := (resetEngine_ctx s).trans reset_ctx.symm
  obtain ⟨hstatus, hsession, _⟩ := resetStateIsTheSpecs
  exact ⟨resetEngine s, hostMove_reset s, hctx ▸ hstatus, hctx ▸ hsession, resetEngine_hctx s,
    resetEngine_srcAddr s, resetEngine_bitLen s, resetEngine_dstAddr s, resetEngine_result s,
    resetEngine_fault s, resetEngine_cause s, resetEngine_faultOp s, resetEngine_faultInfo s,
    resetEngine_statusWord s, resetEngine_mem s, resetEngine_launch s⟩

end Sys2Proof.Machine
end
